-- ==== Sys2Proof/Word.lean ====
section
/-! DEFINITION. Words, bytes and bit-groups (spec/00_scope.md R8, R9, R13). -/

namespace Sys2Proof

/-- A host register or command word: 32 bits (R23, R55). -/
abbrev Word := BitVec 32

/-- One byte of data memory, and one pixel sample (R42, R81). -/
abbrev Byte := BitVec 8

/-- A bit-group `(v, l)`: it means the `l` bits `v[l-1:0]`, most significant first (R13).
The widths are those of a staging-buffer entry (R18). -/
structure Group where
  value : BitVec 16
  len   : BitVec 5
  deriving DecidableEq, Repr, Inhabited

/-- R13: the length is at most 16 and no bit of the value lies above it. -/
abbrev Group.canonical (g : Group) : Prop :=
  g.len.toNat ≤ 16 ∧ g.value.toNat < 2 ^ g.len.toNat

end Sys2Proof
end

