-- ==== Sys2Proof/Syntax.lean ====
section
/-! DEFINITION. The eleven commands (spec/30_encoding.md R56 to R58). -/

namespace Sys2Proof

/-- The four Huffman tables, numbered 0 to 3 (R22). -/
inductive Table where
  | ldc
  | cdc
  | lac
  | cac
  deriving DecidableEq, Repr, Inhabited

/-- One constructor per row of the opcode table, its operands as R57 names them. `IMM` is kept as its
16 bits; its signed value is `Sys2Proof.Machine.immValue`. -/
inductive Instr where
  | nop
  | pushi (len : BitVec 5) (val : BitVec 16)
  | pushr
  | clear
  | mag (p : Bool) (imm : BitVec 16)
  | huff (p : Bool) (t : Table) (sym : BitVec 8)
  | enc (t : Table) (run : BitVec 4) (imm : BitVec 16)
  | zz (idx : BitVec 6)
  | graych
  | cvtc
  | cvtg
  deriving DecidableEq, Repr, Inhabited

end Sys2Proof
end

