-- ==== Sys2Proof/WellFormed.lean ====
section
/-! DEFINITION. Which commands have a word: the field legality of R59 and R60 (spec/30_encoding.md). -/

namespace Sys2Proof

/-- `PUSHI` refuses `LEN > 16` and `VAL ≥ 2^LEN` (R59). Every other operand is legal at every value
of its field. -/
abbrev Instr.wellFormed (i : Instr) : Prop :=
  match i with
  | .nop => True
  | .pushi len val => len.toNat ≤ 16 ∧ val.toNat < 2 ^ len.toNat
  | .pushr => True
  | .clear => True
  | .mag _ _ => True
  | .huff _ _ _ => True
  | .enc _ _ _ => True
  | .zz _ => True
  | .graych => True
  | .cvtc => True
  | .cvtg => True

end Sys2Proof
end

