-- ==== Sys2Proof/Decode.lean ====
section
/-! DEFINITION. Decoding of a command word, and the encoder (spec/30_encoding.md R55 to R61). -/

namespace Sys2Proof

/-- The opcodes in use, one per row of R58. -/
inductive Opcode where
  | nop
  | pushi
  | pushr
  | clear
  | mag
  | huff
  | enc
  | zz
  | graych
  | cvtc
  | cvtg
  deriving DecidableEq, Repr

/-- Why a word is `ILLEGAL` (R59). -/
inductive DecodeError where
  /-- opcode 0xB to 0xF -/
  | reservedOpcode
  /-- a must-be-zero bit is set -/
  | reservedBits
  /-- `PUSHI` with `LEN > 16` -/
  | pushiLength
  /-- `PUSHI` with `VAL ≥ 2^LEN` -/
  | pushiValue
  deriving DecidableEq, Repr

/-- The opcode map of R58, on `OP = w[31:28]`; 0xB to 0xF are reserved (R60). -/
def opcodeOf (op : Nat) : Option Opcode :=
  match op with
  | 0x0 => some .nop
  | 0x1 => some .pushi
  | 0x2 => some .pushr
  | 0x3 => some .clear
  | 0x4 => some .mag
  | 0x5 => some .huff
  | 0x6 => some .enc
  | 0x7 => some .zz
  | 0x8 => some .graych
  | 0x9 => some .cvtc
  | 0xA => some .cvtg
  | _ => none

/-- The must-be-zero masks of R58. -/
def mustBeZero (op : Opcode) : Word :=
  match op with
  | .nop => 0x0FFFFFFF#32
  | .pushi => 0x0FE00000#32
  | .pushr => 0x0FFFFFFF#32
  | .clear => 0x0FFFFFFF#32
  | .mag => 0x0FFE0000#32
  | .huff => 0x0FFEFC00#32
  | .enc => 0x0C0F0000#32
  | .zz => 0x0FFFFFC0#32
  | .graych => 0x0FFFFFFF#32
  | .cvtc => 0x0FFFFFFF#32
  | .cvtg => 0x0FFFFFFF#32

/-- The numbering of the tables (R57). -/
def tableOfBits (t : BitVec 2) : Table :=
  match t.toNat with
  | 0 => .ldc
  | 1 => .cdc
  | 2 => .lac
  | _ => .cac

/-- The number of a table (R57). -/
def tableBits (t : Table) : BitVec 2 :=
  match t with
  | .ldc => 0#2
  | .cdc => 1#2
  | .lac => 2#2
  | .cac => 3#2

/-- The field `w[hi:lo]` (R9). -/
abbrev field (w : Word) (lo width : Nat) : BitVec width := w.extractLsb' lo width

/-- The operands of each format (R56, R57). -/
def assemble (op : Opcode) (w : Word) : Instr :=
  match op with
  | .nop => .nop
  | .pushi => .pushi (field w 16 5) (field w 0 16)
  | .pushr => .pushr
  | .clear => .clear
  | .mag => .mag (w.getLsbD 16) (field w 0 16)
  | .huff => .huff (w.getLsbD 16) (tableOfBits (field w 8 2)) (field w 0 8)
  | .enc => .enc (tableOfBits (field w 24 2)) (field w 20 4) (field w 0 16)
  | .zz => .zz (field w 0 6)
  | .graych => .graych
  | .cvtc => .cvtc
  | .cvtg => .cvtg

/-- R59: the checks in the order written, then the command. -/
def decode (w : Word) : Except DecodeError Instr :=
  match opcodeOf (field w 28 4).toNat with
  | none => .error .reservedOpcode
  | some op =>
    if w &&& mustBeZero op ≠ 0#32 then .error .reservedBits
    else if op = .pushi ∧ 16 < (field w 16 5).toNat then .error .pushiLength
    else if op = .pushi ∧ 2 ^ (field w 16 5).toNat ≤ (field w 0 16).toNat then .error .pushiValue
    else .ok (assemble op w)

/-- A field placed at bit `lo` of a word. -/
abbrev place {n : Nat} (f : BitVec n) (lo : Nat) : Word := f.setWidth 32 <<< lo

/-- The words of R61. -/
def encode (i : Instr) : Word :=
  match i with
  | .nop => 0x00000000#32
  | .pushi len val => 0x10000000#32 ||| place len 16 ||| place val 0
  | .pushr => 0x20000000#32
  | .clear => 0x30000000#32
  | .mag p imm => 0x40000000#32 ||| place (BitVec.ofBool p) 16 ||| place imm 0
  | .huff p t sym => 0x50000000#32 ||| place (BitVec.ofBool p) 16 ||| place (tableBits t) 8 ||| place sym 0
  | .enc t run imm => 0x60000000#32 ||| place (tableBits t) 24 ||| place run 20 ||| place imm 0
  | .zz idx => 0x70000000#32 ||| place idx 0
  | .graych => 0x80000000#32
  | .cvtc => 0x90000000#32
  | .cvtg => 0xA0000000#32

/-- The row of R58 an instruction belongs to. -/
def Instr.opcode (i : Instr) : Opcode :=
  match i with
  | .nop => .nop
  | .pushi _ _ => .pushi
  | .pushr => .pushr
  | .clear => .clear
  | .mag _ _ => .mag
  | .huff _ _ _ => .huff
  | .enc _ _ _ => .enc
  | .zz _ => .zz
  | .graych => .graych
  | .cvtc => .cvtc
  | .cvtg => .cvtg

/-- The instruction the decoder reads from a word of `nbits` bits; every bit above them is 0. A
command is always one 32-bit word (R55), so a longer word is no command. -/
def decodeTableWord (nbits w : Nat) : Option Instr :=
  if w % 2 ^ nbits < 2 ^ 32 then (decode (BitVec.ofNat 32 (w % 2 ^ nbits))).toOption else none

end Sys2Proof
end

