-- ==== Sys2Proof/Config.lean ====
section
/-! DEFINITION. The build and platform parameters of R8 (spec/00_scope.md), the free values, and what an
unlisted byte of data memory reads as. -/

namespace Sys2Proof

/-- The three magnitude strategies, numbered 0, 1, 2 (R8, R73). -/
inductive Strategy where
  | scan
  | catTab
  | fullTab
  deriving DecidableEq, Repr, Inhabited

/-- The kind argument of `BUS_OK` (R11). -/
inductive AccessKind where
  | read
  | write
  deriving DecidableEq, Repr, Inhabited

/-- One row of the platform's predicate `BUS_OK` (R8, R48): accesses of this width and kind whose
first byte lies in `first .. last` fail. A list of such rows stands for any predicate over the finite
data space (log entry 10). -/
structure DenyRule where
  first : Nat
  last  : Nat
  width : Nat
  kind  : AccessKind
  deriving DecidableEq, Repr, Inhabited

/-- The parameters of R8. They never change while the machine runs; State carries them so that every
statement speaks of every build (log entry 14). -/
structure Build where
  /-- `C`, the capacity, as wide as `SB_CAP` (R30). -/
  cap      : BitVec 11
  /-- `MAG_STRATEGY` (R34). -/
  strategy : Strategy
  /-- `R`, as wide as `MAG_CFG[31:16]` (R34). -/
  range    : BitVec 16
  /-- `BLK_BASE`, a byte address of the host bus (R23). -/
  blkBase  : Nat
  /-- `BUS_OK`, as the accesses it denies (R48). -/
  deny     : List DenyRule
  deriving DecidableEq, Repr

/-- The legal values of R8. -/
abbrev Build.legal (b : Build) : Prop :=
  1 ≤ b.cap.toNat ∧ b.cap.toNat ≤ 1024 ∧ 1 ≤ b.range.toNat ∧ b.range.toNat ≤ 32768 ∧
    b.blkBase % 0x2000 = 0

/-- `NMAX`, the largest block side the converter accepts (R8). -/
def Config.nMax : Nat := 16

/-- `MAG_STRATEGY` of this hardware: OPEN in R8, so without a body (log entry 8). -/
opaque Config.magStrategy : Strategy

/-- `BLK_BASE / 0x2000` of this hardware: OPEN in R8, so without a body (log entry 9). -/
opaque Config.blkPage : Nat

/-- The accesses this hardware's `BUS_OK` denies: OPEN in R8, so without a body (log entry 10). -/
opaque Config.busDenied : List DenyRule

/-- This hardware's build: the reference values of R8 and the open parameters. -/
def Config.build : Build where
  cap      := 1024#11
  strategy := Config.magStrategy
  range    := 2048#16
  blkBase  := 0x2000 * Config.blkPage
  deny     := Config.busDenied

/-- The value field of an unspecified buffer entry, per draw (R21, R37, R40; log entry 3). -/
opaque Config.freeValue : Nat → BitVec 16

/-- The length field of an unspecified buffer entry, per draw (R21, R37, R40; log entry 3). -/
opaque Config.freeLen : Nat → BitVec 5

/-- An unspecified destination byte after a failed write, per draw (R48; log entry 6). -/
opaque Config.freeByte : Nat → Byte

/-- The unspecified bit-group of draw `k`: nothing says that it is canonical (R21). -/
def Config.freeGroup (k : Nat) : Group := ⟨Config.freeValue k, Config.freeLen k⟩

/-- `n` unspecified bit-groups, from draw `k` on (R40). -/
def Config.freeGroups : Nat → Nat → List Group
  | _, 0 => []
  | k, n + 1 => Config.freeGroup k :: Config.freeGroups (k + 1) n

/-- DESIGN CHOICE, unsafe (log entry 7): what a byte of data memory reads as that nothing has written. -/
def Config.unlistedByte : Byte := 0#8

end Sys2Proof
end

