-- ==== Sys2Proof/Machine/State.lean ====
section
/-! DEFINITION. The state of the block, of its data memory and of HOST's pending operations
(spec/10_state.md R16 to R40), the reasons a step can stop, and the state after reset. -/

namespace Sys2Proof.Machine

/-- Data memory (R41): the bytes that differ from what an unlisted address reads as, by address. -/
abbrev Memory := List Host.Cell

/-- The canonical form: addresses strictly rising, no entry equal to what an unlisted address reads
as. Equal memories are then equal lists. -/
abbrev Memory.wf (m : Memory) : Prop :=
  m.Pairwise (fun x y => x.1 < y.1) ∧ ∀ c ∈ m, c.2 ≠ Config.unlistedByte

/-- How a HOST access names its target: a register's offset in the window (`wr REG, X` of R61), or a
byte address of the host bus (R23). -/
inductive HostAddr where
  | reg (offset : Nat)
  | bus (address : Nat)
  deriving DecidableEq, Repr

/-- What the outside world can do to the block (R7, R26, R35, R41, R61, R111). A program is a list of
these (R61, log entry 1). Widths are in bytes. -/
inductive HostOp where
  /-- write a word to the register window -/
  | wr (target : HostAddr) (width : Nat) (data : Word)
  /-- read a word of the register window -/
  | rd (target : HostAddr) (width : Nat)
  /-- HOST, or another master, writes a byte of data memory -/
  | memWr (address : Nat) (data : Byte)
  /-- HOST reads a byte of data memory -/
  | memRd (address : Nat)
  /-- the platform asserts the reset input: between commands only (DESIGN CHOICE, log entry 21) -/
  | resetInput
  deriving DecidableEq, Repr

/-- Why the machine stops with a fault. A fault of the BLOCK (R97) is not one of these: it is a next
state in which the block is halted (R99). -/
inductive Fault where
  /-- Raised by a HOST access to a byte of data memory above 0xFFFFFFFF, which does not exist (R41).
  Safe: the machine stops. -/
  | noSuchAddress
  deriving DecidableEq, Repr

/-- Why the machine has no meaning for a step. -/
inductive Refusal where
  /-- Raised by `exec` for an instruction that has no meaning yet. Safe: the machine stops. -/
  | notModelled (mnemonic : String)
  /-- Raised by a HOST access to the window that is not a 32-bit access at a 4-byte-aligned offset:
  its effect is not defined, and a model refuses it (R24). Safe: the machine stops. -/
  | hostAccess
  /-- Raised by a HOST access to the host bus outside the register window: another device answers
  it, of which the spec says nothing (log entry 12). Safe: the machine stops. -/
  | outsideWindow
  deriving DecidableEq, Repr

/-- Everything the spec gives the machine, and the three fields of the model's own at the end. -/
structure State where
  /-- the build and platform parameters (R8), never changed -/
  build    : Build
  /-- `SIZE` (R18) -/
  size     : BitVec 11
  /-- `SB[0 .. C-1]` (R18), the stale entries among them (R21) -/
  sb       : List Group
  /-- `SB_RSV.RSV` (R31) -/
  rsv      : BitVec 16
  /-- `STATUS.HALT` (R27) -/
  halt     : Bool
  /-- `FCAUSE.CAUSE` (R28) -/
  fcause   : BitVec 4
  /-- `FCMD` (R29) -/
  fcmd     : Word
  /-- `RES` (R32) -/
  res      : Group
  /-- `ZRES` (R33) -/
  zres     : BitVec 6
  /-- the converter's arguments (R36) -/
  cvSrcR   : Word
  cvSrcG   : Word
  cvSrcB   : Word
  cvStride : Word
  cvH      : Word
  cvW      : Word
  cvN      : BitVec 5
  cvDstY   : Word
  cvDstU   : Word
  cvDstV   : Word
  /-- data memory (R41) -/
  mem      : Memory
  /-- the model's own: HOST's operations still to come, the next first (log entry 1) -/
  pending  : List HostOp
  /-- the model's own: what HOST's reads returned, the newest first (log entry 2) -/
  replies  : List Word
  /-- the model's own: how many free values have been drawn (log entry 3) -/
  draws    : Nat
  deriving DecidableEq, Repr

/-- The state after reset (R40, R111), with this hardware's build. The buffer entries are
unspecified, so they are drawn; nothing is pending. -/
def State.reset : State where
  build    := Config.build
  size     := 0#11
  sb       := Config.freeGroups 0 1024
  rsv      := 512#16
  halt     := false
  fcause   := 0#4
  fcmd     := 0#32
  res      := ⟨0#16, 0#5⟩
  zres     := 0#6
  cvSrcR   := 0#32
  cvSrcG   := 0#32
  cvSrcB   := 0#32
  cvStride := 0#32
  cvH      := 0#32
  cvW      := 0#32
  cvN      := 0#5
  cvDstY   := 0#32
  cvDstU   := 0#32
  cvDstV   := 0#32
  mem      := []
  pending  := []
  replies  := []
  draws    := 1024

end Sys2Proof.Machine
end

