-- ==== Sys2Proof/Machine/Flags.lean ====
section
/-! DEFINITION. The block's two flags, `FULL` and `HALT` (spec/10_state.md R27; spec/40_staging_buffer.md
R64), and the reserve's reset value (R31). -/

namespace Sys2Proof.Machine

/-- `FULL = (SIZE + RSV ≥ C)`, on integers (R64). Never stored (R27). -/
def full (s : State) : Bool := decide (s.build.cap.toNat ≤ s.size.toNat + s.rsv.toNat)

/-- `STATUS`: bit 0 `FULL`, bit 1 `HALT`, the rest zero (R23, R27). -/
def statusWord (s : State) : Word :=
  place (BitVec.ofBool s.halt) 1 ||| place (BitVec.ofBool (full s)) 0

/-- `floor(C / 2)`, the reset value of `RSV` (R31). -/
def resetReserve (b : Build) : BitVec 16 := BitVec.ofNat 16 (b.cap.toNat / 2)

end Sys2Proof.Machine
end

