-- ==== Sys2Proof/Machine/Operands.lean ====
section
/-! DEFINITION. The operand forms (spec/30_encoding.md R57; spec/43_pixel_convert.md R85, R86): signed
immediates, the packing of a bit-group, and the addresses of a conversion. -/

namespace Sys2Proof.Machine

/-- `IMM = sext_16(w[15:0])`, in -32768 .. 32767 (R10, R57). -/
def immValue (imm : BitVec 16) : Int := imm.toInt

/-- A bit-group in a 32-bit register or window word: `[15:0]` value, `[20:16]` length, `[31:21]` zero
(R13). -/
def packGroup (g : Group) : Word := place g.len 16 ||| place g.value 0

/-- `N = zext_5(CV_N[4:0])` (R87). -/
def cvSide (s : State) : Nat := s.cvN.toNat

/-- The address of `Sample(S, i, j)`, on integers (R85): clamp-to-edge replication. -/
def sampleAddr (s : State) (src : Word) (i j : Nat) : Nat :=
  src.toNat + min i (s.cvH.toNat - 1) * s.cvStride.toNat + min j (s.cvW.toNat - 1)

/-- The address of output element `(i, j)` of a block of side `n` at `dst` (R86). -/
def elemAddr (dst : Word) (n i j : Nat) : Nat := dst.toNat + 4 * (n * i + j)

/-- The positions of a block of side `n`, in row-major order (R49, R86). -/
def blockPositions (n : Nat) : List (Nat × Nat) :=
  (List.range n).flatMap fun i => (List.range n).map fun j => (i, j)

end Sys2Proof.Machine
end

