-- ==== Sys2Proof/Machine/Ops.lean ====
section
/-! DEFINITION. The operations the commands share: data memory (spec/20_memory.md), taking a fault
(spec/60_exceptions.md R97, R99), the way back from it, reset (spec/70_reset_and_hazards.md R111), and
named updates of the state. -/

namespace Sys2Proof.Machine

/-! ### Data memory -/

/-- `MemRead(a, 1)` (R11). -/
def Memory.read : Memory → Nat → Byte
  | [], _ => Config.unlistedByte
  | (k, b) :: m, a => if a = k then b else Memory.read m a

/-- A new first entry, unless it says what an unlisted address reads as anyway. -/
def Memory.cons (a : Nat) (b : Byte) (m : Memory) : Memory :=
  if b = Config.unlistedByte then m else (a, b) :: m

/-- The byte at `a` becomes `b`; the form stays canonical. -/
def Memory.write : Memory → Nat → Byte → Memory
  | [], a, b => Memory.cons a b []
  | (k, c) :: m, a, b =>
    if a < k then Memory.cons a b ((k, c) :: m)
    else if a = k then Memory.cons a b m
    else (k, c) :: Memory.write m a b

/-- Bytes stored at rising addresses from `a`. -/
def Memory.writeBytes : Memory → Nat → List Byte → Memory
  | m, _, [] => m
  | m, a, b :: bs => Memory.writeBytes (m.write a b) (a + 1) bs

/-- Byte `k` of a word: `v[8k+7:8k]` (R11). -/
def wordByte (v : Word) (k : Nat) : Byte := v.extractLsb' (8 * k) 8

/-- `MemWrite(a, 4, v)`: little-endian (R11, R43). -/
def Memory.writeWord (m : Memory) (a : Nat) (v : Word) : Memory :=
  m.writeBytes a [wordByte v 0, wordByte v 1, wordByte v 2, wordByte v 3]

/-- The 32-bit word at `a`, little-endian (R43): for HOST and for statements; the block reads bytes
only (R42). -/
def Memory.readWord (m : Memory) (a : Nat) : Word :=
  place (m.read (a + 3)) 24 ||| place (m.read (a + 2)) 16 ||| place (m.read (a + 1)) 8 ||| place (m.read a) 0

/-- The row of `BUS_OK` denies this access. -/
def DenyRule.covers (r : DenyRule) (addr width : Nat) (kind : AccessKind) : Bool :=
  decide (r.first ≤ addr) && decide (addr ≤ r.last) && decide (r.width = width) && decide (r.kind = kind)

/-- `BUS_OK(addr, width, kind)` (R11, R48; log entry 10). -/
def busOk (b : Build) (addr width : Nat) (kind : AccessKind) : Bool :=
  !(b.deny.any fun r => DenyRule.covers r addr width kind)

/-! ### Named updates of the state -/

def State.withRes (s : State) (g : Group) : State := { s with res := g }

def State.withZres (s : State) (z : BitVec 6) : State := { s with zres := z }

def State.withSize (s : State) (n : BitVec 11) : State := { s with size := n }

def State.withMem (s : State) (m : Memory) : State := { s with mem := m }

def State.withPending (s : State) (ops : List HostOp) : State := { s with pending := ops }

def State.withReply (s : State) (w : Word) : State := { s with replies := w :: s.replies }

def State.withDraws (s : State) (k : Nat) : State := { s with draws := k }

/-- `SB[i], SB[i+1], …` become the groups given (R65). -/
def writeEntries : List Group → Nat → List Group → List Group
  | sb, _, [] => sb
  | sb, i, g :: gs => writeEntries (sb.set i g) (i + 1) gs

/-- The groups appended behind the contents, and `SIZE` counted up (R65). -/
def State.withPushed (s : State) (gs : List Group) : State :=
  { s with
    sb   := writeEntries s.sb s.size.toNat gs
    size := BitVec.ofNat 11 (s.size.toNat + gs.length) }

/-! ### Taking a fault -/

/-- The causes of R97. -/
inductive Cause where
  | illegal
  | sbOvf
  | magRange
  | symUnpop
  | cvParam
  | cvAddr
  | cvAlign
  | busErr
  deriving DecidableEq, Repr

/-- The code recorded in `FCAUSE.CAUSE` (R97). -/
def causeCode (c : Cause) : BitVec 4 :=
  match c with
  | .illegal => 1#4
  | .sbOvf => 2#4
  | .magRange => 3#4
  | .symUnpop => 4#4
  | .cvParam => 5#4
  | .cvAddr => 6#4
  | .cvAlign => 7#4
  | .busErr => 8#4

/-- Fault entry (R99): `HALT`, `FCAUSE` and `FCMD` are written and nothing else. There is no vector,
no saved program counter and no mode change. `w` is the command word being executed. -/
def raise (s : State) (c : Cause) (w : Word) : State :=
  { s with halt := true, fcause := causeCode c, fcmd := w }

/-- How a command ends: with all its writes at once, or with its first failing check (R9, R12, R99).
`i` is the command, whose word is `encode i` (log entry 15). -/
def finish (i : Instr) (s : State) (r : Except Cause State) : Host.Outcome State Fault Refusal :=
  match r with
  | .ok t => .next t
  | .error c => .next (raise s c (encode i))

/-! ### The return from a fault: reset -/

/-- The reset operation (R40, R111), by the reset input or by `SRST`: the only way out of the halted
state (R101). Data memory, the build and the tables are not touched; the buffer entries become
unspecified, so each is drawn. HOST's program and what its reads returned are HOST's. -/
def resetBlock (s : State) : State :=
  { s with
    size     := 0#11
    sb       := Config.freeGroups s.draws s.build.cap.toNat
    rsv      := resetReserve s.build
    halt     := false
    fcause   := 0#4
    fcmd     := 0#32
    res      := ⟨0#16, 0#5⟩
    zres     := 0#6
    cvSrcR   := 0#32
    cvSrcG   := 0#32
    cvSrcB   := 0#32
    cvStride := 0#32
    cvH      := 0#32
    cvW      := 0#32
    cvN      := 0#5
    cvDstY   := 0#32
    cvDstU   := 0#32
    cvDstV   := 0#32
    draws    := s.draws + s.build.cap.toNat }

/-! ### The staging buffer -/

/-- `PushAll` (R65): the whole sequence is checked before any entry is written. -/
def pushAll (s : State) (gs : List Group) : Except Cause State :=
  if s.build.cap.toNat < s.size.toNat + gs.length then .error .sbOvf
  else .ok (s.withPushed gs)

/-- `PushAll` when the command's `P` bit asks for it (R75, R77). -/
def pushIf (p : Bool) (s : State) (gs : List Group) : Except Cause State :=
  if p then pushAll s gs else .ok s

/-- `SB[i]` as held (R18). -/
def entry (s : State) (i : Nat) : Group := s.sb.getD i ⟨0#16, 0#5⟩

/-- The bits of a group, most significant first (R13). -/
def groupBits (g : Group) : List Bool :=
  (List.range g.len.toNat).reverse.map fun k => g.value.getLsbD k

/-- The buffer's contents `SB[0 .. SIZE-1]`, the oldest first (R18). -/
def contents (s : State) : List Group := s.sb.take s.size.toNat

/-- The bit stream the buffer stands for (R66). -/
def bitStream (s : State) : List Bool := (contents s).flatMap groupBits

end Sys2Proof.Machine
end

