-- ==== Sys2Proof/Machine/Buffer.lean ====
section
/-! DEFINITION. The staging-buffer commands NOP, PUSHI, PUSHR and CLEAR (spec/40_staging_buffer.md R67 to R70). -/

namespace Sys2Proof.Machine

/-- `NOP` (R67). -/
def execNop (s : State) : Host.Outcome State Fault Refusal := finish .nop s (.ok s)

/-- `PUSHI LEN, VAL` (R68). The decoder has refused a group that is not canonical (log entry 16). -/
def execPushi (len : BitVec 5) (val : BitVec 16) (s : State) : Host.Outcome State Fault Refusal :=
  finish (.pushi len val) s (pushAll s [⟨val, len⟩])

/-- `PUSHR` (R69). -/
def execPushr (s : State) : Host.Outcome State Fault Refusal :=
  finish .pushr s (pushAll s [s.res])

/-- `CLEAR` (R70): the entries keep their values, but are no longer contents (R21). -/
def execClear (s : State) : Host.Outcome State Fault Refusal :=
  finish .clear s (.ok (s.withSize 0#11))

end Sys2Proof.Machine
end

