-- ==== Sys2Proof/Machine/Binary32.lean ====
section
/-! DEFINITION. IEEE 754 binary32 as the spec uses it (spec/00_scope.md R12; spec/43_pixel_convert.md R81, R84):
addition, subtraction and multiplication on encodings, each rounded once to nearest-even. -/

namespace Sys2Proof.Machine

/-- A binary32 value, by its encoding: `bits32` (R84) is the identity. Only finite encodings occur (R81,
log entry 17). -/
abbrev F32 := BitVec 32

/-- The sign, bit 31 (R84). -/
def f32Neg (x : F32) : Bool := x.getLsbD 31

/-- `|x|` in units of `2^-149`, the spacing of the smallest binary32 values: every finite binary32
magnitude is a whole number of them. Bits 30:23 are the biased exponent, bits 22:0 the fraction
(R84). -/
def f32Mag (x : F32) : Nat :=
  let e := (x.extractLsb' 23 8).toNat
  let f := (x.extractLsb' 0 23).toNat
  if e = 0 then f else (2 ^ 23 + f) * 2 ^ (e - 1)

/-- `x` in units of `2^-149`. -/
def f32Units (x : F32) : Int := if f32Neg x then -(f32Mag x : Int) else f32Mag x

/-- The encoding of `+∞`, the result of a rounding beyond the largest finite value. -/
def f32Infinity : Nat := 0x7F800000

/-- How many low bits rounding drops, for a magnitude whose whole part is `q` units: 24 significant
bits remain. -/
def f32Shift (q : Nat) : Nat := if q = 0 then 0 else q.log2 + 1 - 24

/-- Division to nearest, ties to even. -/
def divNearestEven (n d : Nat) : Nat :=
  if d < 2 * (n % d) then n / d + 1
  else if 2 * (n % d) = d then n / d + n / d % 2
  else n / d

/-- The encoding, without its sign, of the binary32 value nearest to `n / d` units, ties to even (R12).
With the exponent field above the fraction, a carry out of the significand moves the encoding to the
next binade by itself. -/
def roundMag (n d : Nat) : Nat :=
  let sh := f32Shift (n / d)
  min f32Infinity (sh * 2 ^ 23 + divNearestEven n (d * 2 ^ sh))

/-- A sign, in bit 31, and a magnitude's encoding below it (R84). -/
def f32Pack (neg : Bool) (m : Nat) : F32 := BitVec.ofNat 32 (if neg then 2 ^ 31 + m else m)

/-- `-x`, exact (R83). -/
def f32Negate (x : F32) : F32 := x ^^^ 0x80000000#32

/-- `x ⊕ y` (R12). An exact zero is `+0` unless both operands are `-0` (R84). -/
def f32Add (x y : F32) : F32 :=
  let z := f32Units x + f32Units y
  if z = 0 then f32Pack (f32Neg x && f32Neg y) 0
  else f32Pack (decide (z < 0)) (roundMag z.natAbs 1)

/-- `x ⊖ y` (R12). -/
def f32Sub (x y : F32) : F32 := f32Add x (f32Negate y)

/-- `x ⊗ y` (R12): the product of two magnitudes counts units of `2^-298`. -/
def f32Mul (x y : F32) : F32 :=
  f32Pack (f32Neg x != f32Neg y) (roundMag (f32Mag x * f32Mag y) (2 ^ 149))

/-- `f32` of a decimal literal `num / den` (R12, R82). -/
def f32OfRatio (num den : Nat) : F32 := f32Pack false (roundMag (num * 2 ^ 149) den)

/-- A sample 0 .. 255 converted to binary32, exactly (R81). -/
def f32OfSample (b : Byte) : F32 := f32OfRatio b.toNat 1

/-! ### The coefficients (R82) -/

def kYR : F32 := 0x3E991687#32
def kYG : F32 := 0x3F1645A2#32
def kYB : F32 := 0x3DE978D5#32
def kUR : F32 := 0x3E2CCA2E#32
def kUG : F32 := 0x3EA99AE9#32
def kUB : F32 := 0x3F000000#32
def kVR : F32 := 0x3F000000#32
def kVG : F32 := 0x3ED65E89#32
def kVB : F32 := 0x3DA685DB#32

/-- 128 as binary32: the level shift (R83). -/
def k128 : F32 := 0x43000000#32

/-! ### The conversion formulas (R83), every operation rounded in the order the parentheses give -/

/-- `CY(r, g, b)`. -/
def convY (r g b : Byte) : F32 :=
  f32Sub
    (f32Add (f32Add (f32Mul kYR (f32OfSample r)) (f32Mul kYG (f32OfSample g))) (f32Mul kYB (f32OfSample b)))
    k128

/-- `CU(r, g, b)`. -/
def convU (r g b : Byte) : F32 :=
  f32Add
    (f32Sub (f32Negate (f32Mul kUR (f32OfSample r))) (f32Mul kUG (f32OfSample g)))
    (f32Mul kUB (f32OfSample b))

/-- `CV(r, g, b)`. -/
def convV (r g b : Byte) : F32 :=
  f32Sub
    (f32Sub (f32Mul kVR (f32OfSample r)) (f32Mul kVG (f32OfSample g)))
    (f32Mul kVB (f32OfSample b))

/-- `CG(g)`. -/
def convG (g : Byte) : F32 := f32Sub (f32OfSample g) k128

end Sys2Proof.Machine
end

