-- ==== Sys2Proof/Machine/Convert.lean ====
section
/-! DEFINITION. The pixel block converter CVTC and CVTG (spec/43_pixel_convert.md R85 to R89; spec/20_memory.md
R42, R48, R49). -/

namespace Sys2Proof.Machine

/-- The last byte a source plane is read at (R87). -/
def srcLast (s : State) (src : Word) : Nat :=
  src.toNat + (min (cvSide s) s.cvH.toNat - 1) * s.cvStride.toNat + (min (cvSide s) s.cvW.toNat - 1)

/-- The last byte of a destination block (R87). -/
def dstLast (s : State) (dst : Word) : Nat := dst.toNat + 4 * cvSide s * cvSide s - 1

/-- `CvCheck(srcs, dsts)` (R87): the first check that fails, in the order written. -/
def cvCheck (s : State) (srcs dsts : List Word) : Option Cause :=
  if cvSide s < 1 ∨ Config.nMax < cvSide s then some .cvParam
  else if s.cvH = 0#32 ∨ s.cvW = 0#32 then some .cvParam
  else if dsts.any fun d => decide (d.toNat % 4 ≠ 0) then some .cvAlign
  else if srcs.any fun a => decide (0xFFFFFFFF < srcLast s a) then some .cvAddr
  else if dsts.any fun d => decide (0xFFFFFFFF < dstLast s d) then some .cvAddr
  else none

/-- `Sample(S, i, j)` (R85), from memory as it stood when the command began (R49). -/
def sample (s : State) (src : Word) (i j : Nat) : Byte := s.mem.read (sampleAddr s src i j)

/-- `BUS_OK` holds for every read of the command (R48). -/
def readsOk (s : State) (srcs : List Word) : Bool :=
  srcs.all fun src => (blockPositions (cvSide s)).all fun p =>
    busOk s.build (sampleAddr s src p.1 p.2) 1 .read

/-- `BUS_OK` holds for every write of the command (R48). -/
def writesOk (s : State) (dsts : List Word) : Bool :=
  dsts.all fun dst => (blockPositions (cvSide s)).all fun p =>
    busOk s.build (elemAddr dst (cvSide s) p.1 p.2) 4 .write

/-- The words of one output block, written in row-major order (R49, R86). -/
def writeBlock (m : Memory) (dst : Word) (n : Nat) (f : Nat → Nat → F32) : Memory :=
  (blockPositions n).foldl (fun m p => m.writeWord (elemAddr dst n p.1 p.2) (f p.1 p.2)) m

/-- `n` unspecified bytes, from draw `k` on (R48). -/
def freeBytes : Nat → Nat → List Byte
  | _, 0 => []
  | k, n + 1 => Config.freeByte k :: freeBytes (k + 1) n

/-- After a failed write every byte of the destination blocks has an unspecified value, and no other
byte changes (R48). -/
def spoilBlocks (s : State) : List Word → State
  | [] => s
  | d :: ds =>
    let n := 4 * cvSide s * cvSide s
    spoilBlocks ((s.withMem (s.mem.writeBytes d.toNat (freeBytes s.draws n))).withDraws (s.draws + n)) ds

/-- A conversion: the checks, then every read, then every write (R49, R88, R89). `m` is data memory
after the writes. A failed read or write raises `BUS_ERR` (R48). -/
def convert (i : Instr) (s : State) (srcs dsts : List Word) (m : Memory) :
    Host.Outcome State Fault Refusal :=
  match cvCheck s srcs dsts with
  | some c => finish i s (.error c)
  | none =>
    if readsOk s srcs then
      if writesOk s dsts then finish i s (.ok (s.withMem m))
      else finish i (spoilBlocks s dsts) (.error .busErr)
    else finish i s (.error .busErr)

/-- A conversion formula on the three samples at `(i, j)` (R88). -/
def rgbElem (s : State) (f : Byte → Byte → Byte → F32) (i j : Nat) : F32 :=
  f (sample s s.cvSrcR i j) (sample s s.cvSrcG i j) (sample s s.cvSrcB i j)

/-- Data memory after `CVTC`: all of Y, then all of U, then all of V (R49, R88). Every sample is read
from memory as it stood when the command began (R49). -/
def cvtcMem (s : State) : Memory :=
  writeBlock
    (writeBlock (writeBlock s.mem s.cvDstY (cvSide s) (rgbElem s convY))
      s.cvDstU (cvSide s) (rgbElem s convU))
    s.cvDstV (cvSide s) (rgbElem s convV)

/-- `CVTC` (R88). -/
def execCvtc (s : State) : Host.Outcome State Fault Refusal :=
  convert .cvtc s [s.cvSrcR, s.cvSrcG, s.cvSrcB] [s.cvDstY, s.cvDstU, s.cvDstV] (cvtcMem s)

/-- Data memory after `CVTG` (R89). -/
def cvtgMem (s : State) : Memory :=
  writeBlock s.mem s.cvDstY (cvSide s) fun i j => convG (sample s s.cvSrcG i j)

/-- `CVTG` (R89). -/
def execCvtg (s : State) : Host.Outcome State Fault Refusal :=
  convert .cvtg s [s.cvSrcG] [s.cvDstY] (cvtgMem s)

end Sys2Proof.Machine
end

