-- ==== Sys2Proof/Machine/Magnitude.lean ====
section
/-! DEFINITION. The magnitude encoder and MAG (spec/41_magnitude.md R71 to R75). -/

namespace Sys2Proof.Machine

/-- `bitlen(n)`: the least `k` with `n < 2^k` (R10). -/
def bitLen (n : Nat) : Nat := if n = 0 then 0 else n.log2 + 1

/-- The category of a value: the bit-length of `|v|` (R71). -/
def category (v : Int) : Nat := bitLen v.natAbs

/-- The low `cat` bits of `v`, or of `v - 1` when `v` is negative: `& (2^cat - 1)` on two's-complement
integers (R10, R71) is the remainder by `2^cat`. -/
def magBits (v : Int) : Nat :=
  ((if 0 ≤ v then v else v - 1) % (2 ^ category v : Nat)).toNat

/-- `MagEncode(v)` (R71). -/
def magEncode (v : Int) : Group :=
  ⟨BitVec.ofNat 16 (magBits v), BitVec.ofNat 5 (category v)⟩

/-- `MagDecode(bits, cat)` (R74). The block has no decode command; this is for statements. -/
def magDecode (g : Group) : Int :=
  if g.len = 0#5 then 0
  else if g.value.getLsbD (g.len.toNat - 1) then g.value.toNat
  else (g.value.toNat : Int) - (2 ^ g.len.toNat : Nat) + 1

/-- The strategies that look values up in a table of size `R` (R73). -/
def strategyTabled (m : Strategy) : Bool :=
  match m with
  | .scan => false
  | .catTab => true
  | .fullTab => true

/-- `MagCheck(v)` (R72): true when the value is out of the strategy's range. The strategies differ in
this alone (R73). -/
def magOutOfRange (b : Build) (v : Int) : Bool :=
  decide (b.range.toNat ≤ v.natAbs) && strategyTabled b.strategy

/-- `MAG IMM` and `MAG.P IMM` (R75). -/
def execMag (p : Bool) (imm : BitVec 16) (s : State) : Host.Outcome State Fault Refusal :=
  finish (.mag p imm) s <|
    if magOutOfRange s.build (immValue imm) then .error .magRange
    else (pushIf p s [magEncode (immValue imm)]).map fun t => t.withRes (magEncode (immValue imm))

end Sys2Proof.Machine
end

