-- ==== Sys2Proof/Machine/Tables.lean ====
section
/-! DEFINITION. The read-only tables: the canonical code assignment of R90, the four Huffman tables of R92 to R95
from their `BITS` and `HUFFVAL`, and the zigzag table of R96 (spec/44_code_table_contents.md). -/

namespace Sys2Proof.Machine

/-- The codes of one length: `n` symbols get `code, code + 1, …` (R90). -/
def assignRun : Nat → Nat → Nat → List Nat → List (Nat × Group)
  | 0, _, _, _ => []
  | _, _, _, [] => []
  | n + 1, len, code, v :: vs =>
    (v, ⟨BitVec.ofNat 16 code, BitVec.ofNat 5 len⟩) :: assignRun n len (code + 1) vs

/-- The canonical code assignment (R90): within one length codes increase by one; at each longer
length the running code is doubled. The lists are `BITS[len ..]` and the rest of `HUFFVAL`. -/
def assignCodes : List Nat → Nat → Nat → List Nat → List (Nat × Group)
  | [], _, _, _ => []
  | n :: bits, len, code, vs =>
    assignRun n len code vs ++ assignCodes bits (len + 1) ((code + n) * 2) (vs.drop n)

/-- `BITS[1..16]` of LDC (R92). -/
def ldcBits : List Nat := [0, 1, 5, 1, 1, 1, 1, 1, 1, 0, 0, 0, 0, 0, 0, 0]

/-- `HUFFVAL` of LDC: symbols 0 to 11 in order (R92). -/
def ldcVals : List Nat := [0, 1, 2, 3, 4, 5, 6, 7, 8, 9, 10, 11]

/-- `BITS[1..16]` of CDC (R93). -/
def cdcBits : List Nat := [0, 3, 1, 1, 1, 1, 1, 1, 1, 1, 1, 0, 0, 0, 0, 0]

/-- `HUFFVAL` of CDC: symbols 0 to 11 in order (R93). -/
def cdcVals : List Nat := [0, 1, 2, 3, 4, 5, 6, 7, 8, 9, 10, 11]

/-- `BITS[1..16]` of LAC (R94). -/
def lacBits : List Nat := [0, 2, 1, 3, 3, 2, 4, 3, 5, 5, 4, 4, 0, 0, 1, 125]

/-- `HUFFVAL` of LAC (R94). -/
def lacVals : List Nat :=
  [0x01, 0x02, 0x03, 0x00, 0x04, 0x11, 0x05, 0x12, 0x21, 0x31, 0x41, 0x06, 0x13, 0x51, 0x61, 0x07] ++
  [0x22, 0x71, 0x14, 0x32, 0x81, 0x91, 0xA1, 0x08, 0x23, 0x42, 0xB1, 0xC1, 0x15, 0x52, 0xD1, 0xF0] ++
  [0x24, 0x33, 0x62, 0x72, 0x82, 0x09, 0x0A, 0x16, 0x17, 0x18, 0x19, 0x1A, 0x25, 0x26, 0x27, 0x28] ++
  [0x29, 0x2A, 0x34, 0x35, 0x36, 0x37, 0x38, 0x39, 0x3A, 0x43, 0x44, 0x45, 0x46, 0x47, 0x48, 0x49] ++
  [0x4A, 0x53, 0x54, 0x55, 0x56, 0x57, 0x58, 0x59, 0x5A, 0x63, 0x64, 0x65, 0x66, 0x67, 0x68, 0x69] ++
  [0x6A, 0x73, 0x74, 0x75, 0x76, 0x77, 0x78, 0x79, 0x7A, 0x83, 0x84, 0x85, 0x86, 0x87, 0x88, 0x89] ++
  [0x8A, 0x92, 0x93, 0x94, 0x95, 0x96, 0x97, 0x98, 0x99, 0x9A, 0xA2, 0xA3, 0xA4, 0xA5, 0xA6, 0xA7] ++
  [0xA8, 0xA9, 0xAA, 0xB2, 0xB3, 0xB4, 0xB5, 0xB6, 0xB7, 0xB8, 0xB9, 0xBA, 0xC2, 0xC3, 0xC4, 0xC5] ++
  [0xC6, 0xC7, 0xC8, 0xC9, 0xCA, 0xD2, 0xD3, 0xD4, 0xD5, 0xD6, 0xD7, 0xD8, 0xD9, 0xDA, 0xE1, 0xE2] ++
  [0xE3, 0xE4, 0xE5, 0xE6, 0xE7, 0xE8, 0xE9, 0xEA, 0xF1, 0xF2, 0xF3, 0xF4, 0xF5, 0xF6, 0xF7, 0xF8] ++
  [0xF9, 0xFA]

/-- `BITS[1..16]` of CAC (R95). -/
def cacBits : List Nat := [0, 2, 1, 2, 4, 4, 3, 4, 7, 5, 4, 4, 0, 1, 2, 119]

/-- `HUFFVAL` of CAC (R95). -/
def cacVals : List Nat :=
  [0x00, 0x01, 0x02, 0x03, 0x11, 0x04, 0x05, 0x21, 0x31, 0x06, 0x12, 0x41, 0x51, 0x07, 0x61, 0x71] ++
  [0x13, 0x22, 0x32, 0x81, 0x08, 0x14, 0x42, 0x91, 0xA1, 0xB1, 0xC1, 0x09, 0x23, 0x33, 0x52, 0xF0] ++
  [0x15, 0x62, 0x72, 0xD1, 0x0A, 0x16, 0x24, 0x34, 0xE1, 0x25, 0xF1, 0x17, 0x18, 0x19, 0x1A, 0x26] ++
  [0x27, 0x28, 0x29, 0x2A, 0x35, 0x36, 0x37, 0x38, 0x39, 0x3A, 0x43, 0x44, 0x45, 0x46, 0x47, 0x48] ++
  [0x49, 0x4A, 0x53, 0x54, 0x55, 0x56, 0x57, 0x58, 0x59, 0x5A, 0x63, 0x64, 0x65, 0x66, 0x67, 0x68] ++
  [0x69, 0x6A, 0x73, 0x74, 0x75, 0x76, 0x77, 0x78, 0x79, 0x7A, 0x82, 0x83, 0x84, 0x85, 0x86, 0x87] ++
  [0x88, 0x89, 0x8A, 0x92, 0x93, 0x94, 0x95, 0x96, 0x97, 0x98, 0x99, 0x9A, 0xA2, 0xA3, 0xA4, 0xA5] ++
  [0xA6, 0xA7, 0xA8, 0xA9, 0xAA, 0xB2, 0xB3, 0xB4, 0xB5, 0xB6, 0xB7, 0xB8, 0xB9, 0xBA, 0xC2, 0xC3] ++
  [0xC4, 0xC5, 0xC6, 0xC7, 0xC8, 0xC9, 0xCA, 0xD2, 0xD3, 0xD4, 0xD5, 0xD6, 0xD7, 0xD8, 0xD9, 0xDA] ++
  [0xE2, 0xE3, 0xE4, 0xE5, 0xE6, 0xE7, 0xE8, 0xE9, 0xEA, 0xF2, 0xF3, 0xF4, 0xF5, 0xF6, 0xF7, 0xF8] ++
  [0xF9, 0xFA]

/-- The populated entries of a table, by symbol (R91). -/
def tableEntries (t : Table) : List (Nat × Group) :=
  match t with
  | .ldc => assignCodes ldcBits 1 0 ldcVals
  | .cdc => assignCodes cdcBits 1 0 cdcVals
  | .lac => assignCodes lacBits 1 0 lacVals
  | .cac => assignCodes cacBits 1 0 cacVals

/-- The entry of a symbol in a list of entries. -/
def findEntry : List (Nat × Group) → Nat → Option Group
  | [], _ => none
  | (v, g) :: es, s => if s = v then some g else findEntry es s

/-- `HT[t][s]`; `none` is `UNPOP` (R22). -/
def huffTable (t : Table) (s : Nat) : Option Group := findEntry (tableEntries t) s

/-- `ZZT[8*row + col]`, one row of the 8×8 grid a line (R96). -/
def zigzagTable : List (BitVec 6) :=
  [0#6, 1#6, 5#6, 6#6, 14#6, 15#6, 27#6, 28#6] ++
  [2#6, 4#6, 7#6, 13#6, 16#6, 26#6, 29#6, 42#6] ++
  [3#6, 8#6, 12#6, 17#6, 25#6, 30#6, 41#6, 43#6] ++
  [9#6, 11#6, 18#6, 24#6, 31#6, 40#6, 44#6, 53#6] ++
  [10#6, 19#6, 23#6, 32#6, 39#6, 45#6, 52#6, 54#6] ++
  [20#6, 22#6, 33#6, 38#6, 46#6, 51#6, 55#6, 60#6] ++
  [21#6, 34#6, 37#6, 47#6, 50#6, 56#6, 59#6, 61#6] ++
  [35#6, 36#6, 48#6, 49#6, 57#6, 58#6, 62#6, 63#6]

end Sys2Proof.Machine
end

