-- ==== Sys2Proof/Machine/Huffman.lean ====
section
/-! DEFINITION. The Huffman symbol encoder and the table commands HUFF, ENC, GRAYCH and ZZ
(spec/42_huffman.md R76 to R80). -/

namespace Sys2Proof.Machine

/-- `Lookup(t, s)` (R76). -/
def lookup (t : Table) (sym : Nat) : Except Cause Group :=
  match huffTable t sym with
  | none => .error .symUnpop
  | some g => .ok g

/-- `HUFF T, SYM` and `HUFF.P T, SYM` (R77). -/
def execHuff (p : Bool) (t : Table) (sym : BitVec 8) (s : State) : Host.Outcome State Fault Refusal :=
  finish (.huff p t sym) s <|
    match lookup t sym.toNat with
    | .error c => .error c
    | .ok g => (pushIf p s [g]).map fun t => t.withRes g

/-- The symbol of a run and a category, where one exists (R78). -/
def encSymbol (run : BitVec 4) (cat : Nat) : Except Cause Nat :=
  if 15 < cat then .error .symUnpop else .ok (run.toNat * 16 + cat)

/-- The groups `ENC` pushes: the code, and the suffix unless it is empty (R78). -/
def encGroups (code suffix : Group) : List Group :=
  if suffix.len = 0#5 then [code] else [code, suffix]

/-- `ENC T, RUN, IMM` (R78). -/
def execEnc (t : Table) (run : BitVec 4) (imm : BitVec 16) (s : State) :
    Host.Outcome State Fault Refusal :=
  finish (.enc t run imm) s <|
    if magOutOfRange s.build (immValue imm) then .error .magRange
    else
      match encSymbol run (category (immValue imm)) with
      | .error c => .error c
      | .ok sym =>
        match lookup t sym with
        | .error c => .error c
        | .ok code =>
          (pushAll s (encGroups code (magEncode (immValue imm)))).map
            fun t => t.withRes (magEncode (immValue imm))

/-- `HT[1][0], HT[3][0], HT[1][0], HT[3][0]`: the placeholder codes, in the fixed order (R79). -/
def grayGroups : List Group :=
  [Table.cdc, Table.cac, Table.cdc, Table.cac].map fun t => (huffTable t 0).getD ⟨0#16, 0#5⟩

/-- `GRAYCH` (R79). -/
def execGraych (s : State) : Host.Outcome State Fault Refusal :=
  finish .graych s (pushAll s grayGroups)

/-- `ZZT[IDX]` (R80, R96). -/
def zigzag (idx : BitVec 6) : BitVec 6 := zigzagTable.getD idx.toNat 0#6

/-- `ZZ IDX` (R80). -/
def execZz (idx : BitVec 6) (s : State) : Host.Outcome State Fault Refusal :=
  finish (.zz idx) s (.ok (s.withZres (zigzag idx)))

end Sys2Proof.Machine
end

