-- ==== Sys2Proof/Machine/Dispatch.lean ====
section
/-! DEFINITION. One arm per command (spec/30_encoding.md R58). -/

namespace Sys2Proof.Machine

def exec (i : Instr) (s : State) : Host.Outcome State Fault Refusal :=
  match i with
  | .nop => Sys2Proof.Machine.execNop s
  | .pushi len val => Sys2Proof.Machine.execPushi len val s
  | .pushr => Sys2Proof.Machine.execPushr s
  | .clear => Sys2Proof.Machine.execClear s
  | .mag p imm => Sys2Proof.Machine.execMag p imm s
  | .huff p t sym => Sys2Proof.Machine.execHuff p t sym s
  | .enc t run imm => Sys2Proof.Machine.execEnc t run imm s
  | .zz idx => Sys2Proof.Machine.execZz idx s
  | .graych => Sys2Proof.Machine.execGraych s
  | .cvtc => Sys2Proof.Machine.execCvtc s
  | .cvtg => Sys2Proof.Machine.execCvtg s

end Sys2Proof.Machine
end

