-- ==== Sys2Proof/Machine/Bus.lean ====
section
/-! DEFINITION. The register window (spec/10_state.md R23 to R37): the register map, reads and writes, the issue of
a command by a write to CMD (R26, R59, R100), and what each HOST operation does. -/

namespace Sys2Proof.Machine

/-- The registers of R23. -/
inductive Reg where
  | cmd
  | status
  | fcause
  | fcmd
  | sbSize
  | sbCap
  | sbRsv
  | res
  | zres
  | magCfg
  | srst
  | cvSrcR
  | cvSrcG
  | cvSrcB
  | cvStride
  | cvH
  | cvW
  | cvN
  | cvDstY
  | cvDstU
  | cvDstV
  | sbData (i : Nat)
  deriving DecidableEq, Repr

/-- The offset of a register in the window (R23). -/
def regOffset (r : Reg) : Nat :=
  match r with
  | .cmd => 0x000
  | .status => 0x004
  | .fcause => 0x008
  | .fcmd => 0x00C
  | .sbSize => 0x010
  | .sbCap => 0x014
  | .sbRsv => 0x018
  | .res => 0x01C
  | .zres => 0x020
  | .magCfg => 0x024
  | .srst => 0x028
  | .cvSrcR => 0x040
  | .cvSrcG => 0x044
  | .cvSrcB => 0x048
  | .cvStride => 0x04C
  | .cvH => 0x050
  | .cvW => 0x054
  | .cvN => 0x058
  | .cvDstY => 0x05C
  | .cvDstU => 0x060
  | .cvDstV => 0x064
  | .sbData i => 0x1000 + 4 * i

/-- The registers below the buffer's read window. -/
def fixedRegs : List Reg :=
  [.cmd, .status, .fcause, .fcmd, .sbSize, .sbCap, .sbRsv, .res, .zres, .magCfg, .srst] ++
  [.cvSrcR, .cvSrcG, .cvSrcB, .cvStride, .cvH, .cvW, .cvN, .cvDstY, .cvDstU, .cvDstV]

/-- The register at a 4-byte-aligned offset; `none` is an unmapped offset (R23, R25, R37). -/
def regAt (b : Build) (offset : Nat) : Option Reg :=
  if 0x1000 ≤ offset then
    if (offset - 0x1000) / 4 < b.cap.toNat then some (.sbData ((offset - 0x1000) / 4)) else none
  else fixedRegs.find? fun r => regOffset r == offset

/-- `MAG_CFG.STRATEGY` (R34). -/
def strategyBits (m : Strategy) : BitVec 2 :=
  match m with
  | .scan => 0#2
  | .catTab => 1#2
  | .fullTab => 2#2

/-- The value a read returns, for every register whose value the spec gives (R23). -/
def regValue (s : State) (r : Reg) : Word :=
  match r with
  | .cmd => 0#32
  | .status => statusWord s
  | .fcause => s.fcause.setWidth 32
  | .fcmd => s.fcmd
  | .sbSize => s.size.setWidth 32
  | .sbCap => s.build.cap.setWidth 32
  | .sbRsv => s.rsv.setWidth 32
  | .res => packGroup s.res
  | .zres => s.zres.setWidth 32
  | .magCfg => place s.build.range 16 ||| place (strategyBits s.build.strategy) 0
  | .srst => 0#32
  | .cvSrcR => s.cvSrcR
  | .cvSrcG => s.cvSrcG
  | .cvSrcB => s.cvSrcB
  | .cvStride => s.cvStride
  | .cvH => s.cvH
  | .cvW => s.cvW
  | .cvN => s.cvN.setWidth 32
  | .cvDstY => s.cvDstY
  | .cvDstU => s.cvDstU
  | .cvDstV => s.cvDstV
  | .sbData i => packGroup (entry s i)

/-- An entry outside the buffer's contents reads as an unspecified value on each read (R21, R37): a
free value in the fields, zero in the bits R23 marks zero (log entry 5). -/
def readStale (s : State) : State :=
  (s.withReply (packGroup (Config.freeGroup s.draws))).withDraws (s.draws + 1)

/-- A read of the register (R23, R25): HOST gets the value; no other state changes. -/
def readReg (s : State) (r : Option Reg) : State :=
  match r with
  | none => s.withReply 0#32
  | some (.sbData i) => if i < s.size.toNat then s.withReply (regValue s (.sbData i)) else readStale s
  | some r => s.withReply (regValue s r)

/-- A write of `w` to `CMD` (R26, R59, R100): discarded while halted; an illegal word raises `ILLEGAL`;
any other executes, completely. -/
def issue (w : Word) (s : State) : Host.Outcome State Fault Refusal :=
  if s.halt then .next s
  else
    match decode w with
    | .error _ => .next (raise s .illegal w)
    | .ok i => exec i s

/-- The register writes that only store (R31, R36), and those without effect (R25). -/
def storeReg (s : State) (r : Reg) (w : Word) : State :=
  match r with
  | .cmd => s
  | .status => s
  | .fcause => s
  | .fcmd => s
  | .sbSize => s
  | .sbCap => s
  | .sbRsv => { s with rsv := w.extractLsb' 0 16 }
  | .res => s
  | .zres => s
  | .magCfg => s
  | .srst => s
  | .cvSrcR => { s with cvSrcR := w }
  | .cvSrcG => { s with cvSrcG := w }
  | .cvSrcB => { s with cvSrcB := w }
  | .cvStride => { s with cvStride := w }
  | .cvH => { s with cvH := w }
  | .cvW => { s with cvW := w }
  | .cvN => { s with cvN := w.extractLsb' 0 5 }
  | .cvDstY => { s with cvDstY := w }
  | .cvDstU => { s with cvDstU := w }
  | .cvDstV => { s with cvDstV := w }
  | .sbData _ => s

/-- A write of `w` to the register: `CMD` issues a command (R26), `SRST` with bit 0 set resets (R35),
the others store or ignore. -/
def writeReg (s : State) (r : Option Reg) (w : Word) : Host.Outcome State Fault Refusal :=
  match r with
  | none => .next s
  | some .cmd => issue w s
  | some .srst => if w.getLsbD 0 then .next (resetBlock s) else .next s
  | some r => .next (storeReg s r w)

/-- The window offset a HOST access names (R23); `none` lies outside the window. -/
def windowOffset (b : Build) (target : HostAddr) : Option Nat :=
  match target with
  | .reg offset => if offset < 0x2000 then some offset else none
  | .bus address =>
    if b.blkBase ≤ address ∧ address < b.blkBase + 0x2000 then some (address - b.blkBase) else none

/-- HOST reaches the window only with 32-bit accesses at 4-byte-aligned offsets (R24). -/
def accessDefined (offset width : Nat) : Bool := decide (width = 4) && decide (offset % 4 = 0)

/-- One HOST operation (R7, R24, R26, R35, R41, R111). DESIGN CHOICE, unsafe (log entry 21): a command is
one operation, so the reset input acts between whole commands and never cuts one short. R111 does not say
what becomes of a command that is running when the platform asserts it. -/
def hostOp (op : HostOp) (s : State) : Host.Outcome State Fault Refusal :=
  match op with
  | .wr target width data =>
    match windowOffset s.build target with
    | none => .refused .outsideWindow
    | some offset =>
      if accessDefined offset width then writeReg s (regAt s.build offset) data
      else .refused .hostAccess
  | .rd target width =>
    match windowOffset s.build target with
    | none => .refused .outsideWindow
    | some offset =>
      if accessDefined offset width then .next (readReg s (regAt s.build offset))
      else .refused .hostAccess
  | .memWr address data =>
    if address < 2 ^ 32 then .next (s.withMem (s.mem.write address data)) else .fault .noSuchAddress
  | .memRd address =>
    if address < 2 ^ 32 then .next (s.withReply ((s.mem.read address).setWidth 32))
    else .fault .noSuchAddress
  | .resetInput => .next (resetBlock s)

/-- One step: the next HOST operation, completely; with none pending the block is idle and keeps all
its state (R7, R49, R110; log entry 1). -/
def hostStep (s : State) : Host.Outcome State Fault Refusal :=
  match s.pending with
  | [] => .next s
  | op :: ops => hostOp op (s.withPending ops)

end Sys2Proof.Machine
end

