-- ==== Sys2Proof/Machine/Step.lean ====
section
/-! DEFINITION. The step, and how HOST hands the machine its next command (log entry 1). -/

namespace Sys2Proof.Machine

/-- One step of the machine: `hostStep`. -/
def step (s : State) : Host.Outcome State Fault Refusal := hostStep s

/-- HOST's next operation is a write of this command word to `CMD`, at window offset 0x000 (R17, R23,
R26). A command is one 32-bit word (R55). -/
def State.withFetchWord (s : State) (nbits w : Nat) : State :=
  { s with pending := .wr (.reg 0x000) 4 (BitVec.ofNat 32 (w % 2 ^ nbits)) :: s.pending }

end Sys2Proof.Machine
end

