-- ==== Sys2Proof/Machine/Pseudo.lean ====
section
/-! DEFINITION. HOST operations in the syntax of R61, and the pseudo-instructions of R62 with their expansions
(spec/30_encoding.md). -/

namespace Sys2Proof.Machine

/-- `wr REG, X` (R61). -/
def wrReg (r : Reg) (x : Word) : HostOp := .wr (.reg (regOffset r)) 4 x

/-- `rd REG -> name` (R61). -/
def rdReg (r : Reg) : HostOp := .rd (.reg (regOffset r)) 4

/-- A command mnemonic stands for `wr CMD, w` (R61). -/
def issueOp (i : Instr) : HostOp := wrReg .cmd (encode i)

/-- `encdc T, IMM` (R62). -/
def encdcOps (t : Table) (imm : BitVec 16) : List HostOp := [issueOp (.enc t 0#4 imm)]

/-- `eob T` (R62). -/
def eobOps (t : Table) : List HostOp := [issueOp (.enc t 0#4 0#16)]

/-- `zrl T` (R62). -/
def zrlOps (t : Table) : List HostOp := [issueOp (.enc t 15#4 0#16)]

/-- `full? RSV -> f` (R62); `f` is bit 0 of the reply. -/
def fullOps (rsv : Word) : List HostOp := [wrReg .sbRsv rsv, rdReg .status]

/-- `drain -> L` (R62), whole, where its first operation returns `n`. The list's replies are `n` and then
`L[0 .. n-1]`. -/
def drainOps (n : Nat) : List HostOp :=
  rdReg .sbSize :: (List.range n).map (fun i => rdReg (.sbData i)) ++ [issueOp .clear]

/-- `drain -> L` (R62) from this state: `n` is what the read of `SB_SIZE` returns in it. -/
def drain (s : State) : List HostOp := drainOps (regValue s .sbSize).toNat

/-- `srst` (R62). -/
def srstOps : List HostOp := [wrReg .srst 1#32]

/-- `cvset SR, SG, SB, ST, H, W, N, DY, DU, DV` (R62). -/
def cvsetOps (sr sg sb st h w n dy du dv : Word) : List HostOp :=
  [wrReg .cvSrcR sr, wrReg .cvSrcG sg, wrReg .cvSrcB sb, wrReg .cvStride st, wrReg .cvH h] ++
  [wrReg .cvW w, wrReg .cvN n, wrReg .cvDstY dy, wrReg .cvDstU du, wrReg .cvDstV dv]

/-- HOST performs these operations one after the other, each completely (R49, R61). -/
def runHost : List HostOp → State → Host.Outcome State Fault Refusal
  | [], s => .next s
  | op :: ops, s =>
    match hostOp op s with
    | .next t => runHost ops t
    | .fault f => .fault f
    | .refused r => .refused r

end Sys2Proof.Machine
end

