-- ==== Sys2Proof/Safety.lean ====
section
/-! DEFINITION. The invariants of the machine, and what counts as a safe run (spec/10_state.md R19, R20, R28, R29;
spec/60_exceptions.md R97, R99). -/

namespace Sys2Proof.Machine

/-- The staging buffer: `C` entries, `SIZE ≤ C` (R18, R19). -/
abbrev State.bufferInv (s : State) : Prop :=
  s.sb.length = s.build.cap.toNat ∧ s.size.toNat ≤ s.build.cap.toNat

/-- Every entry of the contents is canonical, and so is `RES` (R20). -/
abbrev State.canonicalInv (s : State) : Prop :=
  (∀ g ∈ contents s, g.canonical) ∧ s.res.canonical

/-- `FCAUSE` and `FCMD` are 0 unless the block is halted, and then `FCAUSE` is a code in use (R28, R29,
R97). -/
abbrev State.faultInv (s : State) : Prop :=
  if s.halt then 1 ≤ s.fcause.toNat ∧ s.fcause.toNat ≤ 8 else s.fcause = 0#4 ∧ s.fcmd = 0#32

/-- Data memory is in its canonical form and lists no address outside the data space (R41). -/
abbrev State.memInv (s : State) : Prop :=
  s.mem.wf ∧ ∀ c ∈ s.mem, c.1 < 2 ^ 32

/-- Everything that holds in every reachable state. -/
abbrev State.inv (s : State) : Prop :=
  s.build.legal ∧ s.bufferInv ∧ s.canonicalInv ∧ s.faultInv ∧ s.memInv

/-- A run is safe while no command has faulted (R99, R100). -/
abbrev State.safe (s : State) : Prop := s.halt = false

end Sys2Proof.Machine
end

