-- ==== Sys2Proof/Certificates/Slice0/Obligations.lean ====
section
/-! DEFINITION. The statements for the provers. Each says which rule of spec/ it formalises; none speaks of a program. -/

open Sys2Proof Sys2Proof.Machine

/-! ### Words the statements share, each written from the spec -/

/-- The must-be-zero masks of R58, opcode 0x0 to 0xA. -/
def Sys2Proof.Machine.specMasks : List Word :=
  [0x0FFFFFFF#32, 0x0FE00000#32, 0x0FFFFFFF#32, 0x0FFFFFFF#32, 0x0FFE0000#32, 0x0FFEFC00#32] ++
  [0x0C0F0000#32, 0x0FFFFFC0#32, 0x0FFFFFFF#32, 0x0FFFFFFF#32, 0x0FFFFFFF#32]

/-- R60: a reserved opcode, a must-be-zero bit, `PUSHI` with `LEN > 16` or `VAL ≥ 2^LEN`. -/
def Sys2Proof.Machine.IllegalWord (w : Word) : Prop :=
  0xB ≤ w.toNat / 2 ^ 28 ∨ w &&& specMasks.getD (w.toNat / 2 ^ 28) 0#32 ≠ 0#32 ∨
    (w.toNat / 2 ^ 28 = 1 ∧
      (16 < w.toNat / 2 ^ 16 % 32 ∨ 2 ^ (w.toNat / 2 ^ 16 % 32) ≤ w.toNat % 2 ^ 16))

/-- A fault with this code on this state: `HALT`, `FCAUSE`, `FCMD`, and nothing else (R99). -/
abbrev Sys2Proof.Machine.faulted (s : State) (code : BitVec 4) (i : Instr) : State :=
  { s with halt := true, fcause := code, fcmd := encode i }

/-- R72: the strategy accepts the value. -/
abbrev Sys2Proof.Machine.MagAccepts (s : State) (v : Int) : Prop :=
  s.build.strategy = .scan ∨ v.natAbs < s.build.range.toNat

/-- R72: `MagCheck` raises `MAG_RANGE`. -/
abbrev Sys2Proof.Machine.MagRejects (s : State) (v : Int) : Prop :=
  (s.build.strategy = .catTab ∨ s.build.strategy = .fullTab) ∧ s.build.range.toNat ≤ v.natAbs

/-- `R87`, first group of checks: the side and the valid rows and columns. -/
abbrev Sys2Proof.Machine.CvParamOk (s : State) : Prop :=
  1 ≤ s.cvN.toNat ∧ s.cvN.toNat ≤ 16 ∧ s.cvH ≠ 0#32 ∧ s.cvW ≠ 0#32

/-- R87: every destination base is a multiple of 4. -/
abbrev Sys2Proof.Machine.CvAlignOk (dsts : List Word) : Prop := ∀ d ∈ dsts, d.toNat % 4 = 0

/-- R87: no source or destination range passes 0xFFFFFFFF. -/
abbrev Sys2Proof.Machine.CvAddrOk (s : State) (srcs dsts : List Word) : Prop :=
  (∀ a ∈ srcs, a.toNat + (min s.cvN.toNat s.cvH.toNat - 1) * s.cvStride.toNat +
      (min s.cvN.toNat s.cvW.toNat - 1) ≤ 0xFFFFFFFF) ∧
    ∀ d ∈ dsts, d.toNat + 4 * s.cvN.toNat * s.cvN.toNat - 1 ≤ 0xFFFFFFFF

/-- R87: every check passes. -/
abbrev Sys2Proof.Machine.CvLegal (s : State) (srcs dsts : List Word) : Prop :=
  CvParamOk s ∧ CvAlignOk dsts ∧ CvAddrOk s srcs dsts

/-- The address of `Sample(S, i, j)` (R85). -/
abbrev Sys2Proof.Machine.pixelAddr (s : State) (src : Word) (i j : Nat) : Nat :=
  src.toNat + min i (s.cvH.toNat - 1) * s.cvStride.toNat + min j (s.cvW.toNat - 1)

/-- R48: `BUS_OK` holds for every read of the command. -/
abbrev Sys2Proof.Machine.ReadsAllowed (s : State) (srcs : List Word) : Prop :=
  ∀ src ∈ srcs, ∀ i < s.cvN.toNat, ∀ j < s.cvN.toNat,
    busOk s.build (pixelAddr s src i j) 1 .read = true

/-- R48: `BUS_OK` holds for every write of the command; element `(i, j)` is at `D + 4(N·i + j)` (R86). -/
abbrev Sys2Proof.Machine.WritesAllowed (s : State) (dsts : List Word) : Prop :=
  ∀ dst ∈ dsts, ∀ i < s.cvN.toNat, ∀ j < s.cvN.toNat,
    busOk s.build (dst.toNat + 4 * (s.cvN.toNat * i + j)) 4 .write = true

/-- The byte at `a` belongs to the output block at `dst` (R86). -/
abbrev Sys2Proof.Machine.InBlock (s : State) (dst : Word) (a : Nat) : Prop :=
  dst.toNat ≤ a ∧ a < dst.toNat + 4 * s.cvN.toNat * s.cvN.toNat

/-- Byte `a` of the output block at `dst` whose element `(i, j)` is `f i j`: row-major, little-endian
(R43, R86). -/
abbrev Sys2Proof.Machine.blockByte (s : State) (dst : Word) (f : Nat → Nat → Word) (a : Nat) : Byte :=
  (f ((a - dst.toNat) / 4 / s.cvN.toNat) ((a - dst.toNat) / 4 % s.cvN.toNat)).extractLsb'
    (8 * ((a - dst.toNat) % 4)) 8

/-- The most groups a command pushes (R113). -/
def Sys2Proof.Machine.mostGroups (i : Instr) : Nat :=
  match i with
  | .nop => 0
  | .pushi _ _ => 1
  | .pushr => 1
  | .clear => 0
  | .mag p _ => if p then 1 else 0
  | .huff p _ _ => if p then 1 else 0
  | .enc _ _ _ => 2
  | .zz _ => 0
  | .graych => 4
  | .cvtc => 0
  | .cvtg => 0

/-- The codes of the faults a command may raise beside `ILLEGAL` (R97, R102). -/
def Sys2Proof.Machine.faultCodes (i : Instr) : List (BitVec 4) :=
  match i with
  | .nop => []
  | .pushi _ _ => [2#4]
  | .pushr => [2#4]
  | .clear => []
  | .mag p _ => if p then [3#4, 2#4] else [3#4]
  | .huff p _ _ => if p then [4#4, 2#4] else [4#4]
  | .enc _ _ _ => [3#4, 4#4, 2#4]
  | .zz _ => []
  | .graych => [2#4]
  | .cvtc => [5#4, 7#4, 6#4, 8#4]
  | .cvtg => [5#4, 7#4, 6#4, 8#4]

/-- A list of commands, each issued by a `CMD` write, in order (R49). -/
def Sys2Proof.Machine.issueAll : List Instr → State → Host.Outcome State Fault Refusal
  | [], s => .next s
  | i :: is, s =>
    match issue (encode i) s with
    | .next t => issueAll is t
    | .fault r => .fault r
    | .refused r => .refused r

/-- HOST's next operation writes `SRST` with bit 0 set, or is the reset input (R35, R111). -/
def Sys2Proof.Machine.ResetNext (s : State) : Prop :=
  ∃ op rest, s.pending = op :: rest ∧
    (op = .resetInput ∨
      ∃ target w, op = .wr target 4 w ∧ windowOffset s.build target = some 0x028 ∧
        w.getLsbD 0 = true)

/-- The values of R40, with `SB[*]` unspecified: nothing is said of the entries but their number. -/
abbrev Sys2Proof.Machine.HasResetValues (t : State) : Prop :=
  t.size = 0#11 ∧ t.sb.length = t.build.cap.toNat ∧ t.rsv.toNat = t.build.cap.toNat / 2 ∧
    t.halt = false ∧ t.fcause = 0#4 ∧ t.fcmd = 0#32 ∧ t.res = ⟨0#16, 0#5⟩ ∧ t.zres = 0#6 ∧
    t.cvSrcR = 0#32 ∧ t.cvSrcG = 0#32 ∧ t.cvSrcB = 0#32 ∧ t.cvStride = 0#32 ∧ t.cvH = 0#32 ∧
    t.cvW = 0#32 ∧ t.cvN = 0#5 ∧ t.cvDstY = 0#32 ∧ t.cvDstU = 0#32 ∧ t.cvDstV = 0#32

/-- A finite binary32 encoding. -/
abbrev Sys2Proof.Machine.F32Finite (x : Word) : Prop := x.toNat % 2 ^ 31 < 0x7F800000

/-- `z` is a nearest binary32 value to the rational `n / d` (in units of `2^-149`), and on a tie its
significand is even (R12). -/
def Sys2Proof.Machine.NearestEven (z : Word) (n : Int) (d : Nat) : Prop :=
  ∀ y : Word, F32Finite y →
    (n - f32Units z * d).natAbs ≤ (n - f32Units y * d).natAbs ∧
      ((n - f32Units z * d).natAbs = (n - f32Units y * d).natAbs → f32Units y ≠ f32Units z →
        z.getLsbD 0 = false)

/-- The map of R23 below the buffer's window: each register's offset and what it reads as. -/
def Sys2Proof.Machine.specReads (s : State) : List (Nat × Word) :=
  [(0x000, 0#32),
   (0x004, BitVec.ofNat 32 ((if s.build.cap.toNat ≤ s.size.toNat + s.rsv.toNat then 1 else 0) +
      (if s.halt then 2 else 0))),
   (0x008, BitVec.ofNat 32 s.fcause.toNat), (0x00C, s.fcmd), (0x010, BitVec.ofNat 32 s.size.toNat),
   (0x014, BitVec.ofNat 32 s.build.cap.toNat), (0x018, BitVec.ofNat 32 s.rsv.toNat),
   (0x01C, BitVec.ofNat 32 (s.res.len.toNat * 2 ^ 16 + s.res.value.toNat)),
   (0x020, BitVec.ofNat 32 s.zres.toNat)] ++
  [(0x024, BitVec.ofNat 32 (s.build.range.toNat * 2 ^ 16 +
      (match s.build.strategy with | .scan => 0 | .catTab => 1 | .fullTab => 2))),
   (0x028, 0#32), (0x040, s.cvSrcR), (0x044, s.cvSrcG), (0x048, s.cvSrcB), (0x04C, s.cvStride),
   (0x050, s.cvH), (0x054, s.cvW), (0x058, BitVec.ofNat 32 s.cvN.toNat), (0x05C, s.cvDstY)] ++
  [(0x060, s.cvDstU), (0x064, s.cvDstV)]

/-- The read-write registers of R23 and the state after a write of `w` to each (R31, R36). -/
def Sys2Proof.Machine.specWrites (s : State) (w : Word) : List (Nat × State) :=
  [(0x018, { s with rsv := BitVec.ofNat 16 w.toNat }), (0x040, { s with cvSrcR := w }),
   (0x044, { s with cvSrcG := w }), (0x048, { s with cvSrcB := w }),
   (0x04C, { s with cvStride := w }), (0x050, { s with cvH := w })] ++
  [(0x054, { s with cvW := w }), (0x058, { s with cvN := BitVec.ofNat 5 w.toNat }),
   (0x05C, { s with cvDstY := w }), (0x060, { s with cvDstU := w }), (0x064, { s with cvDstV := w })]

/-- The offsets of the read-only registers below the buffer's window (R23). -/
def Sys2Proof.Machine.readOnlyOffsets : List Nat :=
  [0x004, 0x008, 0x00C, 0x010, 0x014, 0x01C, 0x020, 0x024]

/-- The offsets of the map of R23 below the buffer's window. -/
def Sys2Proof.Machine.mappedOffsets : List Nat :=
  [0x000, 0x004, 0x008, 0x00C, 0x010, 0x014, 0x018, 0x01C, 0x020, 0x024, 0x028] ++
  [0x040, 0x044, 0x048, 0x04C, 0x050, 0x054, 0x058, 0x05C, 0x060, 0x064]

/-- An aligned offset of the window that no register has (R25, R37). -/
def Sys2Proof.Machine.Unmapped (b : Build) (offset : Nat) : Prop :=
  offset < 0x2000 ∧ offset % 4 = 0 ∧ offset ∉ mappedOffsets ∧
    ¬ (0x1000 ≤ offset ∧ offset < 0x1000 + 4 * b.cap.toNat)

/-- The fields of R23 marked zero, as masks by offset. -/
def Sys2Proof.Machine.zeroFields : List (Nat × Word) :=
  [(0x004, 0xFFFFFFFC#32), (0x008, 0xFFFFFFF0#32), (0x010, 0xFFFFF800#32), (0x014, 0xFFFFF800#32),
   (0x018, 0xFFFF0000#32), (0x01C, 0xFFE00000#32), (0x020, 0xFFFFFFC0#32), (0x024, 0x0000FFFC#32)] ++
  [(0x058, 0xFFFFFFE0#32)]

/-- The printed codes of R94 as (length, code): row RUN, columns c = 1 to 10. -/
def Sys2Proof.Machine.printedLac : List (List (Nat × Nat)) :=
  [[(2, 0x0), (2, 0x1), (3, 0x4), (4, 0xB), (5, 0x1A), (7, 0x78), (8, 0xF8), (10, 0x3F6), (16, 0xFF82), (16, 0xFF83)]] ++
  [[(4, 0xC), (5, 0x1B), (7, 0x79), (9, 0x1F6), (11, 0x7F6), (16, 0xFF84), (16, 0xFF85), (16, 0xFF86), (16, 0xFF87), (16, 0xFF88)]] ++
  [[(5, 0x1C), (8, 0xF9), (10, 0x3F7), (12, 0xFF4), (16, 0xFF89), (16, 0xFF8A), (16, 0xFF8B), (16, 0xFF8C), (16, 0xFF8D), (16, 0xFF8E)]] ++
  [[(6, 0x3A), (9, 0x1F7), (12, 0xFF5), (16, 0xFF8F), (16, 0xFF90), (16, 0xFF91), (16, 0xFF92), (16, 0xFF93), (16, 0xFF94), (16, 0xFF95)]] ++
  [[(6, 0x3B), (10, 0x3F8), (16, 0xFF96), (16, 0xFF97), (16, 0xFF98), (16, 0xFF99), (16, 0xFF9A), (16, 0xFF9B), (16, 0xFF9C), (16, 0xFF9D)]] ++
  [[(7, 0x7A), (11, 0x7F7), (16, 0xFF9E), (16, 0xFF9F), (16, 0xFFA0), (16, 0xFFA1), (16, 0xFFA2), (16, 0xFFA3), (16, 0xFFA4), (16, 0xFFA5)]] ++
  [[(7, 0x7B), (12, 0xFF6), (16, 0xFFA6), (16, 0xFFA7), (16, 0xFFA8), (16, 0xFFA9), (16, 0xFFAA), (16, 0xFFAB), (16, 0xFFAC), (16, 0xFFAD)]] ++
  [[(8, 0xFA), (12, 0xFF7), (16, 0xFFAE), (16, 0xFFAF), (16, 0xFFB0), (16, 0xFFB1), (16, 0xFFB2), (16, 0xFFB3), (16, 0xFFB4), (16, 0xFFB5)]] ++
  [[(9, 0x1F8), (15, 0x7FC0), (16, 0xFFB6), (16, 0xFFB7), (16, 0xFFB8), (16, 0xFFB9), (16, 0xFFBA), (16, 0xFFBB), (16, 0xFFBC), (16, 0xFFBD)]] ++
  [[(9, 0x1F9), (16, 0xFFBE), (16, 0xFFBF), (16, 0xFFC0), (16, 0xFFC1), (16, 0xFFC2), (16, 0xFFC3), (16, 0xFFC4), (16, 0xFFC5), (16, 0xFFC6)]] ++
  [[(9, 0x1FA), (16, 0xFFC7), (16, 0xFFC8), (16, 0xFFC9), (16, 0xFFCA), (16, 0xFFCB), (16, 0xFFCC), (16, 0xFFCD), (16, 0xFFCE), (16, 0xFFCF)]] ++
  [[(10, 0x3F9), (16, 0xFFD0), (16, 0xFFD1), (16, 0xFFD2), (16, 0xFFD3), (16, 0xFFD4), (16, 0xFFD5), (16, 0xFFD6), (16, 0xFFD7), (16, 0xFFD8)]] ++
  [[(10, 0x3FA), (16, 0xFFD9), (16, 0xFFDA), (16, 0xFFDB), (16, 0xFFDC), (16, 0xFFDD), (16, 0xFFDE), (16, 0xFFDF), (16, 0xFFE0), (16, 0xFFE1)]] ++
  [[(11, 0x7F8), (16, 0xFFE2), (16, 0xFFE3), (16, 0xFFE4), (16, 0xFFE5), (16, 0xFFE6), (16, 0xFFE7), (16, 0xFFE8), (16, 0xFFE9), (16, 0xFFEA)]] ++
  [[(16, 0xFFEB), (16, 0xFFEC), (16, 0xFFED), (16, 0xFFEE), (16, 0xFFEF), (16, 0xFFF0), (16, 0xFFF1), (16, 0xFFF2), (16, 0xFFF3), (16, 0xFFF4)]] ++
  [[(16, 0xFFF5), (16, 0xFFF6), (16, 0xFFF7), (16, 0xFFF8), (16, 0xFFF9), (16, 0xFFFA), (16, 0xFFFB), (16, 0xFFFC), (16, 0xFFFD), (16, 0xFFFE)]]

/-- The printed codes of R95 as (length, code): row RUN, columns c = 1 to 10. -/
def Sys2Proof.Machine.printedCac : List (List (Nat × Nat)) :=
  [[(2, 0x1), (3, 0x4), (4, 0xA), (5, 0x18), (5, 0x19), (6, 0x38), (7, 0x78), (9, 0x1F4), (10, 0x3F6), (12, 0xFF4)]] ++
  [[(4, 0xB), (6, 0x39), (8, 0xF6), (9, 0x1F5), (11, 0x7F6), (12, 0xFF5), (16, 0xFF88), (16, 0xFF89), (16, 0xFF8A), (16, 0xFF8B)]] ++
  [[(5, 0x1A), (8, 0xF7), (10, 0x3F7), (12, 0xFF6), (15, 0x7FC2), (16, 0xFF8C), (16, 0xFF8D), (16, 0xFF8E), (16, 0xFF8F), (16, 0xFF90)]] ++
  [[(5, 0x1B), (8, 0xF8), (10, 0x3F8), (12, 0xFF7), (16, 0xFF91), (16, 0xFF92), (16, 0xFF93), (16, 0xFF94), (16, 0xFF95), (16, 0xFF96)]] ++
  [[(6, 0x3A), (9, 0x1F6), (16, 0xFF97), (16, 0xFF98), (16, 0xFF99), (16, 0xFF9A), (16, 0xFF9B), (16, 0xFF9C), (16, 0xFF9D), (16, 0xFF9E)]] ++
  [[(6, 0x3B), (10, 0x3F9), (16, 0xFF9F), (16, 0xFFA0), (16, 0xFFA1), (16, 0xFFA2), (16, 0xFFA3), (16, 0xFFA4), (16, 0xFFA5), (16, 0xFFA6)]] ++
  [[(7, 0x79), (11, 0x7F7), (16, 0xFFA7), (16, 0xFFA8), (16, 0xFFA9), (16, 0xFFAA), (16, 0xFFAB), (16, 0xFFAC), (16, 0xFFAD), (16, 0xFFAE)]] ++
  [[(7, 0x7A), (11, 0x7F8), (16, 0xFFAF), (16, 0xFFB0), (16, 0xFFB1), (16, 0xFFB2), (16, 0xFFB3), (16, 0xFFB4), (16, 0xFFB5), (16, 0xFFB6)]] ++
  [[(8, 0xF9), (16, 0xFFB7), (16, 0xFFB8), (16, 0xFFB9), (16, 0xFFBA), (16, 0xFFBB), (16, 0xFFBC), (16, 0xFFBD), (16, 0xFFBE), (16, 0xFFBF)]] ++
  [[(9, 0x1F7), (16, 0xFFC0), (16, 0xFFC1), (16, 0xFFC2), (16, 0xFFC3), (16, 0xFFC4), (16, 0xFFC5), (16, 0xFFC6), (16, 0xFFC7), (16, 0xFFC8)]] ++
  [[(9, 0x1F8), (16, 0xFFC9), (16, 0xFFCA), (16, 0xFFCB), (16, 0xFFCC), (16, 0xFFCD), (16, 0xFFCE), (16, 0xFFCF), (16, 0xFFD0), (16, 0xFFD1)]] ++
  [[(9, 0x1F9), (16, 0xFFD2), (16, 0xFFD3), (16, 0xFFD4), (16, 0xFFD5), (16, 0xFFD6), (16, 0xFFD7), (16, 0xFFD8), (16, 0xFFD9), (16, 0xFFDA)]] ++
  [[(9, 0x1FA), (16, 0xFFDB), (16, 0xFFDC), (16, 0xFFDD), (16, 0xFFDE), (16, 0xFFDF), (16, 0xFFE0), (16, 0xFFE1), (16, 0xFFE2), (16, 0xFFE3)]] ++
  [[(11, 0x7F9), (16, 0xFFE4), (16, 0xFFE5), (16, 0xFFE6), (16, 0xFFE7), (16, 0xFFE8), (16, 0xFFE9), (16, 0xFFEA), (16, 0xFFEB), (16, 0xFFEC)]] ++
  [[(14, 0x3FE0), (16, 0xFFED), (16, 0xFFEE), (16, 0xFFEF), (16, 0xFFF0), (16, 0xFFF1), (16, 0xFFF2), (16, 0xFFF3), (16, 0xFFF4), (16, 0xFFF5)]] ++
  [[(15, 0x7FC3), (16, 0xFFF6), (16, 0xFFF7), (16, 0xFFF8), (16, 0xFFF9), (16, 0xFFFA), (16, 0xFFFB), (16, 0xFFFC), (16, 0xFFFD), (16, 0xFFFE)]]

/-! ### The statements -/

/-- R56 to R61: no bit of an encoding is dropped. -/
def Obligations.DecodeOfEncode : Prop :=
  ∀ i : Instr, i.wellFormed → decode (encode i) = .ok i

/-- R58, R59, R61: every bit of a legal word is an operand or fixed. -/
def Obligations.DecodedWordIsItsEncoding : Prop :=
  ∀ (w : Word) (i : Instr), decode w = .ok i → i.wellFormed ∧ encode i = w

/-- R60. -/
def Obligations.IllegalWordsHaltTheBlock : Prop :=
  (∀ w : Word, (∃ e, decode w = .error e) ↔ IllegalWord w) ∧
    (∀ (s : State) (w : Word) (rest : List HostOp), s.halt = false → IllegalWord w →
      s.pending = .wr (.reg 0x000) 4 w :: rest →
      step s = .next { s with pending := rest, halt := true, fcause := 1#4, fcmd := w }) ∧
    ∀ w : Word, decode w = .ok .nop ↔ w = 0x00000000#32

/-- R63: a sanity statement over the printed words. -/
def Obligations.EncodingTableWords : Prop :=
  ∀ p ∈ ([(.pushi 3#5 5#16, 0x10030005#32), (.pushi 16#5 0xFFFE#16, 0x1010FFFE#32),
        (.mag false (-5#16), 0x4000FFFB#32), (.mag true 5#16, 0x40010005#32),
        (.huff true .lac 0xF0#8, 0x500102F0#32), (.huff false .cdc 0#8, 0x50000100#32),
        (.enc .ldc 0#4 5#16, 0x60000005#32), (.enc .lac 2#4 (-3#16), 0x6220FFFD#32),
        (.enc .cac 0#4 0#16, 0x63000000#32), (.enc .lac 15#4 0#16, 0x62F00000#32),
        (.zz 8#6, 0x70000008#32)] : List (Instr × Word)),
      encode p.1 = p.2 ∧ decode p.2 = .ok p.1

/-- R26, R49: the step is exec of the decoded command, with the HOST operation consumed. -/
def Obligations.StepRunsDecodedCommand : Prop :=
  ∀ (s : State) (w : Word) (rest : List HostOp) (i : Instr),
    s.halt = false → s.pending = .wr (.reg 0x000) 4 w :: rest → decode w = .ok i →
      step s = exec i { s with pending := rest }

/-- R100, one clause a bullet. The read clause takes in stale `SB_DATA` entries (`SIZE ≤ i < C`), whose value R37
leaves unspecified: that the halted block returns the very value it returns with `HALT = 0` there is the model's choice
(log entry 3, one draw counter), not R100's. -/
def Obligations.HaltedBlock : Prop :=
  (∀ (s : State) (w : Word) (rest : List HostOp), s.halt = true →
      s.pending = .wr (.reg 0x000) 4 w :: rest → step s = .next { s with pending := rest }) ∧
    (∀ (s t : State) (offset : Nat) (rest : List HostOp), s.halt = true →
      s.pending = .rd (.reg offset) 4 :: rest → offset ≠ 0x004 → step s = .next t →
      t.halt = true ∧ step { s with halt := false } = .next { t with halt := false }) ∧
    (∀ (s : State) (rest : List HostOp), s.halt = true → s.pending = .rd (.reg 0x004) 4 :: rest →
      ∃ v, step s = .next { s with pending := rest, replies := v :: s.replies } ∧
        v.getLsbD 1 = true ∧
        v.getLsbD 0 = decide (s.build.cap.toNat ≤ s.size.toNat + s.rsv.toNat)) ∧
    (∀ (s : State) (w : Word) (rest : List HostOp) (p : Nat × State), s.halt = true →
      p ∈ specWrites { s with pending := rest } w →
      s.pending = .wr (.reg p.1) 4 w :: rest → step s = .next p.2) ∧
    ∀ s t : State, s.halt = true → step s = .next t → t.halt = false →
      ResetNext s ∧ HasResetValues t

/-- R110: between commands the block is idle and keeps all its state. -/
def Obligations.IdleBlockKeepsItsState : Prop :=
  ∀ s : State, s.pending = [] → step s = .next s

/-- R23: the window is at byte addresses BLK_BASE + 0x0000 to BLK_BASE + 0x1FFF. The refusal outside it is the model's choice
(log entry 12), and so are the equal draws of a stale read or of `SRST` (log entry 3). -/
def Obligations.BusAddressReachesItsRegister : Prop :=
  (∀ (s : State) (offset width : Nat) (w : Word) (rest : List HostOp), offset < 0x2000 →
      step { s with pending := .wr (.bus (s.build.blkBase + offset)) width w :: rest } =
          step { s with pending := .wr (.reg offset) width w :: rest } ∧
        step { s with pending := .rd (.bus (s.build.blkBase + offset)) width :: rest } =
          step { s with pending := .rd (.reg offset) width :: rest }) ∧
    ∀ (s : State) (address width : Nat) (w : Word) (rest : List HostOp),
      (address < s.build.blkBase ∨ s.build.blkBase + 0x2000 ≤ address) →
      step { s with pending := .wr (.bus address) width w :: rest } = .refused .outsideWindow ∧
        step { s with pending := .rd (.bus address) width :: rest } = .refused .outsideWindow

/-- R24. -/
def Obligations.UndefinedHostAccessIsRefused : Prop :=
  ∀ (s : State) (target : HostAddr) (offset width : Nat) (w : Word) (rest : List HostOp),
    windowOffset s.build target = some offset →
    ((width ≠ 4 ∨ offset % 4 ≠ 0) →
      step { s with pending := .wr target width w :: rest } = .refused .hostAccess ∧
        step { s with pending := .rd target width :: rest } = .refused .hostAccess) ∧
    (width = 4 → offset % 4 = 0 →
      (∃ t, step { s with pending := .wr target width w :: rest } = .next t) ∧
        ∃ t, step { s with pending := .rd target width :: rest } = .next t)

/-- R23, R27 to R36: FULL is computed from the current SIZE, RSV and C. -/
def Obligations.RegisterReads : Prop :=
  ∀ (s : State) (p : Nat × Word) (rest : List HostOp), p ∈ specReads s →
    s.pending = .rd (.reg p.1) 4 :: rest →
      step s = .next { s with pending := rest, replies := p.2 :: s.replies }

/-- R31, R36: no check at the time of the write, also while halted. -/
def Obligations.RegisterWrites : Prop :=
  ∀ (s : State) (w : Word) (rest : List HostOp) (p : Nat × State),
    p ∈ specWrites { s with pending := rest } w →
    s.pending = .wr (.reg p.1) 4 w :: rest → step s = .next p.2

/-- R25, R23. Over the `SB_DATA` entries with `SIZE ≤ i < C` the zero-field clause is the model's deduction, DEDUCED in
log entry 5 and unsafe: R37 calls that read's value unspecified. -/
def Obligations.UnmappedReadOnlyAndZeroFields : Prop :=
  (∀ (s : State) (offset : Nat) (w : Word) (rest : List HostOp), Unmapped s.build offset →
      step { s with pending := .rd (.reg offset) 4 :: rest } =
          .next { s with pending := rest, replies := 0#32 :: s.replies } ∧
        step { s with pending := .wr (.reg offset) 4 w :: rest } = .next { s with pending := rest }) ∧
    (∀ (s : State) (offset : Nat) (w : Word) (rest : List HostOp),
      (offset ∈ readOnlyOffsets ∨ ∃ i < s.build.cap.toNat, offset = 0x1000 + 4 * i) →
      offset < 0x2000 →
      step { s with pending := .wr (.reg offset) 4 w :: rest } = .next { s with pending := rest }) ∧
    (∀ (s : State) (offset : Nat) (rest : List HostOp), (offset = 0x000 ∨ offset = 0x028) →
      step { s with pending := .rd (.reg offset) 4 :: rest } =
        .next { s with pending := rest, replies := 0#32 :: s.replies }) ∧
    (∀ (s : State) (p : Nat × Word) (rest : List HostOp),
      (p ∈ zeroFields ∨ ∃ i < s.build.cap.toNat, p = (0x1000 + 4 * i, 0xFFE00000#32)) →
      p.1 < 0x2000 →
      ∃ t v, step { s with pending := .rd (.reg p.1) 4 :: rest } = .next t ∧
        t.replies = v :: s.replies ∧ v &&& p.2 = 0#32) ∧
    ∀ (s : State) (p : Nat × Word) (w w' : Word) (rest : List HostOp), p ∈ zeroFields →
      w &&& ~~~p.2 = w' &&& ~~~p.2 →
      step { s with pending := .wr (.reg p.1) 4 w :: rest } =
        step { s with pending := .wr (.reg p.1) 4 w' :: rest }

/-- R37, with the packing of R13. The unspecified value is existentially bound: nothing is said of it. -/
def Obligations.BufferWindowReads : Prop :=
  ∀ (s : State) (i : Nat) (rest : List HostOp), i < 1024 →
    s.pending = .rd (.reg (0x1000 + 4 * i)) 4 :: rest →
    (∀ g, i < s.size.toNat → i < s.build.cap.toNat → s.sb[i]? = some g →
      step s = .next { s with
        pending := rest
        replies := BitVec.ofNat 32 (g.len.toNat * 2 ^ 16 + g.value.toNat) :: s.replies }) ∧
    (s.size.toNat ≤ i → i < s.build.cap.toNat →
      ∃ v k, step s = .next { s with pending := rest, replies := v :: s.replies, draws := k }) ∧
    (s.build.cap.toNat ≤ i →
      step s = .next { s with pending := rest, replies := 0#32 :: s.replies })

/-- R31. -/
def Obligations.ReserveRegister : Prop :=
  State.reset.rsv.toNat = State.reset.build.cap.toNat / 2 ∧
    ∀ (s : State) (r : Nat) (rest : List HostOp), r ≤ 65535 →
      s.pending = .wr (.reg 0x018) 4 (BitVec.ofNat 32 r) :: .rd (.reg 0x004) 4 :: rest →
      ∃ t u v, step s = .next t ∧ t.rsv.toNat = r ∧ step t = .next u ∧ u.replies = v :: s.replies ∧
        (v.getLsbD 0 = true ↔ s.build.cap.toNat ≤ s.size.toNat + r)

/-- R30. -/
def Obligations.CapacityRegister : Prop :=
  ∀ (s : State) (rest : List HostOp), s.pending = .rd (.reg 0x014) 4 :: rest →
    step s = .next { s with
      pending := rest
      replies := BitVec.ofNat 32 s.build.cap.toNat :: s.replies }

/-- R35, with the values of R40 and R111. Nothing is said of the buffer entries but their number. -/
def Obligations.SoftwareResetAndResetInput : Prop :=
  (∀ (s : State) (w : Word) (rest : List HostOp), w.getLsbD 0 = true →
      s.pending = .wr (.reg 0x028) 4 w :: rest →
      ∃ t, step s = .next t ∧ HasResetValues t ∧ t.mem = s.mem ∧ t.build = s.build ∧
        t.pending = rest ∧ t.replies = s.replies) ∧
    (∀ (s : State) (rest : List HostOp), s.pending = .resetInput :: rest →
      ∃ t, step s = .next t ∧ HasResetValues t ∧ t.mem = s.mem ∧ t.build = s.build ∧
        t.pending = rest ∧ t.replies = s.replies) ∧
    ∀ (s : State) (w : Word) (rest : List HostOp), w.getLsbD 0 = false →
      s.pending = .wr (.reg 0x028) 4 w :: rest → step s = .next { s with pending := rest }

/-- R40, R8. -/
def Obligations.ResetStateValues : Prop :=
  HasResetValues State.reset ∧ State.reset.rsv = 512#16 ∧ State.reset.build.cap = 1024#11 ∧
    State.reset.build.range = 2048#16 ∧ full State.reset = false ∧ State.reset.mem = []

/-- R64. -/
def Obligations.FullnessPredicate : Prop :=
  (∀ (s : State) (rest : List HostOp), s.pending = .rd (.reg 0x004) 4 :: rest →
      ∃ t v, step s = .next t ∧ t.replies = v :: s.replies ∧
        (v.getLsbD 0 = true ↔ s.build.cap.toNat ≤ s.size.toNat + s.rsv.toNat)) ∧
    ∀ s : State, (full s = true ↔ s.build.cap.toNat ≤ s.size.toNat + s.rsv.toNat) ∧
      (s.rsv.toNat = s.build.cap.toNat / 2 →
        (full s = true ↔ s.build.cap.toNat - s.build.cap.toNat / 2 ≤ s.size.toNat)) ∧
      (s.rsv.toNat = s.build.cap.toNat / 2 → s.build.cap = 1024#11 →
        (full s = true ↔ 512 ≤ s.size.toNat)) ∧
      (s.rsv = 0#16 → s.size.toNat ≤ s.build.cap.toNat →
        (full s = true ↔ s.size.toNat = s.build.cap.toNat)) ∧
      (s.build.cap.toNat ≤ s.rsv.toNat → full s = true)

/-- R65. -/
def Obligations.PushAllAppendsOrFaults : Prop :=
  ∀ (s : State) (gs : List Group),
    (s.build.cap.toNat < s.size.toNat + gs.length → pushAll s gs = .error .sbOvf) ∧
    (s.size.toNat + gs.length ≤ s.build.cap.toNat → s.sb.length = s.build.cap.toNat →
      ∃ t, pushAll s gs = .ok t ∧ t = { s with sb := t.sb, size := t.size } ∧
        t.size.toNat = s.size.toNat + gs.length ∧ contents t = contents s ++ gs ∧
        t.sb.length = s.sb.length ∧
        ∀ k, s.size.toNat + gs.length ≤ k → t.sb[k]? = s.sb[k]?)

/-- R66, R13. -/
def Obligations.PushesAppendToTheBitStream : Prop :=
  (∀ g : Group, (groupBits g).length = g.len.toNat ∧
      ∀ k < g.len.toNat, (groupBits g)[k]? = some (g.value.getLsbD (g.len.toNat - 1 - k))) ∧
    (∀ (s t : State) (gs : List Group), s.bufferInv → pushAll s gs = .ok t →
      bitStream t = bitStream s ++ gs.flatMap groupBits) ∧
    ∀ s t : State, exec .clear s = .next t → bitStream t = []

/-- R67. -/
def Obligations.NopCompletes : Prop :=
  ∀ s : State, exec .nop s = .next s

/-- R68. -/
def Obligations.PushiCompletes : Prop :=
  ∀ (s : State) (len : BitVec 5) (val : BitVec 16), s.size.toNat < s.build.cap.toNat →
    exec (.pushi len val) s =
      .next { s with sb := s.sb.set s.size.toNat ⟨val, len⟩, size := s.size + 1#11 }

/-- R69. -/
def Obligations.PushrCompletes : Prop :=
  ∀ s : State, s.size.toNat < s.build.cap.toNat →
    exec .pushr s = .next { s with sb := s.sb.set s.size.toNat s.res, size := s.size + 1#11 }

/-- R70, R21. -/
def Obligations.ClearCompletes : Prop :=
  ∀ s : State, exec .clear s = .next { s with size := 0#11 }

/-- R79, with the codes of R93 and R95. -/
def Obligations.GraychCompletes : Prop :=
  huffTable .cdc 0 = some ⟨0#16, 2#5⟩ ∧ huffTable .cac 0 = some ⟨0#16, 2#5⟩ ∧
    ∀ s : State, s.size.toNat + 4 ≤ s.build.cap.toNat →
      exec .graych s = .next { s with
        sb := (((s.sb.set s.size.toNat ⟨0#16, 2#5⟩).set (s.size.toNat + 1) ⟨0#16, 2#5⟩).set
          (s.size.toNat + 2) ⟨0#16, 2#5⟩).set (s.size.toNat + 3) ⟨0#16, 2#5⟩
        size := s.size + 4#11 }

/-- R65, R97. -/
def Obligations.PushBeyondCapacityFaults : Prop :=
  ∀ s : State,
    (s.build.cap.toNat < s.size.toNat + 1 →
      (∀ len val, exec (.pushi len val) s = .next (faulted s 2#4 (.pushi len val))) ∧
      exec .pushr s = .next (faulted s 2#4 .pushr) ∧
      (∀ imm, MagAccepts s (immValue imm) →
        exec (.mag true imm) s = .next (faulted s 2#4 (.mag true imm))) ∧
      ∀ t sym g, huffTable t sym.toNat = some g →
        exec (.huff true t sym) s = .next (faulted s 2#4 (.huff true t sym))) ∧
    (∀ t run imm g, MagAccepts s (immValue imm) → category (immValue imm) ≤ 15 →
      huffTable t (run.toNat * 16 + category (immValue imm)) = some g →
      s.build.cap.toNat < s.size.toNat + (if immValue imm = 0 then 1 else 2) →
      exec (.enc t run imm) s = .next (faulted s 2#4 (.enc t run imm))) ∧
    (s.build.cap.toNat < s.size.toNat + 4 → exec .graych s = .next (faulted s 2#4 .graych))

/-- R113: when STATUS.FULL = 0 the next RSV + 1 groups fit. The premise on `FCAUSE` shuts out only states that break
`State.faultInv` (R28), which no run reaches: there `FCAUSE = 0` while the block is not halted. -/
def Obligations.ReserveBoundsPushes : Prop :=
  ∀ (is : List Instr) (s t : State), (∀ i ∈ is, i.wellFormed) → s.halt = false → full s = false →
    s.fcause ≠ 2#4 → (is.map mostGroups).sum ≤ s.rsv.toNat + 1 →
    issueAll is s = .next t → t.fcause ≠ 2#4

/-- R10, R57: sext_16. -/
def Obligations.SignedImmediate : Prop :=
  ∀ imm : BitVec 16,
    immValue imm = (if imm.getLsbD 15 then (imm.toNat : Int) - 65536 else imm.toNat) ∧
      -32768 ≤ immValue imm ∧ immValue imm ≤ 32767

/-- R71, R72. -/
def Obligations.MagEncodeValueRuns : Prop :=
  ∀ v : Int, -32768 ≤ v → v ≤ 32767 →
    (magEncode v).canonical ∧
    (v = 0 → magEncode v = ⟨0#16, 0#5⟩) ∧
    (0 < v → (2 : Int) ^ ((magEncode v).len.toNat - 1) ≤ v ∧ v < 2 ^ (magEncode v).len.toNat ∧
      ((magEncode v).value.toNat : Int) = v) ∧
    (v < 0 → (2 : Int) ^ ((magEncode v).len.toNat - 1) ≤ -v ∧ -v < 2 ^ (magEncode v).len.toNat ∧
      ((magEncode v).value.toNat : Int) = v + 2 ^ (magEncode v).len.toNat - 1) ∧
    ((magEncode v).len = 16#5 ↔ v = -32768) ∧
    magEncode (-32768) = ⟨0x7FFF#16, 16#5⟩

/-- R74. -/
def Obligations.MagDecodeInvertsMagEncode : Prop :=
  (∀ b, magDecode ⟨b, 0#5⟩ = 0) ∧
    (∀ g : Group, 1 ≤ g.len.toNat → magDecode g =
      if g.value.getLsbD (g.len.toNat - 1) then (g.value.toNat : Int)
      else (g.value.toNat : Int) - 2 ^ g.len.toNat + 1) ∧
    ∀ v : Int, -32768 ≤ v → v ≤ 32767 → magDecode (magEncode v) = v

/-- R73: their only difference is the range check of R72. -/
def Obligations.StrategiesGiveEqualResults : Prop :=
  ∀ (s : State) (imm : BitVec 16) (i : Instr), (immValue imm).natAbs < s.build.range.toNat →
    ((∃ p, i = .mag p imm) ∨ ∃ t run, i = .enc t run imm) →
    ∃ u : State, ∀ m : Strategy,
      exec i { s with build := { s.build with strategy := m } } =
        .next { u with build := { s.build with strategy := m } }

/-- R75. -/
def Obligations.MagCompletes : Prop :=
  ∀ (s : State) (imm : BitVec 16), MagAccepts s (immValue imm) →
    exec (.mag false imm) s = .next { s with res := magEncode (immValue imm) } ∧
    (s.size.toNat < s.build.cap.toNat →
      exec (.mag true imm) s = .next { s with
        res := magEncode (immValue imm)
        sb := s.sb.set s.size.toNat (magEncode (immValue imm))
        size := s.size + 1#11 })

/-- R72, R102. -/
def Obligations.MagRangeFaults : Prop :=
  ∀ (s : State) (imm : BitVec 16), MagRejects s (immValue imm) →
    (∀ p, exec (.mag p imm) s = .next (faulted s 3#4 (.mag p imm))) ∧
      ∀ t run, exec (.enc t run imm) s = .next (faulted s 3#4 (.enc t run imm))

/-- R76, R77. -/
def Obligations.HuffCompletes : Prop :=
  ∀ (s : State) (t : Table) (sym : BitVec 8) (g : Group), huffTable t sym.toNat = some g →
    exec (.huff false t sym) s = .next { s with res := g } ∧
    (s.size.toNat < s.build.cap.toNat →
      exec (.huff true t sym) s = .next { s with
        res := g
        sb := s.sb.set s.size.toNat g
        size := s.size + 1#11 })

/-- R76, R77, R78, R102. -/
def Obligations.UnpopulatedSymbolFaults : Prop :=
  (∀ (s : State) (p : Bool) (t : Table) (sym : BitVec 8), huffTable t sym.toNat = none →
      exec (.huff p t sym) s = .next (faulted s 4#4 (.huff p t sym))) ∧
    ∀ (s : State) (t : Table) (run : BitVec 4) (imm : BitVec 16), MagAccepts s (immValue imm) →
      (15 < category (immValue imm) ∨
        huffTable t (run.toNat * 16 + category (immValue imm)) = none ∨
        ((t = .ldc ∨ t = .cdc) ∧ run ≠ 0#4) ∨
        ((t = .lac ∨ t = .cac) ∧
          (1024 ≤ (immValue imm).natAbs ∨
            (immValue imm = 0 ∧ 1 ≤ run.toNat ∧ run.toNat ≤ 14)))) →
      exec (.enc t run imm) s = .next (faulted s 4#4 (.enc t run imm))

/-- R78. -/
def Obligations.EncCompletes : Prop :=
  ∀ (s : State) (t : Table) (run : BitVec 4) (imm : BitVec 16) (code : Group),
    MagAccepts s (immValue imm) → category (immValue imm) ≤ 15 →
    huffTable t (run.toNat * 16 + category (immValue imm)) = some code →
    (immValue imm = 0 → s.size.toNat < s.build.cap.toNat →
      exec (.enc t run imm) s = .next { s with
        res := ⟨0#16, 0#5⟩
        sb := s.sb.set s.size.toNat code
        size := s.size + 1#11 }) ∧
    (immValue imm ≠ 0 → s.size.toNat + 2 ≤ s.build.cap.toNat →
      exec (.enc t run imm) s = .next { s with
        res := magEncode (immValue imm)
        sb := (s.sb.set s.size.toNat code).set (s.size.toNat + 1) (magEncode (immValue imm))
        size := s.size + 2#11 })

/-- R33, with R80. Clause 2 takes in `CVTC` and `CVTG` with a failed write: that the spoilt bytes, unspecified in R48, are the
same whatever `ZRES` holds is the model's choice (log entry 3, one draw counter), not R33's. -/
def Obligations.ZigzagResultRegister : Prop :=
  (∀ (s : State) (idx : BitVec 6), exec (.zz idx) s = .next { s with zres := zigzag idx }) ∧
    ∀ (s : State) (i : Instr), (∀ idx, i ≠ .zz idx) →
      ∃ t : State, ∀ z, exec i { s with zres := z } = .next { t with zres := z }

/-- R32. Clauses 2 and 3 take in `CVTC` and `CVTG` with a failed write: that the spoilt bytes, unspecified in R48, are the
same whatever `RES` holds is the model's choice (log entry 3, one draw counter), not R32's. -/
def Obligations.ResultRegisterUsers : Prop :=
  (∀ (s t : State) (i : Instr), exec i s = .next t → t.res ≠ s.res →
      (∃ p imm, i = .mag p imm) ∨ (∃ p u sym, i = .huff p u sym) ∨
        ∃ u run imm, i = .enc u run imm) ∧
    (∀ (s : State) (i : Instr), i ≠ .pushr → (∀ p imm, i ≠ .mag p imm) →
      (∀ p u sym, i ≠ .huff p u sym) → (∀ u run imm, i ≠ .enc u run imm) →
      ∃ t : State, ∀ g, exec i { s with res := g } = .next { t with res := g }) ∧
    ∀ (s : State) (i : Instr) (g : Group), i ≠ .pushr →
      ∃ (t : State) (r r' : Group), exec i s = .next { t with res := r } ∧
        exec i { s with res := g } = .next { t with res := r' } ∧
        (r' = r ∨ (r = s.res ∧ r' = g))

/-- R91. -/
def Obligations.PopulatedSymbols : Prop :=
  (∀ s < 256, ((huffTable .ldc s).isSome ↔ s ≤ 11) ∧ ((huffTable .cdc s).isSome ↔ s ≤ 11)) ∧
    (∀ s < 256, ((huffTable .lac s).isSome ↔ s = 0x00 ∨ s = 0xF0 ∨ (1 ≤ s % 16 ∧ s % 16 ≤ 10)) ∧
      ((huffTable .cac s).isSome ↔ s = 0x00 ∨ s = 0xF0 ∨ (1 ≤ s % 16 ∧ s % 16 ≤ 10))) ∧
    ((List.range 256).filter fun s => (huffTable .lac s).isSome).length = 162 ∧
    ((List.range 256).filter fun s => (huffTable .cac s).isSome).length = 162 ∧
    ∀ (s : State) (p : Bool) (t : Table) (sym : BitVec 8), huffTable t sym.toNat = none →
      exec (.huff p t sym) s = .next (faulted s 4#4 (.huff p t sym))

/-- R90, R20, R22. -/
def Obligations.CodesAreCanonicalAndPrefixFree : Prop :=
  ∀ (t : Table) (a b : Nat) (g h : Group), huffTable t a = some g → huffTable t b = some h →
    g.canonical ∧ 1 ≤ g.len.toNat ∧ (a ≠ b → ¬ groupBits g <+: groupBits h)

/-- R92 and R94. -/
def Obligations.LumaTables : Prop :=
  ldcBits = [0, 1, 5, 1, 1, 1, 1, 1, 1, 0, 0, 0, 0, 0, 0, 0] ∧ ldcVals = List.range 12 ∧
    (List.range 12).map (huffTable .ldc) =
      [some ⟨0x0#16, 2#5⟩, some ⟨0x2#16, 3#5⟩, some ⟨0x3#16, 3#5⟩, some ⟨0x4#16, 3#5⟩,
       some ⟨0x5#16, 3#5⟩, some ⟨0x6#16, 3#5⟩, some ⟨0xE#16, 4#5⟩, some ⟨0x1E#16, 5#5⟩,
       some ⟨0x3E#16, 6#5⟩, some ⟨0x7E#16, 7#5⟩, some ⟨0xFE#16, 8#5⟩, some ⟨0x1FE#16, 9#5⟩] ∧
    (∀ s < 256, 12 ≤ s → huffTable .ldc s = none) ∧
    lacBits = [0, 2, 1, 3, 3, 2, 4, 3, 5, 5, 4, 4, 0, 0, 1, 125] ∧
    lacVals =
      [0x01, 0x02, 0x03, 0x00, 0x04, 0x11, 0x05, 0x12, 0x21, 0x31, 0x41, 0x06, 0x13, 0x51, 0x61, 0x07] ++
      [0x22, 0x71, 0x14, 0x32, 0x81, 0x91, 0xA1, 0x08, 0x23, 0x42, 0xB1, 0xC1, 0x15, 0x52, 0xD1, 0xF0] ++
      [0x24, 0x33, 0x62, 0x72, 0x82, 0x09, 0x0A, 0x16, 0x17, 0x18, 0x19, 0x1A, 0x25, 0x26, 0x27, 0x28] ++
      [0x29, 0x2A, 0x34, 0x35, 0x36, 0x37, 0x38, 0x39, 0x3A, 0x43, 0x44, 0x45, 0x46, 0x47, 0x48, 0x49] ++
      [0x4A, 0x53, 0x54, 0x55, 0x56, 0x57, 0x58, 0x59, 0x5A, 0x63, 0x64, 0x65, 0x66, 0x67, 0x68, 0x69] ++
      [0x6A, 0x73, 0x74, 0x75, 0x76, 0x77, 0x78, 0x79, 0x7A, 0x83, 0x84, 0x85, 0x86, 0x87, 0x88, 0x89] ++
      [0x8A, 0x92, 0x93, 0x94, 0x95, 0x96, 0x97, 0x98, 0x99, 0x9A, 0xA2, 0xA3, 0xA4, 0xA5, 0xA6, 0xA7] ++
      [0xA8, 0xA9, 0xAA, 0xB2, 0xB3, 0xB4, 0xB5, 0xB6, 0xB7, 0xB8, 0xB9, 0xBA, 0xC2, 0xC3, 0xC4, 0xC5] ++
      [0xC6, 0xC7, 0xC8, 0xC9, 0xCA, 0xD2, 0xD3, 0xD4, 0xD5, 0xD6, 0xD7, 0xD8, 0xD9, 0xDA, 0xE1, 0xE2] ++
      [0xE3, 0xE4, 0xE5, 0xE6, 0xE7, 0xE8, 0xE9, 0xEA, 0xF1, 0xF2, 0xF3, 0xF4, 0xF5, 0xF6, 0xF7, 0xF8] ++
      [0xF9, 0xFA] ∧
    (∀ run < 16, ∀ c < 10,
      (huffTable .lac (run * 16 + (c + 1))).map (fun g => (g.len.toNat, g.value.toNat)) =
        printedLac[run]?.bind fun row => row[c]?) ∧
    huffTable .lac 0x00 = some ⟨0xA#16, 4#5⟩ ∧ huffTable .lac 0xF0 = some ⟨0x7F9#16, 11#5⟩ ∧
    ∀ s < 256, s ≠ 0x00 → s ≠ 0xF0 → (s % 16 = 0 ∨ 10 < s % 16) → huffTable .lac s = none

/-- R93 and R95. -/
def Obligations.ChromaTables : Prop :=
  cdcBits = [0, 3, 1, 1, 1, 1, 1, 1, 1, 1, 1, 0, 0, 0, 0, 0] ∧ cdcVals = List.range 12 ∧
    (List.range 12).map (huffTable .cdc) =
      [some ⟨0x0#16, 2#5⟩, some ⟨0x1#16, 2#5⟩, some ⟨0x2#16, 2#5⟩, some ⟨0x6#16, 3#5⟩,
       some ⟨0xE#16, 4#5⟩, some ⟨0x1E#16, 5#5⟩, some ⟨0x3E#16, 6#5⟩, some ⟨0x7E#16, 7#5⟩,
       some ⟨0xFE#16, 8#5⟩, some ⟨0x1FE#16, 9#5⟩, some ⟨0x3FE#16, 10#5⟩, some ⟨0x7FE#16, 11#5⟩] ∧
    (∀ s < 256, 12 ≤ s → huffTable .cdc s = none) ∧
    cacBits = [0, 2, 1, 2, 4, 4, 3, 4, 7, 5, 4, 4, 0, 1, 2, 119] ∧
    cacVals =
      [0x00, 0x01, 0x02, 0x03, 0x11, 0x04, 0x05, 0x21, 0x31, 0x06, 0x12, 0x41, 0x51, 0x07, 0x61, 0x71] ++
      [0x13, 0x22, 0x32, 0x81, 0x08, 0x14, 0x42, 0x91, 0xA1, 0xB1, 0xC1, 0x09, 0x23, 0x33, 0x52, 0xF0] ++
      [0x15, 0x62, 0x72, 0xD1, 0x0A, 0x16, 0x24, 0x34, 0xE1, 0x25, 0xF1, 0x17, 0x18, 0x19, 0x1A, 0x26] ++
      [0x27, 0x28, 0x29, 0x2A, 0x35, 0x36, 0x37, 0x38, 0x39, 0x3A, 0x43, 0x44, 0x45, 0x46, 0x47, 0x48] ++
      [0x49, 0x4A, 0x53, 0x54, 0x55, 0x56, 0x57, 0x58, 0x59, 0x5A, 0x63, 0x64, 0x65, 0x66, 0x67, 0x68] ++
      [0x69, 0x6A, 0x73, 0x74, 0x75, 0x76, 0x77, 0x78, 0x79, 0x7A, 0x82, 0x83, 0x84, 0x85, 0x86, 0x87] ++
      [0x88, 0x89, 0x8A, 0x92, 0x93, 0x94, 0x95, 0x96, 0x97, 0x98, 0x99, 0x9A, 0xA2, 0xA3, 0xA4, 0xA5] ++
      [0xA6, 0xA7, 0xA8, 0xA9, 0xAA, 0xB2, 0xB3, 0xB4, 0xB5, 0xB6, 0xB7, 0xB8, 0xB9, 0xBA, 0xC2, 0xC3] ++
      [0xC4, 0xC5, 0xC6, 0xC7, 0xC8, 0xC9, 0xCA, 0xD2, 0xD3, 0xD4, 0xD5, 0xD6, 0xD7, 0xD8, 0xD9, 0xDA] ++
      [0xE2, 0xE3, 0xE4, 0xE5, 0xE6, 0xE7, 0xE8, 0xE9, 0xEA, 0xF2, 0xF3, 0xF4, 0xF5, 0xF6, 0xF7, 0xF8] ++
      [0xF9, 0xFA] ∧
    (∀ run < 16, ∀ c < 10,
      (huffTable .cac (run * 16 + (c + 1))).map (fun g => (g.len.toNat, g.value.toNat)) =
        printedCac[run]?.bind fun row => row[c]?) ∧
    huffTable .cac 0x00 = some ⟨0x0#16, 2#5⟩ ∧ huffTable .cac 0xF0 = some ⟨0x3FA#16, 10#5⟩ ∧
    ∀ s < 256, s ≠ 0x00 → s ≠ 0xF0 → (s % 16 = 0 ∨ 10 < s % 16) → huffTable .cac s = none

/-- R96. -/
def Obligations.ZigzagTableAndInverse : Prop :=
  let grid : List Nat :=
      [0, 1, 5, 6, 14, 15, 27, 28, 2, 4, 7, 13, 16, 26, 29, 42] ++
      [3, 8, 12, 17, 25, 30, 41, 43, 9, 11, 18, 24, 31, 40, 44, 53] ++
      [10, 19, 23, 32, 39, 45, 52, 54, 20, 22, 33, 38, 46, 51, 55, 60] ++
      [21, 34, 37, 47, 50, 56, 59, 61, 35, 36, 48, 49, 57, 58, 62, 63]
    let inverse : List Nat :=
      [0, 1, 8, 16, 9, 2, 3, 10, 17, 24, 32, 25, 18, 11, 4, 5] ++
      [12, 19, 26, 33, 40, 48, 41, 34, 27, 20, 13, 6, 7, 14, 21, 28] ++
      [35, 42, 49, 56, 57, 50, 43, 36, 29, 22, 15, 23, 30, 37, 44, 51] ++
      [58, 59, 52, 45, 38, 31, 39, 46, 53, 60, 61, 54, 47, 55, 62, 63]
    (∀ n < 64, (zigzag (BitVec.ofNat 6 n)).toNat = grid.getD n 64) ∧
      (∀ k < 64, (zigzag (BitVec.ofNat 6 (inverse.getD k 64))).toNat = k) ∧
      ∀ n < 64, inverse.getD (zigzag (BitVec.ofNat 6 n)).toNat 64 = n

/-- R12, R81. Values count units of 2^-149, so a product counts units of 2^-298. -/
def Obligations.Binary32RoundsToNearestEven : Prop :=
  (∀ x y : Word, F32Finite x → F32Finite y →
      (F32Finite (f32Add x y) → NearestEven (f32Add x y) (f32Units x + f32Units y) 1) ∧
      (F32Finite (f32Sub x y) → NearestEven (f32Sub x y) (f32Units x - f32Units y) 1) ∧
      (F32Finite (f32Mul x y) → NearestEven (f32Mul x y) (f32Units x * f32Units y) (2 ^ 149))) ∧
    ∀ n d : Nat, 0 < d → F32Finite (f32OfRatio n d) →
      NearestEven (f32OfRatio n d) (n * 2 ^ 149 : Nat) d

/-- R82, R81. -/
def Obligations.CoefficientEncodings : Prop :=
  [kYR, kYG, kYB, kUR, kUG, kUB, kVR, kVG, kVB] =
      [0x3E991687#32, 0x3F1645A2#32, 0x3DE978D5#32, 0x3E2CCA2E#32, 0x3EA99AE9#32, 0x3F000000#32,
       0x3F000000#32, 0x3ED65E89#32, 0x3DA685DB#32] ∧
    [kYR, kYG, kYB, kUR, kUG, kUB, kVR, kVG, kVB] =
      [f32OfRatio 299 1000, f32OfRatio 587 1000, f32OfRatio 114 1000, f32OfRatio 16874 100000,
       f32OfRatio 33126 100000, f32OfRatio 5 10, f32OfRatio 5 10, f32OfRatio 41869 100000,
       f32OfRatio 8131 100000] ∧
    ∀ b : Byte, f32Units (f32OfSample b) = b.toNat * 2 ^ 149

/-- R83. -/
def Obligations.GrayConversionIsExact : Prop :=
  ∀ g : Byte, f32Units (convG g) = ((g.toNat : Int) - 128) * 2 ^ 149

/-- R84. -/
def Obligations.ConverterNeverGivesMinusZero : Prop :=
  ∀ r g b : Byte, convY r g b ≠ 0x80000000#32 ∧ convU r g b ≠ 0x80000000#32 ∧
    convV r g b ≠ 0x80000000#32 ∧ convG g ≠ 0x80000000#32

/-- R84. Values count units of 2^-149; 127.5 is 255 * 2^148 units. -/
def Obligations.ConverterRanges : Prop :=
  (∀ r g b : Byte,
      (-128 * 2 ^ 149 ≤ f32Units (convY r g b) ∧ f32Units (convY r g b) ≤ 127 * 2 ^ 149) ∧
      (-255 * 2 ^ 148 ≤ f32Units (convU r g b) ∧ f32Units (convU r g b) ≤ 255 * 2 ^ 148) ∧
      (f32Units 0xC2FEFFFF#32 ≤ f32Units (convV r g b) ∧ f32Units (convV r g b) ≤ 255 * 2 ^ 148) ∧
      (-128 * 2 ^ 149 ≤ f32Units (convG g) ∧ f32Units (convG g) ≤ 127 * 2 ^ 149)) ∧
    f32Units (convY 0#8 0#8 0#8) = -128 * 2 ^ 149 ∧
    f32Units (convY 255#8 255#8 255#8) = 127 * 2 ^ 149 ∧
    f32Units (convU 0#8 0#8 255#8) = 255 * 2 ^ 148 ∧
    f32Units (convU 255#8 255#8 0#8) = -255 * 2 ^ 148 ∧
    f32Units (convV 255#8 0#8 0#8) = 255 * 2 ^ 148 ∧
    convV 0#8 255#8 255#8 = 0xC2FEFFFF#32

/-- R85, R86, R88, R49: later blocks win where blocks overlap, and a destination that overlaps a source
is computed from pre-command samples. The launch premises of R117 (D27) are assumed of the platform and stand in no hypothesis (log
entry 11). -/
def Obligations.CvtcCompletes : Prop :=
  ∀ s : State, s.mem.wf →
    CvLegal s [s.cvSrcR, s.cvSrcG, s.cvSrcB] [s.cvDstY, s.cvDstU, s.cvDstV] →
    ReadsAllowed s [s.cvSrcR, s.cvSrcG, s.cvSrcB] →
    WritesAllowed s [s.cvDstY, s.cvDstU, s.cvDstV] →
    ∃ m : Memory, exec .cvtc s = .next { s with mem := m } ∧ m.wf ∧
      ∀ a : Nat,
        let r := fun i j => s.mem.read (pixelAddr s s.cvSrcR i j)
        let g := fun i j => s.mem.read (pixelAddr s s.cvSrcG i j)
        let b := fun i j => s.mem.read (pixelAddr s s.cvSrcB i j)
        m.read a =
          if InBlock s s.cvDstV a then
            blockByte s s.cvDstV (fun i j => convV (r i j) (g i j) (b i j)) a
          else if InBlock s s.cvDstU a then
            blockByte s s.cvDstU (fun i j => convU (r i j) (g i j) (b i j)) a
          else if InBlock s s.cvDstY a then
            blockByte s s.cvDstY (fun i j => convY (r i j) (g i j) (b i j)) a
          else s.mem.read a

/-- R89, R85, R86. The launch premises of R117 (D27) are assumed of the platform (log entry 11). -/
def Obligations.CvtgCompletes : Prop :=
  ∀ s : State, s.mem.wf → CvLegal s [s.cvSrcG] [s.cvDstY] → ReadsAllowed s [s.cvSrcG] →
    WritesAllowed s [s.cvDstY] →
    ∃ m : Memory, exec .cvtg s = .next { s with mem := m } ∧ m.wf ∧
      ∀ a : Nat, m.read a =
        if InBlock s s.cvDstY a then
          blockByte s s.cvDstY (fun i j => convG (s.mem.read (pixelAddr s s.cvSrcG i j))) a
        else s.mem.read a

/-- R87, R102. -/
def Obligations.ConversionChecks : Prop :=
  ∀ s : State,
    (¬ CvParamOk s → exec .cvtc s = .next (faulted s 5#4 .cvtc) ∧
      exec .cvtg s = .next (faulted s 5#4 .cvtg)) ∧
    (CvParamOk s → ¬ CvAlignOk [s.cvDstY, s.cvDstU, s.cvDstV] →
      exec .cvtc s = .next (faulted s 7#4 .cvtc)) ∧
    (CvParamOk s → ¬ CvAlignOk [s.cvDstY] → exec .cvtg s = .next (faulted s 7#4 .cvtg)) ∧
    (CvParamOk s → CvAlignOk [s.cvDstY, s.cvDstU, s.cvDstV] →
      ¬ CvAddrOk s [s.cvSrcR, s.cvSrcG, s.cvSrcB] [s.cvDstY, s.cvDstU, s.cvDstV] →
      exec .cvtc s = .next (faulted s 6#4 .cvtc)) ∧
    (CvParamOk s → CvAlignOk [s.cvDstY] → ¬ CvAddrOk s [s.cvSrcG] [s.cvDstY] →
      exec .cvtg s = .next (faulted s 6#4 .cvtg))

/-- R48, R99, R102. -/
def Obligations.FailedReadLeavesMemory : Prop :=
  ∀ s : State,
    (CvLegal s [s.cvSrcR, s.cvSrcG, s.cvSrcB] [s.cvDstY, s.cvDstU, s.cvDstV] →
      ¬ ReadsAllowed s [s.cvSrcR, s.cvSrcG, s.cvSrcB] →
      exec .cvtc s = .next (faulted s 8#4 .cvtc)) ∧
    (CvLegal s [s.cvSrcG] [s.cvDstY] → ¬ ReadsAllowed s [s.cvSrcG] →
      exec .cvtg s = .next (faulted s 8#4 .cvtg))

/-- R48, R99. The bytes inside are free values, so no clause speaks of them. -/
def Obligations.FailedWriteSpoilsOnlyTheBlocks : Prop :=
  ∀ s : State, s.mem.wf →
    (CvLegal s [s.cvSrcR, s.cvSrcG, s.cvSrcB] [s.cvDstY, s.cvDstU, s.cvDstV] →
      ReadsAllowed s [s.cvSrcR, s.cvSrcG, s.cvSrcB] →
      ¬ WritesAllowed s [s.cvDstY, s.cvDstU, s.cvDstV] →
      ∃ (m : Memory) (k : Nat),
        exec .cvtc s = .next { faulted s 8#4 .cvtc with mem := m, draws := k } ∧ m.wf ∧
        ∀ a, ¬ InBlock s s.cvDstY a → ¬ InBlock s s.cvDstU a → ¬ InBlock s s.cvDstV a →
          m.read a = s.mem.read a) ∧
    (CvLegal s [s.cvSrcG] [s.cvDstY] → ReadsAllowed s [s.cvSrcG] → ¬ WritesAllowed s [s.cvDstY] →
      ∃ (m : Memory) (k : Nat),
        exec .cvtg s = .next { faulted s 8#4 .cvtg with mem := m, draws := k } ∧ m.wf ∧
        ∀ a, ¬ InBlock s s.cvDstY a → m.read a = s.mem.read a)

/-- R85, R49: the outputs are a function of the source bytes. The launch premises of R117 (D27) are assumed of the platform
(log entry 11). -/
def Obligations.ConversionDependsOnItsSamples : Prop :=
  ∀ (s : State) (m' : Memory), s.mem.wf → m'.wf →
    (∀ t u : State, CvLegal s [s.cvSrcR, s.cvSrcG, s.cvSrcB] [s.cvDstY, s.cvDstU, s.cvDstV] →
      ReadsAllowed s [s.cvSrcR, s.cvSrcG, s.cvSrcB] →
      WritesAllowed s [s.cvDstY, s.cvDstU, s.cvDstV] →
      (∀ src ∈ [s.cvSrcR, s.cvSrcG, s.cvSrcB], ∀ i < s.cvN.toNat, ∀ j < s.cvN.toNat,
        s.mem.read (pixelAddr s src i j) = m'.read (pixelAddr s src i j)) →
      exec .cvtc s = .next t → exec .cvtc { s with mem := m' } = .next u →
      ∀ a, (InBlock s s.cvDstY a ∨ InBlock s s.cvDstU a ∨ InBlock s s.cvDstV a) →
        t.mem.read a = u.mem.read a) ∧
    ∀ t u : State, CvLegal s [s.cvSrcG] [s.cvDstY] → ReadsAllowed s [s.cvSrcG] →
      WritesAllowed s [s.cvDstY] →
      (∀ i < s.cvN.toNat, ∀ j < s.cvN.toNat,
        s.mem.read (pixelAddr s s.cvSrcG i j) = m'.read (pixelAddr s s.cvSrcG i j)) →
      exec .cvtg s = .next t → exec .cvtg { s with mem := m' } = .next u →
      ∀ a, InBlock s s.cvDstY a → t.mem.read a = u.mem.read a

/-- R97, R99: faults are precise for all state of the block. Of `exec`, so it takes in halted states (log entry 15) and
ill-formed `PUSHI` terms (log entry 16), which `exec` never meets in a run. -/
def Obligations.FaultsArePrecise : Prop :=
  ∀ (i : Instr) (s : State), ∃ t : State, exec i s = .next t ∧
    ((t.halt = s.halt ∧ t.fcause = s.fcause ∧ t.fcmd = s.fcmd) ∨
      ∃ (code : BitVec 4) (m : Memory) (k : Nat), code ∈ faultCodes i ∧
        t = { faulted s code i with mem := m, draws := k } ∧
        (code ≠ 8#4 → m = s.mem ∧ k = s.draws))

/-- R31, R34, R36, R41. -/
def Obligations.CommandsLeaveHostState : Prop :=
  ∀ (i : Instr) (s t : State), exec i s = .next t →
    t.build = s.build ∧ t.rsv = s.rsv ∧ t.cvSrcR = s.cvSrcR ∧ t.cvSrcG = s.cvSrcG ∧
    t.cvSrcB = s.cvSrcB ∧ t.cvStride = s.cvStride ∧ t.cvH = s.cvH ∧ t.cvW = s.cvW ∧
    t.cvN = s.cvN ∧ t.cvDstY = s.cvDstY ∧ t.cvDstU = s.cvDstU ∧ t.cvDstV = s.cvDstV ∧
    t.pending = s.pending ∧ t.replies = s.replies ∧
    (i ≠ .cvtc → i ≠ .cvtg → t.mem = s.mem ∧ t.draws = s.draws)

/-- R43, R11. -/
def Obligations.MemoryIsLittleEndian : Prop :=
  ∀ (m : Memory) (a : Nat) (v : Word), m.wf →
    (∀ k < 4, (m.writeWord a v).read (a + k) = v.extractLsb' (8 * k) 8) ∧
    (∀ x, (x < a ∨ a + 4 ≤ x) → (m.writeWord a v).read x = m.read x) ∧
    (m.writeWord a v).readWord a = v ∧ (m.writeWord a v).wf

/-- R41, R50. -/
def Obligations.HostMemoryAccess : Prop :=
  ∀ (s : State) (a : Nat) (v : Byte) (rest : List HostOp), s.mem.wf →
    (a < 2 ^ 32 →
      (∃ m : Memory, step { s with pending := .memWr a v :: rest } =
          .next { s with pending := rest, mem := m } ∧
        ∀ x, m.read x = if x = a then v else s.mem.read x) ∧
      step { s with pending := .memRd a :: rest } =
        .next { s with
          pending := rest
          replies := BitVec.ofNat 32 (s.mem.read a).toNat :: s.replies }) ∧
    (2 ^ 32 ≤ a →
      step { s with pending := .memWr a v :: rest } = .fault .noSuchAddress ∧
        step { s with pending := .memRd a :: rest } = .fault .noSuchAddress)

/-- R18, R19, R20, R28, R29, R40. -/
def Obligations.ResetMeetsTheMachineRules : Prop :=
  State.reset.inv

/-- R19, R20, R28, R29, R97, R41. -/
def Obligations.StepKeepsTheMachineRules : Prop :=
  ∀ s t : State, s.inv → step s = .next t → t.inv
end

