-- ==== Sys2Proof/Laws/Codes.lean ====
section
/-! SUPPORT. The small lemmas of the magnitude code, the code tables and the packing of a group. -/

namespace Sys2Proof.Machine

/-- `bitlen(n)` is a `k` with `n < 2^k` (R10). -/
theorem lt_two_pow_bitLen (n : Nat) : n < 2 ^ bitLen n := by
  unfold bitLen
  split
  · rename_i h
    simp [h]
  · exact Nat.lt_log2_self

/-- `bitlen(n)` is the least such `k` (R10). -/
theorem two_pow_bitLen_pred_le {n : Nat} (h : n ≠ 0) : 2 ^ (bitLen n - 1) ≤ n := by
  simp only [bitLen, if_neg h, Nat.add_sub_cancel]
  exact Nat.log2_self_le h

/-- The category of a 16-bit value is at most 16 (R72). -/
theorem category_le {v : Int} (h1 : -32768 ≤ v) (h2 : v ≤ 32767) : category v ≤ 16 := by
  unfold category bitLen
  split
  · omega
  · have : v.natAbs.log2 < 16 := (Nat.log2_lt (by omega)).2 (by omega)
    omega

/-- The mask keeps the bits below the category (R71). -/
theorem magBits_lt (v : Int) : magBits v < 2 ^ category v := by
  unfold magBits
  have h1 := Int.emod_lt_of_pos (if 0 ≤ v then v else v - 1)
    (b := ((2 ^ category v : Nat) : Int)) (by positivity)
  have h2 := Int.emod_nonneg (if 0 ≤ v then v else v - 1)
    (b := ((2 ^ category v : Nat) : Int)) (by positivity)
  omega

/-- An entry found is an entry listed. -/
theorem findEntry_mem {es : List (Nat × Group)} {s : Nat} {g : Group} (h : findEntry es s = some g) :
    (s, g) ∈ es := by
  induction es with
  | nil => simp [findEntry] at h
  | cons e es ih =>
    obtain ⟨v, g'⟩ := e
    simp only [findEntry] at h
    split at h
    · rename_i hv
      cases h
      simp [hv]
    · exact List.mem_cons_of_mem _ (ih h)

/-- A packed group, as a number (R13). -/
theorem packGroup_toNat (g : Group) :
    (packGroup g).toNat = g.len.toNat * 2 ^ 16 + g.value.toNat := by
  have h : g.value.toNat < 2 ^ 16 := g.value.isLt
  have hl : g.len.toNat < 2 ^ 5 := g.len.isLt
  have hor := Nat.shiftLeft_add_eq_or_of_lt h g.len.toNat
  rw [Nat.shiftLeft_eq] at hor
  rw [hor]
  simp only [packGroup, BitVec.toNat_or, BitVec.toNat_shiftLeft, BitVec.toNat_setWidth,
    Nat.shiftLeft_eq, Nat.pow_zero, Nat.mul_one]
  rw [Nat.mod_eq_of_lt (by omega : g.len.toNat < 2 ^ 32), Nat.mod_mod,
    Nat.mod_eq_of_lt (by omega : g.value.toNat < 2 ^ 32), Nat.mod_eq_of_lt (by omega)]

end Sys2Proof.Machine
end

