-- ==== Sys2Proof/Laws/Memory.lean ====
section
/-! SUPPORT. Data memory: what a read sees after a write, and that every memory operation keeps the canonical
form and the data space. -/

namespace Sys2Proof.Machine

/-- No entry of a list whose addresses lie above `a` is at `a`. -/
theorem Memory.read_of_forall_lt {m : Memory} {a : Nat} (h : ∀ c ∈ m, a < c.1) :
    m.read a = Config.unlistedByte := by
  induction m with
  | nil => rfl
  | cons c m ih =>
    obtain ⟨k, b⟩ := c
    have hk : a < k := h (k, b) (by simp)
    simp only [Memory.read, if_neg hk.ne]
    exact ih fun c hc => h c (by simp [hc])

theorem Memory.wf_tail {c : Host.Cell} {m : Memory} (h : Memory.wf (c :: m)) : Memory.wf m :=
  ⟨(List.pairwise_cons.1 h.1).2, fun d hd => h.2 d (by simp [hd])⟩

theorem Memory.wf_head_lt {c : Host.Cell} {m : Memory} (h : Memory.wf (c :: m)) :
    ∀ d ∈ m, c.1 < d.1 := (List.pairwise_cons.1 h.1).1

theorem Memory.wf_cons {a : Nat} {b : Byte} {m : Memory} (hm : m.wf) (h : ∀ c ∈ m, a < c.1) :
    (Memory.cons a b m).wf := by
  unfold Memory.cons
  split
  · exact hm
  · rename_i hb
    refine ⟨List.pairwise_cons.2 ⟨fun c hc => h c hc, hm.1⟩, fun c hc => ?_⟩
    rcases List.mem_cons.1 hc with rfl | hc
    · exact hb
    · exact hm.2 c hc

theorem Memory.read_cons_op {a : Nat} {b : Byte} {m : Memory} (h : ∀ c ∈ m, a < c.1) (x : Nat) :
    (Memory.cons a b m).read x = if x = a then b else m.read x := by
  unfold Memory.cons
  split
  · rename_i hb
    split
    · rename_i hx
      rw [hx, Memory.read_of_forall_lt h, hb]
    · rfl
  · rfl

/-- The addresses listed after a write are the written one and the old ones. -/
theorem Memory.mem_write {m : Memory} {a : Nat} {b : Byte} {c : Host.Cell} (h : c ∈ m.write a b) :
    c.1 = a ∨ c ∈ m := by
  induction m with
  | nil =>
    simp only [Memory.write, Memory.cons] at h
    split at h
    · simp at h
    · simp only [List.mem_singleton] at h
      exact .inl (by rw [h])
  | cons d m ih =>
    obtain ⟨k, e⟩ := d
    simp only [Memory.write, Memory.cons] at h
    split at h
    · split at h
      · exact .inr h
      · rcases List.mem_cons.1 h with rfl | h
        · exact .inl rfl
        · exact .inr h
    · split at h
      · split at h
        · exact .inr (List.mem_cons_of_mem _ h)
        · rcases List.mem_cons.1 h with rfl | h
          · exact .inl rfl
          · exact .inr (List.mem_cons_of_mem _ h)
      · rcases List.mem_cons.1 h with rfl | h
        · exact .inr (by simp)
        · rcases ih h with h | h
          · exact .inl h
          · exact .inr (List.mem_cons_of_mem _ h)

/-- A write keeps the canonical form. -/
theorem Memory.write_wf {m : Memory} (hm : m.wf) (a : Nat) (b : Byte) : (m.write a b).wf := by
  induction m with
  | nil => exact Memory.wf_cons hm (by simp)
  | cons c m ih =>
    obtain ⟨k, e⟩ := c
    have hlt := Memory.wf_head_lt hm
    have htl := Memory.wf_tail hm
    simp only [Memory.write]
    split
    · rename_i ha
      refine Memory.wf_cons hm fun d hd => ?_
      rcases List.mem_cons.1 hd with rfl | hd
      · exact ha
      · exact ha.trans (hlt d hd)
    · split
      · rename_i _ ha
        subst ha
        exact Memory.wf_cons htl hlt
      · rename_i h1 h2
        have ih := ih htl
        refine ⟨List.pairwise_cons.2 ⟨fun d hd => ?_, ih.1⟩, fun d hd => ?_⟩
        · rcases Memory.mem_write hd with h | h
          · show k < d.1
            omega
          · exact hlt d h
        · rcases List.mem_cons.1 hd with rfl | hd
          · exact hm.2 (k, e) (by simp)
          · exact ih.2 d hd

/-- Reading after a write: the written byte at its address, every other byte as before. -/
theorem Memory.read_write {m : Memory} (hm : m.wf) (a x : Nat) (b : Byte) :
    (m.write a b).read x = if x = a then b else m.read x := by
  induction m with
  | nil => exact Memory.read_cons_op (by simp) x
  | cons c m ih =>
    obtain ⟨k, e⟩ := c
    have hlt := Memory.wf_head_lt hm
    simp only [Memory.write]
    split
    · rename_i ha
      refine Memory.read_cons_op (fun d hd => ?_) x
      rcases List.mem_cons.1 hd with rfl | hd
      · exact ha
      · exact ha.trans (hlt d hd)
    · split
      · rename_i _ ha
        subst ha
        rw [Memory.read_cons_op hlt]
        split
        · rfl
        · rename_i hx
          simp only [Memory.read, if_neg hx]
      · rename_i h1 h2
        simp only [Memory.read, ih (Memory.wf_tail hm)]
        by_cases hxk : x = k
        · have : x ≠ a := by omega
          simp [hxk, show ¬ k = a by omega]
        · simp [hxk]

theorem Memory.writeBytes_wf {m : Memory} (hm : m.wf) (a : Nat) (bs : List Byte) :
    (m.writeBytes a bs).wf := by
  induction bs generalizing m a with
  | nil => exact hm
  | cons b bs ih => exact ih (Memory.write_wf hm a b) (a + 1)

/-- Reading after bytes were stored at `a, a + 1, …`. -/
theorem Memory.read_writeBytes {m : Memory} (hm : m.wf) (a x : Nat) (bs : List Byte) :
    (m.writeBytes a bs).read x =
      if a ≤ x ∧ x < a + bs.length then bs.getD (x - a) Config.unlistedByte else m.read x := by
  induction bs generalizing m a with
  | nil => simp [Memory.writeBytes, show ¬ (a ≤ x ∧ x < a) by omega]
  | cons b bs ih =>
    simp only [Memory.writeBytes, ih (Memory.write_wf hm a b) (a + 1), Memory.read_write hm,
      List.length_cons]
    by_cases hxa : x = a
    · subst hxa
      simp
    · by_cases hin : a + 1 ≤ x ∧ x < a + 1 + bs.length
      · have h2 : a ≤ x ∧ x < a + (bs.length + 1) := by omega
        have h3 : x - a = (x - (a + 1)) + 1 := by omega
        simp [hin, h2, h3]
      · have h2 : ¬ (a ≤ x ∧ x < a + (bs.length + 1)) := by omega
        rw [if_neg hin, if_neg h2, if_neg hxa]

/-- The addresses listed after bytes were stored. -/
theorem Memory.mem_writeBytes {m : Memory} {a : Nat} {bs : List Byte} {c : Host.Cell}
    (h : c ∈ m.writeBytes a bs) : (a ≤ c.1 ∧ c.1 < a + bs.length) ∨ c ∈ m := by
  induction bs generalizing m a with
  | nil => exact .inr h
  | cons b bs ih =>
    simp only [List.length_cons]
    rcases ih h with h | h
    · exact .inl (by omega)
    · rcases Memory.mem_write h with h | h
      · exact .inl (by omega)
      · exact .inr h

theorem Memory.writeWord_wf {m : Memory} (hm : m.wf) (a : Nat) (v : Word) : (m.writeWord a v).wf :=
  Memory.writeBytes_wf hm a _

/-- Little-endian (R43): byte `k` of the word is at `a + k`. -/
theorem Memory.read_writeWord {m : Memory} (hm : m.wf) (a x : Nat) (v : Word) :
    (m.writeWord a v).read x = if a ≤ x ∧ x < a + 4 then wordByte v (x - a) else m.read x := by
  rw [Memory.writeWord, Memory.read_writeBytes hm]
  by_cases h : a ≤ x ∧ x < a + 4
  · obtain ⟨k, hk, rfl⟩ : ∃ k, k < 4 ∧ x = a + k := ⟨x - a, by omega, by omega⟩
    interval_cases k <;> simp
  · simp [h]

/-- Canonical memories that read alike are equal. -/
theorem Memory.ext_read {m m' : Memory} (hm : m.wf) (hm' : m'.wf) (h : ∀ a, m.read a = m'.read a) :
    m = m' := by
  induction m generalizing m' with
  | nil =>
    cases m' with
    | nil => rfl
    | cons c m' =>
      have h1 := h c.1
      simp only [Memory.read, if_true] at h1
      exact absurd h1.symm (hm'.2 c (by simp))
  | cons c m ih =>
    cases m' with
    | nil =>
      have h1 := h c.1
      simp only [Memory.read, if_true] at h1
      exact absurd h1 (hm.2 c (by simp))
    | cons d m' =>
      obtain ⟨k, b⟩ := c
      obtain ⟨l, e⟩ := d
      have hk := Memory.wf_head_lt hm
      have hl := Memory.wf_head_lt hm'
      have hkl : k = l := by
        rcases Nat.lt_trichotomy k l with hlt | heq | hgt
        · have h1 := h k
          rw [Memory.read_of_forall_lt (m := (l, e) :: m') (fun d hd => by
            rcases List.mem_cons.1 hd with rfl | hd
            · exact hlt
            · exact hlt.trans (hl d hd))] at h1
          simp only [Memory.read, if_true] at h1
          exact absurd h1 (hm.2 (k, b) (by simp))
        · exact heq
        · have h1 := h l
          rw [Memory.read_of_forall_lt (m := (k, b) :: m) (fun d hd => by
            rcases List.mem_cons.1 hd with rfl | hd
            · exact hgt
            · exact hgt.trans (hk d hd))] at h1
          simp only [Memory.read, if_true] at h1
          exact absurd h1.symm (hm'.2 (l, e) (by simp))
      subst hkl
      have hb : b = e := by simpa [Memory.read] using h k
      subst hb
      rw [ih (Memory.wf_tail hm) (Memory.wf_tail hm') fun a => ?_]
      by_cases hak : a = k
      · rw [hak, Memory.read_of_forall_lt hk, Memory.read_of_forall_lt hl]
      · simpa [Memory.read, hak] using h a

/-! ### Output blocks -/

/-- The words of a list of positions, written in order. -/
theorem writeBlock_wf {m : Memory} (hm : m.wf) (dst : Word) (n : Nat) (f : Nat → Nat → F32) :
    (writeBlock m dst n f).wf := by
  unfold writeBlock
  generalize blockPositions n = ps
  induction ps generalizing m with
  | nil => exact hm
  | cons p ps ih => exact ih (Memory.writeWord_wf hm _ _)

/-- The positions of a block. -/
@[simp] theorem mem_blockPositions {n i j : Nat} : (i, j) ∈ blockPositions n ↔ i < n ∧ j < n := by
  simp [blockPositions]

/-- A byte listed after a block was written lies in the block or was listed before. -/
theorem mem_writeBlock {m : Memory} {dst : Word} {n : Nat} {f : Nat → Nat → F32} {c : Host.Cell}
    (h : c ∈ writeBlock m dst n f) :
    (dst.toNat ≤ c.1 ∧ c.1 < dst.toNat + 4 * (n * n)) ∨ c ∈ m := by
  have main : ∀ ps : List (Nat × Nat), (∀ p ∈ ps, p.1 < n ∧ p.2 < n) → ∀ m : Memory,
      c ∈ ps.foldl (fun m p => m.writeWord (elemAddr dst n p.1 p.2) (f p.1 p.2)) m →
      (dst.toNat ≤ c.1 ∧ c.1 < dst.toNat + 4 * (n * n)) ∨ c ∈ m := by
    intro ps
    induction ps with
    | nil => exact fun _ m h => .inr h
    | cons p ps ih =>
      intro hp m h
      rcases ih (fun q hq => hp q (by simp [hq])) _ h with h | h
      · exact .inl h
      · rcases Memory.mem_writeBytes h with h | h
        · obtain ⟨h1, h2⟩ := hp p (by simp)
          have : n * p.1 + p.2 < n * n := by nlinarith
          simp only [elemAddr, List.length_cons, List.length_nil] at h
          exact .inl (by omega)
        · exact .inr h
  exact main (blockPositions n) (fun p hp => by
    obtain ⟨i, j⟩ := p
    simpa using hp) m h

/-- The element of a block that holds byte `a`. -/
theorem elemAddr_covers {dst : Word} {n i j a : Nat} (hj : j < n) :
    (elemAddr dst n i j ≤ a ∧ a < elemAddr dst n i j + 4) ↔
      dst.toNat ≤ a ∧ i = (a - dst.toNat) / 4 / n ∧ j = (a - dst.toNat) / 4 % n := by
  have hn : 0 < n := by omega
  unfold elemAddr
  constructor
  · rintro ⟨h1, h2⟩
    have he : (a - dst.toNat) / 4 = n * i + j := by omega
    refine ⟨by omega, ?_, ?_⟩
    · rw [he, Nat.mul_add_div hn, Nat.div_eq_of_lt hj, Nat.add_zero]
    · rw [he, Nat.mul_add_mod, Nat.mod_eq_of_lt hj]
  · rintro ⟨h0, h1, h2⟩
    have he := Nat.div_add_mod ((a - dst.toNat) / 4) n
    rw [← h1, ← h2] at he
    omega

/-- Reading after a block was written (R43, R86): byte `k` of element `(i, j)` in the block, every
other byte as before. -/
theorem read_writeBlock {m : Memory} (hm : m.wf) (dst : Word) (n : Nat) (f : Nat → Nat → F32)
    (a : Nat) :
    (writeBlock m dst n f).read a =
      if dst.toNat ≤ a ∧ a < dst.toNat + 4 * (n * n) then
        wordByte (f ((a - dst.toNat) / 4 / n) ((a - dst.toNat) / 4 % n)) ((a - dst.toNat) % 4)
      else m.read a := by
  generalize hi : (a - dst.toNat) / 4 / n = i
  generalize hj : (a - dst.toNat) / 4 % n = j
  have main : ∀ ps : List (Nat × Nat), (∀ p ∈ ps, p.1 < n ∧ p.2 < n) → ∀ m : Memory, m.wf →
      Memory.read (ps.foldl (fun m p => m.writeWord (elemAddr dst n p.1 p.2) (f p.1 p.2)) m) a =
        if (i, j) ∈ ps ∧ dst.toNat ≤ a then wordByte (f i j) ((a - dst.toNat) % 4)
        else m.read a := by
    intro ps
    induction ps with
    | nil => simp
    | cons p ps ih =>
      intro hp m hm
      rw [List.foldl_cons, ih (fun q hq => hp q (by simp [hq])) _ (Memory.writeWord_wf hm _ _),
        Memory.read_writeWord hm]
      have hcov := elemAddr_covers (dst := dst) (i := p.1) (a := a) (hp p (by simp)).2
      rw [hi, hj] at hcov
      by_cases hin : (i, j) ∈ ps ∧ dst.toNat ≤ a
      · rw [if_pos hin, if_pos ⟨by simp [hin.1], hin.2⟩]
      · rw [if_neg hin]
        by_cases hq : (i, j) = p ∧ dst.toNat ≤ a
        · obtain ⟨rfl, ha⟩ := hq
          have hc := hcov.2 ⟨ha, rfl, rfl⟩
          rw [if_pos hc, if_pos ⟨by simp, ha⟩]
          congr 1
          simp only [elemAddr] at hc ⊢
          omega
        · have hne : ¬ (elemAddr dst n p.1 p.2 ≤ a ∧ a < elemAddr dst n p.1 p.2 + 4) := fun hc =>
            hq ⟨Prod.ext (hcov.1 hc).2.1.symm (hcov.1 hc).2.2.symm, (hcov.1 hc).1⟩
          have hnp : ¬ ((i, j) ∈ p :: ps ∧ dst.toNat ≤ a) := by
            rintro ⟨h1, h2⟩
            rcases List.mem_cons.1 h1 with h1 | h1
            · exact hq ⟨h1, h2⟩
            · exact hin ⟨h1, h2⟩
          rw [if_neg hne, if_neg hnp]
  rw [writeBlock, main (blockPositions n) (fun p hp => by
    obtain ⟨x, y⟩ := p
    simpa using hp) m hm]
  have hiff : ((i < n ∧ j < n) ∧ dst.toNat ≤ a) ↔
      (dst.toNat ≤ a ∧ a < dst.toNat + 4 * (n * n)) := by
    subst hi hj
    constructor
    · rintro ⟨⟨h1, h2⟩, h3⟩
      have hlt : (a - dst.toNat) / 4 < n * n := (Nat.div_lt_iff_lt_mul (by omega)).1 h1
      omega
    · rintro ⟨h1, h2⟩
      have hn : 0 < n := by
        rcases Nat.eq_zero_or_pos n with rfl | hn
        · omega
        · exact hn
      have hlt : (a - dst.toNat) / 4 < n * n := by omega
      exact ⟨⟨(Nat.div_lt_iff_lt_mul hn).2 hlt, Nat.mod_lt _ hn⟩, h1⟩
  simp only [mem_blockPositions, hiff]

end Sys2Proof.Machine
end

