-- ==== Sys2Proof/Laws/State.lean ====
section
/-! SUPPORT. One lemma per field per named update of the state, so that no proof unfolds a record update. -/

namespace Sys2Proof.Machine

variable (s : State)

/-! ### State.withRes -/

@[simp] theorem State.withRes_build (g : Group) : (s.withRes g).build = s.build := rfl
@[simp] theorem State.withRes_size (g : Group) : (s.withRes g).size = s.size := rfl
@[simp] theorem State.withRes_sb (g : Group) : (s.withRes g).sb = s.sb := rfl
@[simp] theorem State.withRes_rsv (g : Group) : (s.withRes g).rsv = s.rsv := rfl
@[simp] theorem State.withRes_halt (g : Group) : (s.withRes g).halt = s.halt := rfl
@[simp] theorem State.withRes_fcause (g : Group) : (s.withRes g).fcause = s.fcause := rfl
@[simp] theorem State.withRes_fcmd (g : Group) : (s.withRes g).fcmd = s.fcmd := rfl
@[simp] theorem State.withRes_res (g : Group) : (s.withRes g).res = g := rfl
@[simp] theorem State.withRes_zres (g : Group) : (s.withRes g).zres = s.zres := rfl
@[simp] theorem State.withRes_cvSrcR (g : Group) : (s.withRes g).cvSrcR = s.cvSrcR := rfl
@[simp] theorem State.withRes_cvSrcG (g : Group) : (s.withRes g).cvSrcG = s.cvSrcG := rfl
@[simp] theorem State.withRes_cvSrcB (g : Group) : (s.withRes g).cvSrcB = s.cvSrcB := rfl
@[simp] theorem State.withRes_cvStride (g : Group) : (s.withRes g).cvStride = s.cvStride := rfl
@[simp] theorem State.withRes_cvH (g : Group) : (s.withRes g).cvH = s.cvH := rfl
@[simp] theorem State.withRes_cvW (g : Group) : (s.withRes g).cvW = s.cvW := rfl
@[simp] theorem State.withRes_cvN (g : Group) : (s.withRes g).cvN = s.cvN := rfl
@[simp] theorem State.withRes_cvDstY (g : Group) : (s.withRes g).cvDstY = s.cvDstY := rfl
@[simp] theorem State.withRes_cvDstU (g : Group) : (s.withRes g).cvDstU = s.cvDstU := rfl
@[simp] theorem State.withRes_cvDstV (g : Group) : (s.withRes g).cvDstV = s.cvDstV := rfl
@[simp] theorem State.withRes_mem (g : Group) : (s.withRes g).mem = s.mem := rfl
@[simp] theorem State.withRes_pending (g : Group) : (s.withRes g).pending = s.pending := rfl
@[simp] theorem State.withRes_replies (g : Group) : (s.withRes g).replies = s.replies := rfl
@[simp] theorem State.withRes_draws (g : Group) : (s.withRes g).draws = s.draws := rfl

/-! ### State.withZres -/

@[simp] theorem State.withZres_build (z : BitVec 6) : (s.withZres z).build = s.build := rfl
@[simp] theorem State.withZres_size (z : BitVec 6) : (s.withZres z).size = s.size := rfl
@[simp] theorem State.withZres_sb (z : BitVec 6) : (s.withZres z).sb = s.sb := rfl
@[simp] theorem State.withZres_rsv (z : BitVec 6) : (s.withZres z).rsv = s.rsv := rfl
@[simp] theorem State.withZres_halt (z : BitVec 6) : (s.withZres z).halt = s.halt := rfl
@[simp] theorem State.withZres_fcause (z : BitVec 6) : (s.withZres z).fcause = s.fcause := rfl
@[simp] theorem State.withZres_fcmd (z : BitVec 6) : (s.withZres z).fcmd = s.fcmd := rfl
@[simp] theorem State.withZres_res (z : BitVec 6) : (s.withZres z).res = s.res := rfl
@[simp] theorem State.withZres_zres (z : BitVec 6) : (s.withZres z).zres = z := rfl
@[simp] theorem State.withZres_cvSrcR (z : BitVec 6) : (s.withZres z).cvSrcR = s.cvSrcR := rfl
@[simp] theorem State.withZres_cvSrcG (z : BitVec 6) : (s.withZres z).cvSrcG = s.cvSrcG := rfl
@[simp] theorem State.withZres_cvSrcB (z : BitVec 6) : (s.withZres z).cvSrcB = s.cvSrcB := rfl
@[simp] theorem State.withZres_cvStride (z : BitVec 6) : (s.withZres z).cvStride = s.cvStride := rfl
@[simp] theorem State.withZres_cvH (z : BitVec 6) : (s.withZres z).cvH = s.cvH := rfl
@[simp] theorem State.withZres_cvW (z : BitVec 6) : (s.withZres z).cvW = s.cvW := rfl
@[simp] theorem State.withZres_cvN (z : BitVec 6) : (s.withZres z).cvN = s.cvN := rfl
@[simp] theorem State.withZres_cvDstY (z : BitVec 6) : (s.withZres z).cvDstY = s.cvDstY := rfl
@[simp] theorem State.withZres_cvDstU (z : BitVec 6) : (s.withZres z).cvDstU = s.cvDstU := rfl
@[simp] theorem State.withZres_cvDstV (z : BitVec 6) : (s.withZres z).cvDstV = s.cvDstV := rfl
@[simp] theorem State.withZres_mem (z : BitVec 6) : (s.withZres z).mem = s.mem := rfl
@[simp] theorem State.withZres_pending (z : BitVec 6) : (s.withZres z).pending = s.pending := rfl
@[simp] theorem State.withZres_replies (z : BitVec 6) : (s.withZres z).replies = s.replies := rfl
@[simp] theorem State.withZres_draws (z : BitVec 6) : (s.withZres z).draws = s.draws := rfl

/-! ### State.withSize -/

@[simp] theorem State.withSize_build (n : BitVec 11) : (s.withSize n).build = s.build := rfl
@[simp] theorem State.withSize_size (n : BitVec 11) : (s.withSize n).size = n := rfl
@[simp] theorem State.withSize_sb (n : BitVec 11) : (s.withSize n).sb = s.sb := rfl
@[simp] theorem State.withSize_rsv (n : BitVec 11) : (s.withSize n).rsv = s.rsv := rfl
@[simp] theorem State.withSize_halt (n : BitVec 11) : (s.withSize n).halt = s.halt := rfl
@[simp] theorem State.withSize_fcause (n : BitVec 11) : (s.withSize n).fcause = s.fcause := rfl
@[simp] theorem State.withSize_fcmd (n : BitVec 11) : (s.withSize n).fcmd = s.fcmd := rfl
@[simp] theorem State.withSize_res (n : BitVec 11) : (s.withSize n).res = s.res := rfl
@[simp] theorem State.withSize_zres (n : BitVec 11) : (s.withSize n).zres = s.zres := rfl
@[simp] theorem State.withSize_cvSrcR (n : BitVec 11) : (s.withSize n).cvSrcR = s.cvSrcR := rfl
@[simp] theorem State.withSize_cvSrcG (n : BitVec 11) : (s.withSize n).cvSrcG = s.cvSrcG := rfl
@[simp] theorem State.withSize_cvSrcB (n : BitVec 11) : (s.withSize n).cvSrcB = s.cvSrcB := rfl
@[simp] theorem State.withSize_cvStride (n : BitVec 11) : (s.withSize n).cvStride = s.cvStride := rfl
@[simp] theorem State.withSize_cvH (n : BitVec 11) : (s.withSize n).cvH = s.cvH := rfl
@[simp] theorem State.withSize_cvW (n : BitVec 11) : (s.withSize n).cvW = s.cvW := rfl
@[simp] theorem State.withSize_cvN (n : BitVec 11) : (s.withSize n).cvN = s.cvN := rfl
@[simp] theorem State.withSize_cvDstY (n : BitVec 11) : (s.withSize n).cvDstY = s.cvDstY := rfl
@[simp] theorem State.withSize_cvDstU (n : BitVec 11) : (s.withSize n).cvDstU = s.cvDstU := rfl
@[simp] theorem State.withSize_cvDstV (n : BitVec 11) : (s.withSize n).cvDstV = s.cvDstV := rfl
@[simp] theorem State.withSize_mem (n : BitVec 11) : (s.withSize n).mem = s.mem := rfl
@[simp] theorem State.withSize_pending (n : BitVec 11) : (s.withSize n).pending = s.pending := rfl
@[simp] theorem State.withSize_replies (n : BitVec 11) : (s.withSize n).replies = s.replies := rfl
@[simp] theorem State.withSize_draws (n : BitVec 11) : (s.withSize n).draws = s.draws := rfl

/-! ### State.withMem -/

@[simp] theorem State.withMem_build (m : Memory) : (s.withMem m).build = s.build := rfl
@[simp] theorem State.withMem_size (m : Memory) : (s.withMem m).size = s.size := rfl
@[simp] theorem State.withMem_sb (m : Memory) : (s.withMem m).sb = s.sb := rfl
@[simp] theorem State.withMem_rsv (m : Memory) : (s.withMem m).rsv = s.rsv := rfl
@[simp] theorem State.withMem_halt (m : Memory) : (s.withMem m).halt = s.halt := rfl
@[simp] theorem State.withMem_fcause (m : Memory) : (s.withMem m).fcause = s.fcause := rfl
@[simp] theorem State.withMem_fcmd (m : Memory) : (s.withMem m).fcmd = s.fcmd := rfl
@[simp] theorem State.withMem_res (m : Memory) : (s.withMem m).res = s.res := rfl
@[simp] theorem State.withMem_zres (m : Memory) : (s.withMem m).zres = s.zres := rfl
@[simp] theorem State.withMem_cvSrcR (m : Memory) : (s.withMem m).cvSrcR = s.cvSrcR := rfl
@[simp] theorem State.withMem_cvSrcG (m : Memory) : (s.withMem m).cvSrcG = s.cvSrcG := rfl
@[simp] theorem State.withMem_cvSrcB (m : Memory) : (s.withMem m).cvSrcB = s.cvSrcB := rfl
@[simp] theorem State.withMem_cvStride (m : Memory) : (s.withMem m).cvStride = s.cvStride := rfl
@[simp] theorem State.withMem_cvH (m : Memory) : (s.withMem m).cvH = s.cvH := rfl
@[simp] theorem State.withMem_cvW (m : Memory) : (s.withMem m).cvW = s.cvW := rfl
@[simp] theorem State.withMem_cvN (m : Memory) : (s.withMem m).cvN = s.cvN := rfl
@[simp] theorem State.withMem_cvDstY (m : Memory) : (s.withMem m).cvDstY = s.cvDstY := rfl
@[simp] theorem State.withMem_cvDstU (m : Memory) : (s.withMem m).cvDstU = s.cvDstU := rfl
@[simp] theorem State.withMem_cvDstV (m : Memory) : (s.withMem m).cvDstV = s.cvDstV := rfl
@[simp] theorem State.withMem_mem (m : Memory) : (s.withMem m).mem = m := rfl
@[simp] theorem State.withMem_pending (m : Memory) : (s.withMem m).pending = s.pending := rfl
@[simp] theorem State.withMem_replies (m : Memory) : (s.withMem m).replies = s.replies := rfl
@[simp] theorem State.withMem_draws (m : Memory) : (s.withMem m).draws = s.draws := rfl

/-! ### State.withPending -/

@[simp] theorem State.withPending_build (ops : List HostOp) : (s.withPending ops).build = s.build := rfl
@[simp] theorem State.withPending_size (ops : List HostOp) : (s.withPending ops).size = s.size := rfl
@[simp] theorem State.withPending_sb (ops : List HostOp) : (s.withPending ops).sb = s.sb := rfl
@[simp] theorem State.withPending_rsv (ops : List HostOp) : (s.withPending ops).rsv = s.rsv := rfl
@[simp] theorem State.withPending_halt (ops : List HostOp) : (s.withPending ops).halt = s.halt := rfl
@[simp] theorem State.withPending_fcause (ops : List HostOp) : (s.withPending ops).fcause = s.fcause := rfl
@[simp] theorem State.withPending_fcmd (ops : List HostOp) : (s.withPending ops).fcmd = s.fcmd := rfl
@[simp] theorem State.withPending_res (ops : List HostOp) : (s.withPending ops).res = s.res := rfl
@[simp] theorem State.withPending_zres (ops : List HostOp) : (s.withPending ops).zres = s.zres := rfl
@[simp] theorem State.withPending_cvSrcR (ops : List HostOp) : (s.withPending ops).cvSrcR = s.cvSrcR := rfl
@[simp] theorem State.withPending_cvSrcG (ops : List HostOp) : (s.withPending ops).cvSrcG = s.cvSrcG := rfl
@[simp] theorem State.withPending_cvSrcB (ops : List HostOp) : (s.withPending ops).cvSrcB = s.cvSrcB := rfl
@[simp] theorem State.withPending_cvStride (ops : List HostOp) : (s.withPending ops).cvStride = s.cvStride := rfl
@[simp] theorem State.withPending_cvH (ops : List HostOp) : (s.withPending ops).cvH = s.cvH := rfl
@[simp] theorem State.withPending_cvW (ops : List HostOp) : (s.withPending ops).cvW = s.cvW := rfl
@[simp] theorem State.withPending_cvN (ops : List HostOp) : (s.withPending ops).cvN = s.cvN := rfl
@[simp] theorem State.withPending_cvDstY (ops : List HostOp) : (s.withPending ops).cvDstY = s.cvDstY := rfl
@[simp] theorem State.withPending_cvDstU (ops : List HostOp) : (s.withPending ops).cvDstU = s.cvDstU := rfl
@[simp] theorem State.withPending_cvDstV (ops : List HostOp) : (s.withPending ops).cvDstV = s.cvDstV := rfl
@[simp] theorem State.withPending_mem (ops : List HostOp) : (s.withPending ops).mem = s.mem := rfl
@[simp] theorem State.withPending_pending (ops : List HostOp) : (s.withPending ops).pending = ops := rfl
@[simp] theorem State.withPending_replies (ops : List HostOp) : (s.withPending ops).replies = s.replies := rfl
@[simp] theorem State.withPending_draws (ops : List HostOp) : (s.withPending ops).draws = s.draws := rfl

/-! ### State.withReply -/

@[simp] theorem State.withReply_build (w : Word) : (s.withReply w).build = s.build := rfl
@[simp] theorem State.withReply_size (w : Word) : (s.withReply w).size = s.size := rfl
@[simp] theorem State.withReply_sb (w : Word) : (s.withReply w).sb = s.sb := rfl
@[simp] theorem State.withReply_rsv (w : Word) : (s.withReply w).rsv = s.rsv := rfl
@[simp] theorem State.withReply_halt (w : Word) : (s.withReply w).halt = s.halt := rfl
@[simp] theorem State.withReply_fcause (w : Word) : (s.withReply w).fcause = s.fcause := rfl
@[simp] theorem State.withReply_fcmd (w : Word) : (s.withReply w).fcmd = s.fcmd := rfl
@[simp] theorem State.withReply_res (w : Word) : (s.withReply w).res = s.res := rfl
@[simp] theorem State.withReply_zres (w : Word) : (s.withReply w).zres = s.zres := rfl
@[simp] theorem State.withReply_cvSrcR (w : Word) : (s.withReply w).cvSrcR = s.cvSrcR := rfl
@[simp] theorem State.withReply_cvSrcG (w : Word) : (s.withReply w).cvSrcG = s.cvSrcG := rfl
@[simp] theorem State.withReply_cvSrcB (w : Word) : (s.withReply w).cvSrcB = s.cvSrcB := rfl
@[simp] theorem State.withReply_cvStride (w : Word) : (s.withReply w).cvStride = s.cvStride := rfl
@[simp] theorem State.withReply_cvH (w : Word) : (s.withReply w).cvH = s.cvH := rfl
@[simp] theorem State.withReply_cvW (w : Word) : (s.withReply w).cvW = s.cvW := rfl
@[simp] theorem State.withReply_cvN (w : Word) : (s.withReply w).cvN = s.cvN := rfl
@[simp] theorem State.withReply_cvDstY (w : Word) : (s.withReply w).cvDstY = s.cvDstY := rfl
@[simp] theorem State.withReply_cvDstU (w : Word) : (s.withReply w).cvDstU = s.cvDstU := rfl
@[simp] theorem State.withReply_cvDstV (w : Word) : (s.withReply w).cvDstV = s.cvDstV := rfl
@[simp] theorem State.withReply_mem (w : Word) : (s.withReply w).mem = s.mem := rfl
@[simp] theorem State.withReply_pending (w : Word) : (s.withReply w).pending = s.pending := rfl
@[simp] theorem State.withReply_replies (w : Word) : (s.withReply w).replies = w :: s.replies := rfl
@[simp] theorem State.withReply_draws (w : Word) : (s.withReply w).draws = s.draws := rfl

/-! ### State.withDraws -/

@[simp] theorem State.withDraws_build (k : Nat) : (s.withDraws k).build = s.build := rfl
@[simp] theorem State.withDraws_size (k : Nat) : (s.withDraws k).size = s.size := rfl
@[simp] theorem State.withDraws_sb (k : Nat) : (s.withDraws k).sb = s.sb := rfl
@[simp] theorem State.withDraws_rsv (k : Nat) : (s.withDraws k).rsv = s.rsv := rfl
@[simp] theorem State.withDraws_halt (k : Nat) : (s.withDraws k).halt = s.halt := rfl
@[simp] theorem State.withDraws_fcause (k : Nat) : (s.withDraws k).fcause = s.fcause := rfl
@[simp] theorem State.withDraws_fcmd (k : Nat) : (s.withDraws k).fcmd = s.fcmd := rfl
@[simp] theorem State.withDraws_res (k : Nat) : (s.withDraws k).res = s.res := rfl
@[simp] theorem State.withDraws_zres (k : Nat) : (s.withDraws k).zres = s.zres := rfl
@[simp] theorem State.withDraws_cvSrcR (k : Nat) : (s.withDraws k).cvSrcR = s.cvSrcR := rfl
@[simp] theorem State.withDraws_cvSrcG (k : Nat) : (s.withDraws k).cvSrcG = s.cvSrcG := rfl
@[simp] theorem State.withDraws_cvSrcB (k : Nat) : (s.withDraws k).cvSrcB = s.cvSrcB := rfl
@[simp] theorem State.withDraws_cvStride (k : Nat) : (s.withDraws k).cvStride = s.cvStride := rfl
@[simp] theorem State.withDraws_cvH (k : Nat) : (s.withDraws k).cvH = s.cvH := rfl
@[simp] theorem State.withDraws_cvW (k : Nat) : (s.withDraws k).cvW = s.cvW := rfl
@[simp] theorem State.withDraws_cvN (k : Nat) : (s.withDraws k).cvN = s.cvN := rfl
@[simp] theorem State.withDraws_cvDstY (k : Nat) : (s.withDraws k).cvDstY = s.cvDstY := rfl
@[simp] theorem State.withDraws_cvDstU (k : Nat) : (s.withDraws k).cvDstU = s.cvDstU := rfl
@[simp] theorem State.withDraws_cvDstV (k : Nat) : (s.withDraws k).cvDstV = s.cvDstV := rfl
@[simp] theorem State.withDraws_mem (k : Nat) : (s.withDraws k).mem = s.mem := rfl
@[simp] theorem State.withDraws_pending (k : Nat) : (s.withDraws k).pending = s.pending := rfl
@[simp] theorem State.withDraws_replies (k : Nat) : (s.withDraws k).replies = s.replies := rfl
@[simp] theorem State.withDraws_draws (k : Nat) : (s.withDraws k).draws = k := rfl

/-! ### State.withPushed -/

@[simp] theorem State.withPushed_build (gs : List Group) : (s.withPushed gs).build = s.build := rfl
@[simp] theorem State.withPushed_size (gs : List Group) : (s.withPushed gs).size = BitVec.ofNat 11 (s.size.toNat + gs.length) := rfl
@[simp] theorem State.withPushed_sb (gs : List Group) : (s.withPushed gs).sb = writeEntries s.sb s.size.toNat gs := rfl
@[simp] theorem State.withPushed_rsv (gs : List Group) : (s.withPushed gs).rsv = s.rsv := rfl
@[simp] theorem State.withPushed_halt (gs : List Group) : (s.withPushed gs).halt = s.halt := rfl
@[simp] theorem State.withPushed_fcause (gs : List Group) : (s.withPushed gs).fcause = s.fcause := rfl
@[simp] theorem State.withPushed_fcmd (gs : List Group) : (s.withPushed gs).fcmd = s.fcmd := rfl
@[simp] theorem State.withPushed_res (gs : List Group) : (s.withPushed gs).res = s.res := rfl
@[simp] theorem State.withPushed_zres (gs : List Group) : (s.withPushed gs).zres = s.zres := rfl
@[simp] theorem State.withPushed_cvSrcR (gs : List Group) : (s.withPushed gs).cvSrcR = s.cvSrcR := rfl
@[simp] theorem State.withPushed_cvSrcG (gs : List Group) : (s.withPushed gs).cvSrcG = s.cvSrcG := rfl
@[simp] theorem State.withPushed_cvSrcB (gs : List Group) : (s.withPushed gs).cvSrcB = s.cvSrcB := rfl
@[simp] theorem State.withPushed_cvStride (gs : List Group) : (s.withPushed gs).cvStride = s.cvStride := rfl
@[simp] theorem State.withPushed_cvH (gs : List Group) : (s.withPushed gs).cvH = s.cvH := rfl
@[simp] theorem State.withPushed_cvW (gs : List Group) : (s.withPushed gs).cvW = s.cvW := rfl
@[simp] theorem State.withPushed_cvN (gs : List Group) : (s.withPushed gs).cvN = s.cvN := rfl
@[simp] theorem State.withPushed_cvDstY (gs : List Group) : (s.withPushed gs).cvDstY = s.cvDstY := rfl
@[simp] theorem State.withPushed_cvDstU (gs : List Group) : (s.withPushed gs).cvDstU = s.cvDstU := rfl
@[simp] theorem State.withPushed_cvDstV (gs : List Group) : (s.withPushed gs).cvDstV = s.cvDstV := rfl
@[simp] theorem State.withPushed_mem (gs : List Group) : (s.withPushed gs).mem = s.mem := rfl
@[simp] theorem State.withPushed_pending (gs : List Group) : (s.withPushed gs).pending = s.pending := rfl
@[simp] theorem State.withPushed_replies (gs : List Group) : (s.withPushed gs).replies = s.replies := rfl
@[simp] theorem State.withPushed_draws (gs : List Group) : (s.withPushed gs).draws = s.draws := rfl

/-! ### raise -/

@[simp] theorem raise_build (c : Cause) (w : Word) : (raise s c w).build = s.build := rfl
@[simp] theorem raise_size (c : Cause) (w : Word) : (raise s c w).size = s.size := rfl
@[simp] theorem raise_sb (c : Cause) (w : Word) : (raise s c w).sb = s.sb := rfl
@[simp] theorem raise_rsv (c : Cause) (w : Word) : (raise s c w).rsv = s.rsv := rfl
@[simp] theorem raise_halt (c : Cause) (w : Word) : (raise s c w).halt = true := rfl
@[simp] theorem raise_fcause (c : Cause) (w : Word) : (raise s c w).fcause = causeCode c := rfl
@[simp] theorem raise_fcmd (c : Cause) (w : Word) : (raise s c w).fcmd = w := rfl
@[simp] theorem raise_res (c : Cause) (w : Word) : (raise s c w).res = s.res := rfl
@[simp] theorem raise_zres (c : Cause) (w : Word) : (raise s c w).zres = s.zres := rfl
@[simp] theorem raise_cvSrcR (c : Cause) (w : Word) : (raise s c w).cvSrcR = s.cvSrcR := rfl
@[simp] theorem raise_cvSrcG (c : Cause) (w : Word) : (raise s c w).cvSrcG = s.cvSrcG := rfl
@[simp] theorem raise_cvSrcB (c : Cause) (w : Word) : (raise s c w).cvSrcB = s.cvSrcB := rfl
@[simp] theorem raise_cvStride (c : Cause) (w : Word) : (raise s c w).cvStride = s.cvStride := rfl
@[simp] theorem raise_cvH (c : Cause) (w : Word) : (raise s c w).cvH = s.cvH := rfl
@[simp] theorem raise_cvW (c : Cause) (w : Word) : (raise s c w).cvW = s.cvW := rfl
@[simp] theorem raise_cvN (c : Cause) (w : Word) : (raise s c w).cvN = s.cvN := rfl
@[simp] theorem raise_cvDstY (c : Cause) (w : Word) : (raise s c w).cvDstY = s.cvDstY := rfl
@[simp] theorem raise_cvDstU (c : Cause) (w : Word) : (raise s c w).cvDstU = s.cvDstU := rfl
@[simp] theorem raise_cvDstV (c : Cause) (w : Word) : (raise s c w).cvDstV = s.cvDstV := rfl
@[simp] theorem raise_mem (c : Cause) (w : Word) : (raise s c w).mem = s.mem := rfl
@[simp] theorem raise_pending (c : Cause) (w : Word) : (raise s c w).pending = s.pending := rfl
@[simp] theorem raise_replies (c : Cause) (w : Word) : (raise s c w).replies = s.replies := rfl
@[simp] theorem raise_draws (c : Cause) (w : Word) : (raise s c w).draws = s.draws := rfl

/-! ### resetBlock -/

@[simp] theorem resetBlock_build : (resetBlock s).build = s.build := rfl
@[simp] theorem resetBlock_size : (resetBlock s).size = 0#11 := rfl
@[simp] theorem resetBlock_sb : (resetBlock s).sb = Config.freeGroups s.draws s.build.cap.toNat := rfl
@[simp] theorem resetBlock_rsv : (resetBlock s).rsv = resetReserve s.build := rfl
@[simp] theorem resetBlock_halt : (resetBlock s).halt = false := rfl
@[simp] theorem resetBlock_fcause : (resetBlock s).fcause = 0#4 := rfl
@[simp] theorem resetBlock_fcmd : (resetBlock s).fcmd = 0#32 := rfl
@[simp] theorem resetBlock_res : (resetBlock s).res = ⟨0#16, 0#5⟩ := rfl
@[simp] theorem resetBlock_zres : (resetBlock s).zres = 0#6 := rfl
@[simp] theorem resetBlock_cvSrcR : (resetBlock s).cvSrcR = 0#32 := rfl
@[simp] theorem resetBlock_cvSrcG : (resetBlock s).cvSrcG = 0#32 := rfl
@[simp] theorem resetBlock_cvSrcB : (resetBlock s).cvSrcB = 0#32 := rfl
@[simp] theorem resetBlock_cvStride : (resetBlock s).cvStride = 0#32 := rfl
@[simp] theorem resetBlock_cvH : (resetBlock s).cvH = 0#32 := rfl
@[simp] theorem resetBlock_cvW : (resetBlock s).cvW = 0#32 := rfl
@[simp] theorem resetBlock_cvN : (resetBlock s).cvN = 0#5 := rfl
@[simp] theorem resetBlock_cvDstY : (resetBlock s).cvDstY = 0#32 := rfl
@[simp] theorem resetBlock_cvDstU : (resetBlock s).cvDstU = 0#32 := rfl
@[simp] theorem resetBlock_cvDstV : (resetBlock s).cvDstV = 0#32 := rfl
@[simp] theorem resetBlock_mem : (resetBlock s).mem = s.mem := rfl
@[simp] theorem resetBlock_pending : (resetBlock s).pending = s.pending := rfl
@[simp] theorem resetBlock_replies : (resetBlock s).replies = s.replies := rfl
@[simp] theorem resetBlock_draws : (resetBlock s).draws = s.draws + s.build.cap.toNat := rfl

end Sys2Proof.Machine
end

