-- ==== Sys2Proof/Laws/Ops.lean ====
section
/-! SUPPORT. For each shared operation, everything it can do, said once; and what one command can do. -/

namespace Sys2Proof.Machine

/-! ### PushAll -/

theorem pushAll_fits {s : State} {gs : List Group}
    (h : s.size.toNat + gs.length ≤ s.build.cap.toNat) : pushAll s gs = .ok (s.withPushed gs) := by
  simp [pushAll, show ¬ s.build.cap.toNat < s.size.toNat + gs.length by omega]

theorem pushAll_overflows {s : State} {gs : List Group}
    (h : s.build.cap.toNat < s.size.toNat + gs.length) : pushAll s gs = .error .sbOvf := by
  simp [pushAll, h]

/-- `PushAll` pushes the whole sequence, or faults `SB_OVF` and pushes nothing (R65). -/
theorem pushAll_cases (s : State) (gs : List Group) :
    (pushAll s gs = .ok (s.withPushed gs) ∧ s.size.toNat + gs.length ≤ s.build.cap.toNat) ∨
      (pushAll s gs = .error .sbOvf ∧ s.build.cap.toNat < s.size.toNat + gs.length) := by
  by_cases h : s.size.toNat + gs.length ≤ s.build.cap.toNat
  · exact .inl ⟨pushAll_fits h, h⟩
  · exact .inr ⟨pushAll_overflows (by omega), by omega⟩

/-- `pushIf` leaves the state alone, pushes, or faults `SB_OVF`. -/
theorem pushIf_cases (p : Bool) (s : State) (gs : List Group) :
    (p = false ∧ pushIf p s gs = .ok s) ∨
      (p = true ∧ pushIf p s gs = .ok (s.withPushed gs) ∧
        s.size.toNat + gs.length ≤ s.build.cap.toNat) ∨
      (p = true ∧ pushIf p s gs = .error .sbOvf ∧
        s.build.cap.toNat < s.size.toNat + gs.length) := by
  cases p
  · exact .inl ⟨rfl, rfl⟩
  · rcases pushAll_cases s gs with h | h
    · exact .inr (.inl ⟨rfl, by simpa [pushIf] using h.1, h.2⟩)
    · exact .inr (.inr ⟨rfl, by simpa [pushIf] using h.1, h.2⟩)

@[simp] theorem writeEntries_length (sb : List Group) (i : Nat) (gs : List Group) :
    (writeEntries sb i gs).length = sb.length := by
  induction gs generalizing sb i with
  | nil => rfl
  | cons g gs ih => simp [writeEntries, ih]

/-- The entries below the first written one are kept. -/
theorem writeEntries_getElem?_lt {sb : List Group} {i k : Nat} {gs : List Group} (h : k < i) :
    (writeEntries sb i gs)[k]? = sb[k]? := by
  induction gs generalizing sb i with
  | nil => rfl
  | cons g gs ih =>
    rw [writeEntries, ih (by omega), List.getElem?_set_ne (by omega)]

/-- The contents after a push that fits are the old contents and then the groups (R65). -/
theorem writeEntries_take {sb : List Group} {n : Nat} {gs : List Group}
    (h : n + gs.length ≤ sb.length) :
    (writeEntries sb n gs).take (n + gs.length) = sb.take n ++ gs := by
  induction gs generalizing sb n with
  | nil => simp [writeEntries]
  | cons g gs ih =>
    simp only [List.length_cons] at h ⊢
    have hset : (sb.set n g).take (n + 1) = sb.take n ++ [g] := by
      have hn : n < sb.length := by omega
      rw [List.take_add_one, List.take_set_of_le (Nat.le_refl n), List.getElem?_set_self hn]
      rfl
    have := ih (sb := sb.set n g) (n := n + 1) (by simp; omega)
    rw [writeEntries, show n + (gs.length + 1) = n + 1 + gs.length by omega, this, hset]
    simp

/-! ### Fault entry and the end of a command -/

@[simp] theorem finish_ok (i : Instr) (s t : State) : finish i s (.ok t) = .next t := rfl

@[simp] theorem finish_error (i : Instr) (s : State) (c : Cause) :
    finish i s (.error c) = .next (raise s c (encode i)) := rfl

/-- The codes in use are 1 to 8 (R97). -/
theorem causeCode_range (c : Cause) : 1 ≤ (causeCode c).toNat ∧ (causeCode c).toNat ≤ 8 := by
  cases c <;> decide

theorem causeCode_injective {c d : Cause} (h : causeCode c = causeCode d) : c = d := by
  revert h
  cases c <;> cases d <;> decide

/-! ### Lookup -/

/-- A lookup returns the entry, or faults `SYM_UNPOP` (R76). -/
theorem lookup_cases (t : Table) (sym : Nat) :
    (∃ g, huffTable t sym = some g ∧ lookup t sym = .ok g) ∨
      (huffTable t sym = none ∧ lookup t sym = .error .symUnpop) := by
  unfold lookup
  cases h : huffTable t sym with
  | none => exact .inr ⟨rfl, rfl⟩
  | some g => exact .inl ⟨g, rfl, rfl⟩

/-! ### Conversions -/

/-- The destination blocks spoilt by a failed write: only data memory and the draw counter differ
(R48). -/
theorem spoilBlocks_eq (s : State) (dsts : List Word) :
    ∃ m k, spoilBlocks s dsts = (s.withMem m).withDraws k := by
  induction dsts generalizing s with
  | nil => exact ⟨s.mem, s.draws, rfl⟩
  | cons d ds ih =>
    obtain ⟨m, k, h⟩ := ih ((s.withMem (s.mem.writeBytes d.toNat
      (freeBytes s.draws (4 * cvSide s * cvSide s)))).withDraws (s.draws + 4 * cvSide s * cvSide s))
    exact ⟨m, k, h⟩

@[simp] theorem freeBytes_length (k n : Nat) : (freeBytes k n).length = n := by
  induction n generalizing k with
  | zero => rfl
  | succ n ih => simp [freeBytes, ih]

/-- A conversion ends in one of four ways (R48, R87): a check fails, a read fails, a write fails, or
every write is done. -/
theorem convert_cases (i : Instr) (s : State) (srcs dsts : List Word) (m : Memory) :
    (∃ c, cvCheck s srcs dsts = some c ∧
        convert i s srcs dsts m = .next (raise s c (encode i))) ∨
      (cvCheck s srcs dsts = none ∧ readsOk s srcs = false ∧
        convert i s srcs dsts m = .next (raise s .busErr (encode i))) ∨
      (cvCheck s srcs dsts = none ∧ readsOk s srcs = true ∧ writesOk s dsts = false ∧
        convert i s srcs dsts m = .next (raise (spoilBlocks s dsts) .busErr (encode i))) ∨
      (cvCheck s srcs dsts = none ∧ readsOk s srcs = true ∧ writesOk s dsts = true ∧
        convert i s srcs dsts m = .next (s.withMem m)) := by
  unfold convert
  cases hc : cvCheck s srcs dsts with
  | some c => exact .inl ⟨c, rfl, rfl⟩
  | none =>
    cases hr : readsOk s srcs with
    | false => exact .inr (.inl ⟨rfl, rfl, rfl⟩)
    | true =>
      cases hw : writesOk s dsts with
      | false => exact .inr (.inr (.inl ⟨rfl, rfl, rfl, rfl⟩))
      | true => exact .inr (.inr (.inr ⟨rfl, rfl, rfl, rfl⟩))

/-- What one command can do: every command answers a next state. It takes a fault on the state as it
was, or on one whose destination blocks are spoilt; or it writes the buffer, `RES`, `ZRES` and data
memory, and nothing else (R9, R99). -/
theorem exec_cases (i : Instr) (s : State) :
    (∃ c, exec i s = .next (raise s c (encode i))) ∨
      (∃ dsts, (i = .cvtc ∨ i = .cvtg) ∧
        exec i s = .next (raise (spoilBlocks s dsts) .busErr (encode i))) ∨
      ∃ size sb res zres m,
        exec i s = .next { s with size := size, sb := sb, res := res, zres := zres, mem := m } := by
  have pushed : ∀ gs, ∃ size sb res zres m, s.withPushed gs =
      { s with size := size, sb := sb, res := res, zres := zres, mem := m } :=
    fun gs => ⟨_, _, s.res, s.zres, s.mem, rfl⟩
  cases i with
  | nop => exact .inr (.inr ⟨s.size, s.sb, s.res, s.zres, s.mem, rfl⟩)
  | clear => exact .inr (.inr ⟨0#11, s.sb, s.res, s.zres, s.mem, rfl⟩)
  | zz idx => exact .inr (.inr ⟨s.size, s.sb, s.res, zigzag idx, s.mem, rfl⟩)
  | pushi len val =>
    rcases pushAll_cases s [⟨val, len⟩] with h | h
    · exact .inr (.inr ⟨_, _, s.res, s.zres, s.mem, by simp [exec, execPushi, h.1]; rfl⟩)
    · exact .inl ⟨.sbOvf, by simp [exec, execPushi, h.1]⟩
  | pushr =>
    rcases pushAll_cases s [s.res] with h | h
    · exact .inr (.inr ⟨_, _, s.res, s.zres, s.mem, by simp [exec, execPushr, h.1]; rfl⟩)
    · exact .inl ⟨.sbOvf, by simp [exec, execPushr, h.1]⟩
  | graych =>
    rcases pushAll_cases s grayGroups with h | h
    · exact .inr (.inr ⟨_, _, s.res, s.zres, s.mem, by simp [exec, execGraych, h.1]; rfl⟩)
    · exact .inl ⟨.sbOvf, by simp [exec, execGraych, h.1]⟩
  | mag p imm =>
    by_cases hr : magOutOfRange s.build (immValue imm) = true
    · exact .inl ⟨.magRange, by simp [exec, execMag, hr]⟩
    · rcases pushIf_cases p s [magEncode (immValue imm)] with ⟨_, h⟩ | ⟨_, h, _⟩ | ⟨_, h, _⟩
      · exact .inr (.inr ⟨s.size, s.sb, magEncode (immValue imm), s.zres, s.mem,
          by simp [exec, execMag, hr, h, Except.map]; rfl⟩)
      · exact .inr (.inr ⟨_, _, magEncode (immValue imm), s.zres, s.mem,
          by simp [exec, execMag, hr, h, Except.map]; rfl⟩)
      · exact .inl ⟨.sbOvf, by simp [exec, execMag, hr, h, Except.map]⟩
  | huff p t sym =>
    rcases lookup_cases t sym.toNat with ⟨g, _, hl⟩ | ⟨_, hl⟩
    · rcases pushIf_cases p s [g] with ⟨_, h⟩ | ⟨_, h, _⟩ | ⟨_, h, _⟩
      · exact .inr (.inr ⟨s.size, s.sb, g, s.zres, s.mem,
          by simp [exec, execHuff, hl, h, Except.map]; rfl⟩)
      · exact .inr (.inr ⟨_, _, g, s.zres, s.mem,
          by simp [exec, execHuff, hl, h, Except.map]; rfl⟩)
      · exact .inl ⟨.sbOvf, by simp [exec, execHuff, hl, h, Except.map]⟩
    · exact .inl ⟨.symUnpop, by simp [exec, execHuff, hl]⟩
  | enc t run imm =>
    by_cases hr : magOutOfRange s.build (immValue imm) = true
    · exact .inl ⟨.magRange, by simp [exec, execEnc, hr]⟩
    · cases hs : encSymbol run (category (immValue imm)) with
      | error c => exact .inl ⟨c, by simp [exec, execEnc, hr, hs]⟩
      | ok sym =>
        rcases lookup_cases t sym with ⟨g, _, hl⟩ | ⟨_, hl⟩
        · rcases pushAll_cases s (encGroups g (magEncode (immValue imm))) with h | h
          · exact .inr (.inr ⟨_, _, magEncode (immValue imm), s.zres, s.mem,
              by simp [exec, execEnc, hr, hs, hl, h.1, Except.map]; rfl⟩)
          · exact .inl ⟨.sbOvf, by simp [exec, execEnc, hr, hs, hl, h.1, Except.map]⟩
        · exact .inl ⟨.symUnpop, by simp [exec, execEnc, hr, hs, hl]⟩
  | cvtc =>
    rcases convert_cases .cvtc s [s.cvSrcR, s.cvSrcG, s.cvSrcB] [s.cvDstY, s.cvDstU, s.cvDstV]
      (cvtcMem s) with ⟨c, _, h⟩ | ⟨_, _, h⟩ | ⟨_, _, _, h⟩ | ⟨_, _, _, h⟩
    · exact .inl ⟨c, h⟩
    · exact .inl ⟨.busErr, h⟩
    · exact .inr (.inl ⟨_, .inl rfl, h⟩)
    · exact .inr (.inr ⟨s.size, s.sb, s.res, s.zres, cvtcMem s, h⟩)
  | cvtg =>
    rcases convert_cases .cvtg s [s.cvSrcG] [s.cvDstY] (cvtgMem s)
      with ⟨c, _, h⟩ | ⟨_, _, h⟩ | ⟨_, _, _, h⟩ | ⟨_, _, _, h⟩
    · exact .inl ⟨c, h⟩
    · exact .inl ⟨.busErr, h⟩
    · exact .inr (.inl ⟨_, .inr rfl, h⟩)
    · exact .inr (.inr ⟨s.size, s.sb, s.res, s.zres, cvtgMem s, h⟩)

end Sys2Proof.Machine
end

