-- ==== Sys2Proof/Laws/Convert.lean ====
section
/-! SUPPORT. The converter's operations, said once: when CvCheck passes, when every access is allowed, what a failed
write leaves alone. -/

namespace Sys2Proof.Machine

/-- `CvCheck` passes exactly when no check of R87 fails. -/
theorem cvCheck_eq_none {s : State} {srcs dsts : List Word} :
    cvCheck s srcs dsts = none ↔
      (1 ≤ cvSide s ∧ cvSide s ≤ Config.nMax) ∧ (s.cvH ≠ 0#32 ∧ s.cvW ≠ 0#32) ∧
        (∀ d ∈ dsts, d.toNat % 4 = 0) ∧ (∀ a ∈ srcs, srcLast s a ≤ 0xFFFFFFFF) ∧
        ∀ d ∈ dsts, dstLast s d ≤ 0xFFFFFFFF := by
  unfold cvCheck
  by_cases h1 : cvSide s < 1 ∨ Config.nMax < cvSide s
  · rw [if_pos h1]
    exact ⟨fun h => by simp at h, fun h => absurd h.1 (by omega)⟩
  · rw [if_neg h1]
    by_cases h2 : s.cvH = 0#32 ∨ s.cvW = 0#32
    · rw [if_pos h2]
      refine ⟨fun h => by simp at h, fun h => ?_⟩
      rcases h2 with h2 | h2
      · exact absurd h2 h.2.1.1
      · exact absurd h2 h.2.1.2
    · rw [if_neg h2]
      rw [not_or] at h1 h2
      split_ifs with h3 h4 h5
      · refine ⟨fun h => by simp at h, fun h => ?_⟩
        obtain ⟨d, hd, hm⟩ := List.any_eq_true.1 h3
        exact absurd (h.2.2.1 d hd) (of_decide_eq_true hm)
      · refine ⟨fun h => by simp at h, fun h => ?_⟩
        obtain ⟨a, ha, hm⟩ := List.any_eq_true.1 h4
        exact absurd (h.2.2.2.1 a ha) (Nat.not_le.2 (of_decide_eq_true hm))
      · refine ⟨fun h => by simp at h, fun h => ?_⟩
        obtain ⟨d, hd, hm⟩ := List.any_eq_true.1 h5
        exact absurd (h.2.2.2.2 d hd) (Nat.not_le.2 (of_decide_eq_true hm))
      · simp only [List.any_eq_true, decide_eq_true_eq, not_exists, not_and, not_not,
          Nat.not_lt] at h3 h4 h5
        exact ⟨fun _ => ⟨⟨by omega, by omega⟩, h2, h3, h4, h5⟩, fun _ => rfl⟩

/-- Every read of the command is allowed (R48, R85). -/
theorem readsOk_eq_true {s : State} {srcs : List Word} :
    readsOk s srcs = true ↔ ∀ src ∈ srcs, ∀ i < cvSide s, ∀ j < cvSide s,
      busOk s.build (sampleAddr s src i j) 1 .read = true := by
  simp only [readsOk, List.all_eq_true, Prod.forall, mem_blockPositions]
  exact ⟨fun h src hs i hi j hj => h src hs i j ⟨hi, hj⟩, fun h src hs i j hij => h src hs i hij.1 j hij.2⟩

/-- Every write of the command is allowed (R48, R86). -/
theorem writesOk_eq_true {s : State} {dsts : List Word} :
    writesOk s dsts = true ↔ ∀ dst ∈ dsts, ∀ i < cvSide s, ∀ j < cvSide s,
      busOk s.build (elemAddr dst (cvSide s) i j) 4 .write = true := by
  simp only [writesOk, List.all_eq_true, Prod.forall, mem_blockPositions]
  exact ⟨fun h dst hs i hi j hj => h dst hs i j ⟨hi, hj⟩, fun h dst hs i j hij => h dst hs i hij.1 j hij.2⟩

/-- A failed write keeps the canonical form, and every byte outside the destination blocks (R48). -/
theorem spoilBlocks_mem {s : State} (hm : s.mem.wf) (dsts : List Word) :
    (spoilBlocks s dsts).mem.wf ∧
      ∀ a, (∀ d ∈ dsts, ¬ (d.toNat ≤ a ∧ a < d.toNat + 4 * cvSide s * cvSide s)) →
        (spoilBlocks s dsts).mem.read a = s.mem.read a := by
  induction dsts generalizing s with
  | nil => exact ⟨hm, fun _ _ => rfl⟩
  | cons d ds ih =>
    obtain ⟨h1, h2⟩ := ih (s := (s.withMem (s.mem.writeBytes d.toNat
      (freeBytes s.draws (4 * cvSide s * cvSide s)))).withDraws (s.draws + 4 * cvSide s * cvSide s))
      (Memory.writeBytes_wf hm _ _)
    refine ⟨h1, fun a ha => (h2 a fun e he => ha e (by simp [he])).trans ?_⟩
    rw [State.withDraws_mem, State.withMem_mem, Memory.read_writeBytes hm, freeBytes_length,
      if_neg (ha d (by simp))]

/-- A byte listed after a failed write lies in a destination block or was listed before (R48). -/
theorem mem_spoilBlocks {s : State} {dsts : List Word} {c : Host.Cell}
    (h : c ∈ (spoilBlocks s dsts).mem) :
    (∃ d ∈ dsts, d.toNat ≤ c.1 ∧ c.1 < d.toNat + 4 * cvSide s * cvSide s) ∨ c ∈ s.mem := by
  induction dsts generalizing s with
  | nil => exact .inr h
  | cons d ds ih =>
    rcases ih h with ⟨e, he, hin⟩ | h
    · exact .inl ⟨e, by simp [he], hin⟩
    · rcases Memory.mem_writeBytes h with h | h
      · rw [freeBytes_length] at h
        exact .inl ⟨d, by simp, h⟩
      · exact .inr h

end Sys2Proof.Machine
end

