-- ==== Sys2Proof/Laws/Encoding.lean ====
section
/-! SUPPORT. Fields of a word: the small lemmas about the table numbering and masked words that encoding and
decoding share. -/

namespace Sys2Proof

@[simp] theorem tableOfBits_tableBits (t : Table) : tableOfBits (tableBits t) = t := by
  cases t <;> rfl

@[simp] theorem tableBits_tableOfBits (b : BitVec 2) : tableBits (tableOfBits b) = b := by
  revert b
  decide

/-- A masked word is zero when none of its bits is under the mask. -/
theorem and_eq_zero_of_bits {w m : Word} (h : ∀ k < 32, (w.getLsbD k && m.getLsbD k) = false) :
    w &&& m = 0#32 := by
  apply BitVec.eq_of_getLsbD_eq
  intro k hk
  simpa using h k hk

end Sys2Proof
end

