-- ==== Sys2Proof/Laws/PerInstr.lean ====
section
/-! SUPPORT. Statements about every instruction as syntax, one lemma per constructor: the encoded word of a
well-formed command selects its own row of the opcode map (spec/30_encoding.md R58). -/

namespace Sys2Proof.Laws.SelectsRow

/-- The word's opcode is the command's, and no must-be-zero bit is set (R58). -/
def Statement (i : Instr) : Prop :=
  i.wellFormed →
    opcodeOf (field (encode i) 28 4).toNat = some i.opcode ∧
      encode i &&& mustBeZero i.opcode = 0#32

theorem nop : Statement .nop := fun _ => by decide
theorem pushr : Statement .pushr := fun _ => by decide
theorem clear : Statement .clear := fun _ => by decide
theorem graych : Statement .graych := fun _ => by decide
theorem cvtc : Statement .cvtc := fun _ => by decide
theorem cvtg : Statement .cvtg := fun _ => by decide

theorem zz (idx : BitVec 6) : Statement (.zz idx) := fun _ => by
  revert idx
  decide

theorem pushi (len : BitVec 5) (val : BitVec 16) : Statement (.pushi len val) := fun _ => by
  constructor
  · have h : field (encode (.pushi len val)) 28 4 = 1#4 := by
      apply BitVec.eq_of_getLsbD_eq
      intro k hk
      interval_cases k <;> simp [encode]
    rw [h]
    rfl
  · apply and_eq_zero_of_bits
    intro k hk
    interval_cases k <;> simp [encode, mustBeZero, Instr.opcode]

theorem mag (p : Bool) (imm : BitVec 16) : Statement (.mag p imm) := fun _ => by
  constructor
  · have h : field (encode (.mag p imm)) 28 4 = 4#4 := by
      apply BitVec.eq_of_getLsbD_eq
      intro k hk
      interval_cases k <;> simp [encode]
    rw [h]
    rfl
  · apply and_eq_zero_of_bits
    intro k hk
    interval_cases k <;> simp [encode, mustBeZero, Instr.opcode]

theorem huff (p : Bool) (t : Table) (sym : BitVec 8) : Statement (.huff p t sym) := fun _ => by
  constructor
  · have h : field (encode (.huff p t sym)) 28 4 = 5#4 := by
      apply BitVec.eq_of_getLsbD_eq
      intro k hk
      interval_cases k <;> simp [encode]
    rw [h]
    rfl
  · apply and_eq_zero_of_bits
    intro k hk
    interval_cases k <;> simp [encode, mustBeZero, Instr.opcode]

theorem enc (t : Table) (run : BitVec 4) (imm : BitVec 16) : Statement (.enc t run imm) := fun _ => by
  constructor
  · have h : field (encode (.enc t run imm)) 28 4 = 6#4 := by
      apply BitVec.eq_of_getLsbD_eq
      intro k hk
      interval_cases k <;> simp [encode]
    rw [h]
    rfl
  · apply and_eq_zero_of_bits
    intro k hk
    interval_cases k <;> simp [encode, mustBeZero, Instr.opcode]

end Sys2Proof.Laws.SelectsRow
end

