-- ==== Sys2Proof/Laws/Step.lean ====
section
/-! SUPPORT. What one step can do, said once, and the register map. -/

namespace Sys2Proof.Machine

/-- A step with nothing pending, or the next HOST operation. -/
theorem step_cases {s t : State} (h : step s = .next t) :
    (s.pending = [] ∧ t = s) ∨
      ∃ op ops, s.pending = op :: ops ∧ hostOp op (s.withPending ops) = .next t := by
  unfold step hostStep at h
  cases hp : s.pending with
  | nil =>
    rw [hp] at h
    exact .inl ⟨rfl, by simpa using h.symm⟩
  | cons op ops =>
    rw [hp] at h
    exact .inr ⟨op, ops, rfl, h⟩

/-- A write to `CMD`: discarded, illegal, or executed (R26, R59, R100). -/
theorem issue_cases (w : Word) (s : State) :
    (s.halt = true ∧ issue w s = .next s) ∨
      (s.halt = false ∧ (∃ e, decode w = .error e) ∧ issue w s = .next (raise s .illegal w)) ∨
      (s.halt = false ∧ ∃ i, decode w = .ok i ∧ issue w s = exec i s) := by
  unfold issue
  cases hh : s.halt with
  | true => exact .inl ⟨rfl, rfl⟩
  | false =>
    cases hd : decode w with
    | error e => exact .inr (.inl ⟨rfl, ⟨e, rfl⟩, rfl⟩)
    | ok i => exact .inr (.inr ⟨rfl, i, rfl, rfl⟩)

/-- A register write: a command, a reset, or a store to one of the read-write registers. -/
theorem writeReg_cases (s : State) (r : Option Reg) (w : Word) :
    (r = some .cmd ∧ writeReg s r w = issue w s) ∨
      (r = some .srst ∧ w.getLsbD 0 = true ∧ writeReg s r w = .next (resetBlock s)) ∨
      (r ≠ some .cmd ∧ ∃ rsv a b c d e f n x y z, writeReg s r w = .next { s with
        rsv := rsv, cvSrcR := a, cvSrcG := b, cvSrcB := c, cvStride := d, cvH := e, cvW := f,
        cvN := n, cvDstY := x, cvDstU := y, cvDstV := z }) := by
  cases r with
  | none => exact .inr (.inr ⟨by simp, s.rsv, s.cvSrcR, s.cvSrcG, s.cvSrcB, s.cvStride, s.cvH, s.cvW,
      s.cvN, s.cvDstY, s.cvDstU, s.cvDstV, rfl⟩)
  | some r =>
    cases r with
    | cmd => exact .inl ⟨rfl, rfl⟩
    | srst =>
      cases hb : w.getLsbD 0 with
      | true => exact .inr (.inl ⟨rfl, rfl, by simp [writeReg, hb]⟩)
      | false => exact .inr (.inr ⟨by simp, s.rsv, s.cvSrcR, s.cvSrcG, s.cvSrcB, s.cvStride, s.cvH,
          s.cvW, s.cvN, s.cvDstY, s.cvDstU, s.cvDstV, by simp only [writeReg, hb]; rfl⟩)
    | status | fcause | fcmd | sbSize | sbCap | sbRsv | res | zres | magCfg | cvSrcR | cvSrcG | cvSrcB
    | cvStride | cvH | cvW | cvN | cvDstY | cvDstU | cvDstV | sbData i =>
      exact .inr (.inr ⟨by simp, _, _, _, _, _, _, _, _, _, _, _, rfl⟩)

/-- A register read changes nothing but what HOST holds, and the draw counter (R23, R37). -/
theorem readReg_eq (s : State) (r : Option Reg) :
    ∃ v k, readReg s r = (s.withReply v).withDraws k := by
  cases r with
  | none => exact ⟨0#32, s.draws, rfl⟩
  | some r =>
    cases r with
    | sbData i =>
      by_cases hi : i < s.size.toNat
      · exact ⟨packGroup (entry s i), s.draws, by simp [readReg, hi, regValue]; rfl⟩
      · exact ⟨packGroup (Config.freeGroup s.draws), s.draws + 1, by simp [readReg, hi, readStale]⟩
    | cmd | status | fcause | fcmd | sbSize | sbCap | sbRsv | res | zres | magCfg | srst | cvSrcR | cvSrcG
    | cvSrcB | cvStride | cvH | cvW | cvN | cvDstY | cvDstU | cvDstV =>
      exact ⟨_, s.draws, rfl⟩

/-- The register map is read back from its offsets (R23). -/
theorem regAt_regOffset {b : Build} {r : Reg} (h : ∀ i, r = .sbData i → i < b.cap.toNat) :
    regAt b (regOffset r) = some r := by
  cases r with
  | sbData i =>
    have hi := h i rfl
    simp [regAt, regOffset, hi]
  | cmd | status | fcause | fcmd | sbSize | sbCap | sbRsv | res | zres | magCfg | srst | cvSrcR | cvSrcG
  | cvSrcB | cvStride | cvH | cvW | cvN | cvDstY | cvDstU | cvDstV => rfl

/-- A host-bus address in the window names the register at its offset (R23). -/
theorem windowOffset_bus {b : Build} {offset : Nat} (h : offset < 0x2000) :
    windowOffset b (.bus (b.blkBase + offset)) = windowOffset b (.reg offset) := by
  simp [windowOffset, h]

end Sys2Proof.Machine
end

