-- ==== Sys2Proof/Laws/Pseudo.lean ====
section
/-! SUPPORT. What the HOST operations of R61 do, said once, and the run of a whole `drain` (R62). -/

namespace Sys2Proof.Machine

/-- `rd REG` and `wr REG, X` of R61 reach the register they name. -/
theorem hostOp_reg {s : State} {r : Reg} (h : ∀ i, r = .sbData i → i < s.build.cap.toNat)
    (hc : s.build.cap.toNat ≤ 1024) :
    hostOp (rdReg r) s = .next (readReg s (some r)) ∧
      ∀ x, hostOp (wrReg r x) s = writeReg s (some r) x := by
  have ho : regOffset r < 0x2000 ∧ regOffset r % 4 = 0 := by
    cases r with
    | sbData i =>
      have hi := h i rfl
      simp only [regOffset]
      omega
    | cmd | status | fcause | fcmd | sbSize | sbCap | sbRsv | res | zres | magCfg | srst | cvSrcR | cvSrcG
    | cvSrcB | cvStride | cvH | cvW | cvN | cvDstY | cvDstU | cvDstV => decide
  simp [hostOp, rdReg, wrReg, windowOffset, accessDefined, ho, regAt_regOffset h]

/-- A list of operations runs as its first part and then the rest. -/
theorem runHost_append {ops ops' : List HostOp} {s t : State} (h : runHost ops s = .next t) :
    runHost (ops ++ ops') s = runHost ops' t := by
  induction ops generalizing s with
  | nil => cases h; rfl
  | cons op ops ih =>
    simp only [runHost, List.cons_append] at h ⊢
    cases ho : hostOp op s with
    | next u => rw [ho] at h; exact ih h
    | fault f => rw [ho] at h; cases h
    | refused r => rw [ho] at h; cases h

/-- Reads of the contents return the packed entries and change nothing else (R37). -/
theorem runHost_sbData {s : State} {is : List Nat} (h : ∀ i ∈ is, i < s.size.toNat)
    (hs : s.size.toNat ≤ s.build.cap.toNat) (hc : s.build.cap.toNat ≤ 1024) :
    runHost (is.map fun i => rdReg (.sbData i)) s =
      .next { s with replies := (is.map fun i => packGroup (entry s i)).reverse ++ s.replies } := by
  induction is generalizing s with
  | nil => rfl
  | cons i is ih =>
    have hi : i < s.size.toNat := h i (by simp)
    have ho := (hostOp_reg (s := s) (r := .sbData i) (by rintro _ ⟨⟩; omega) hc).1
    simp only [List.map_cons, runHost, ho]
    rw [show readReg s (some (.sbData i)) = s.withReply (packGroup (entry s i)) by
      simp [readReg, hi, regValue]]
    rw [ih (s := s.withReply _) (fun j hj => h j (by simp [hj])) hs hc]
    simp [State.withReply, entry]

/-- The entries below `SIZE`, in index order, are the contents (R18). -/
theorem entries_eq_contents {s : State} (h : s.bufferInv) :
    (List.range s.size.toNat).map (entry s) = contents s := by
  have hl : s.size.toNat ≤ s.sb.length := by have := h.1; have := h.2; omega
  apply List.ext_getElem
  · simp [contents, hl]
  · intro i hi _
    simp only [List.length_map, List.length_range] at hi
    simp [contents, entry, List.getD_eq_getElem?_getD, List.getElem?_eq_getElem (show i < s.sb.length by omega)]

/-- A whole `clear` operation: `SIZE` becomes 0 (R70), or nothing happens in the halted block (R100). -/
theorem runHost_clear {s : State} (hc : s.build.cap.toNat ≤ 1024) :
    runHost [issueOp .clear] s = .next { s with size := if s.halt then s.size else 0#11 } := by
  have ho := (hostOp_reg (s := s) (r := .cmd) (by rintro _ ⟨⟩) hc).2 (encode .clear)
  have hd : decode (encode .clear) = .ok .clear := by decide
  simp only [runHost, issueOp, ho, writeReg, issue, hd]
  by_cases hh : s.halt = true
  · cases s
    simp_all
  · simp [hh, exec, execClear, finish, State.withSize]

/-- `drain -> L` (R62): HOST reads `SIZE` and then the contents in index order, and `clear` empties the
buffer unless the block is halted (R100). -/
theorem drain_runs {s : State} (h : s.bufferInv) (hc : s.build.cap.toNat ≤ 1024) :
    runHost (drain s) s = .next { s with
      size    := if s.halt then s.size else 0#11
      replies := ((contents s).map packGroup).reverse ++ s.size.setWidth 32 :: s.replies } := by
  have hn : (regValue s .sbSize).toNat = s.size.toNat := by
    simp only [regValue, BitVec.toNat_setWidth]
    exact Nat.mod_eq_of_lt (by omega)
  have h0 := (hostOp_reg (s := s) (r := .sbSize) (by rintro _ ⟨⟩) hc).1
  have h1 := runHost_sbData (s := s.withReply (s.size.setWidth 32)) (is := List.range s.size.toNat)
    (by simp) h.2 hc
  have he : (List.range s.size.toNat).map (fun i => packGroup (entry (s.withReply (s.size.setWidth 32)) i)) =
      (contents s).map packGroup := by
    rw [← entries_eq_contents h, List.map_map]; rfl
  rw [he] at h1
  rw [drain, hn]
  simp only [drainOps, List.cons_append, runHost, h0, readReg, regValue]
  rw [runHost_append h1]
  rw [runHost_clear (by exact hc)]
  rfl

end Sys2Proof.Machine
end

