-- ==== Sys2Proof/Tests/Slice0.lean ====
section
/-! SUPPORT. The model's own tests. Every expected value is the spec's: the encodings of 30_encoding.md, the printed
tables of 44_code_table_contents.md, and the vectors of 95_test_vectors.md. After them, one witness for the
hypotheses of each statement. -/

namespace Sys2Proof.Tests

open Sys2Proof.Machine

/-! ### Small states -/

/-- A build with `C = 8` and `R = 2048`. -/
def small (m : Strategy) (deny : List DenyRule) : Build :=
  { cap := 8#11, strategy := m, range := 2048#16, blkBase := 0x4000, deny := deny }

/-- The reset state of that build, with known buffer entries. -/
def start : State :=
  { State.reset with
    build := small .scan [], sb := List.replicate 8 ⟨0#16, 0#5⟩, rsv := 4#16, draws := 8 }

/-- The same under CATTAB. -/
def startCat : State := { start with build := small .catTab [] }

/-- With `n` entries in use. -/
def withSize (n : BitVec 11) : State := { start with size := n }

/-- Halted by a fault, with one group staged. -/
def halted : State :=
  { start with
    size := 1#11, sb := ⟨5#16, 3#5⟩ :: List.replicate 7 ⟨0#16, 0#5⟩
    halt := true, fcause := 3#4, fcmd := 0x40010800#32 }

/-- The converter's arguments of program P3: `N = 2`, `H = 2`, `W = 1`. -/
def colour : State :=
  { start with
    cvSrcR := 0x1000#32, cvSrcG := 0x1100#32, cvSrcB := 0x1200#32, cvStride := 16#32
    cvH := 2#32, cvW := 1#32, cvN := 2#5
    cvDstY := 0x2000#32, cvDstU := 0x2010#32, cvDstV := 0x2020#32
    mem := [(0x1000, 255#8), (0x1001, 77#8), (0x1011, 77#8), (0x1101, 77#8), (0x1110, 255#8),
      (0x1111, 77#8), (0x1201, 77#8), (0x1211, 77#8)] }

/-- The converter's arguments of program P4: a gray block of side 2. -/
def gray : State :=
  { start with
    cvSrcG := 0x3000#32, cvStride := 2#32, cvH := 2#32, cvW := 2#32, cvN := 2#5
    cvDstY := 0x4000#32
    mem := [(0x3001, 128#8), (0x3002, 255#8), (0x3003, 200#8)] }

/-- HOST's next operation is a command word. -/
def issuing (s : State) (w : Word) : State := { s with pending := [.wr (.reg 0x000) 4 w] }

/-- The outcome is a next state with this property. -/
def nextIs (o : Host.Outcome State Fault Refusal) (p : State → Bool) : Bool :=
  match o with
  | .next t => p t
  | .fault _ => false
  | .refused _ => false

/-- One issued command. -/
def runs (s : State) (w : Word) (p : State → Bool) : Bool := nextIs (step (issuing s w)) p

/-- One issued command faults with this code and word, and keeps `SIZE` and `RES` (R99). -/
def faults (s : State) (w : Word) (code : BitVec 4) : Bool :=
  runs s w fun t => t.halt && t.fcause == code && t.fcmd == w && t.size == s.size && t.res == s.res

/-! ### Well-formedness: each check refuses an ill-formed term (R59) -/

theorem smoke_pushi_length : ¬ (Instr.pushi 17#5 0#16).wellFormed := by decide
theorem smoke_pushi_value : ¬ (Instr.pushi 2#5 4#16).wellFormed := by decide
theorem smoke_pushi_zero_length : ¬ (Instr.pushi 0#5 1#16).wellFormed := by decide
theorem smoke_pushi_accepts :
    (Instr.pushi 16#5 0xFFFF#16).wellFormed ∧ (Instr.pushi 0#5 0#16).wellFormed := by decide

/-! ### Decoding: one word of each command, written out field by field from R56 -/

theorem test_decode_nop : decode 0b0000_0000000000000000000000000000#32 = .ok .nop := by decide
theorem test_decode_pushi :
    decode 0b0001_0000000_00011_0000000000000101#32 = .ok (.pushi 3#5 5#16) := by decide
theorem test_decode_pushr : decode 0b0010_0000000000000000000000000000#32 = .ok .pushr := by decide
theorem test_decode_clear : decode 0b0011_0000000000000000000000000000#32 = .ok .clear := by decide
theorem test_decode_mag :
    decode 0b0100_00000000000_1_1111111111111011#32 = .ok (.mag true (-5#16)) := by decide
theorem test_decode_huff :
    decode 0b0101_00000000000_1_000000_10_11110000#32 = .ok (.huff true .lac 0xF0#8) := by decide
theorem test_decode_enc :
    decode 0b0110_00_10_0010_0000_1111111111111101#32 = .ok (.enc .lac 2#4 (-3#16)) := by decide
theorem test_decode_zz : decode 0b0111_0000000000000000000000_001000#32 = .ok (.zz 8#6) := by decide
theorem test_decode_graych :
    decode 0b1000_0000000000000000000000000000#32 = .ok .graych := by decide
theorem test_decode_cvtc : decode 0b1001_0000000000000000000000000000#32 = .ok .cvtc := by decide
theorem test_decode_cvtg : decode 0b1010_0000000000000000000000000000#32 = .ok .cvtg := by decide

/-- The illegal words of section 2.1, each with the first check that fails (R59). -/
theorem test_decode_illegal :
    decode 0x00000001#32 = .error .reservedBits ∧ decode 0x10110000#32 = .error .pushiLength ∧
    decode 0x10020004#32 = .error .pushiValue ∧ decode 0x10200000#32 = .error .reservedBits ∧
    decode 0x40020000#32 = .error .reservedBits ∧ decode 0x50000400#32 = .error .reservedBits ∧
    decode 0x60010000#32 = .error .reservedBits ∧ decode 0x64000000#32 = .error .reservedBits ∧
    decode 0x70000040#32 = .error .reservedBits ∧ decode 0xB0000000#32 = .error .reservedOpcode ∧
    decode 0xFFFFFFFF#32 = .error .reservedOpcode := by decide

/-- `decodeTableWord` reads the table's numbering, and a word of more than 32 bits is no command. -/
theorem test_table_word :
    decodeTableWord 32 0x10030005 = some (.pushi 3#5 5#16) ∧ decodeTableWord 32 0xB0000000 = none ∧
      decodeTableWord 40 0x100000000 = none := by decide

/-- The first command after reset runs (R112), whatever the open parameters are. -/
theorem test_first_command_after_reset :
    nextIs (step (State.reset.withFetchWord 32 0x10030005)) (fun t => t.size == 1#11) = true ∧
      nextIs (step (State.reset.withFetchWord 32 0x40000005)) (fun t => t.res == ⟨5#16, 3#5⟩) = true := by
  decide

/-! ### The tables, against the printed codes -/

/-- The printed codes of R92, as (length, code), symbols 0 to 11. -/
def ldcPrinted : List (Nat × Nat) :=
  [(2, 0x0), (3, 0x2), (3, 0x3), (3, 0x4), (3, 0x5), (3, 0x6), (4, 0xE), (5, 0x1E), (6, 0x3E), (7, 0x7E), (8, 0xFE), (9, 0x1FE)]

/-- The printed codes of R93, as (length, code), symbols 0 to 11. -/
def cdcPrinted : List (Nat × Nat) :=
  [(2, 0x0), (2, 0x1), (2, 0x2), (3, 0x6), (4, 0xE), (5, 0x1E), (6, 0x3E), (7, 0x7E), (8, 0xFE), (9, 0x1FE), (10, 0x3FE), (11, 0x7FE)]

/-- A printed grid agrees with a table: rows RUN, columns 1 to 10. -/
def gridAgrees (t : Table) (rows : List (List (Nat × Nat))) : Bool :=
  (List.range 16).all fun run => (List.range 10).all fun k =>
    match (rows.getD run []).getD k (0, 0) with
    | (len, code) =>
      decide (huffTable t (run * 16 + k + 1) = some ⟨BitVec.ofNat 16 code, BitVec.ofNat 5 len⟩)

theorem test_ldc_printed :
    (List.range 12).map (huffTable .ldc) =
      ldcPrinted.map fun p => some ⟨BitVec.ofNat 16 p.2, BitVec.ofNat 5 p.1⟩ := by decide +kernel
theorem test_cdc_printed :
    (List.range 12).map (huffTable .cdc) =
      cdcPrinted.map fun p => some ⟨BitVec.ofNat 16 p.2, BitVec.ofNat 5 p.1⟩ := by decide +kernel
theorem test_lac_printed : gridAgrees .lac printedLac = true ∧
    huffTable .lac 0x00 = some ⟨0xA#16, 4#5⟩ ∧ huffTable .lac 0xF0 = some ⟨0x7F9#16, 11#5⟩ := by
  decide +kernel
theorem test_cac_printed : gridAgrees .cac printedCac = true ∧
    huffTable .cac 0x00 = some ⟨0x0#16, 2#5⟩ ∧ huffTable .cac 0xF0 = some ⟨0x3FA#16, 10#5⟩ := by
  decide +kernel

/-! ### The commands, against the vectors of 95_test_vectors.md -/

theorem test_nop : runs (withSize 3#11) 0x00000000#32 (fun t => t.size == 3#11) = true := by decide
/-- V-SB-4. -/
theorem test_pushi : runs start 0x10030005#32
    (fun t => t.size == 1#11 && t.sb.take 1 == [⟨5#16, 3#5⟩] && bitStream t == [true, false, true]) = true := by
  decide
/-- V-SB-3: even a zero-length group takes a slot. -/
theorem test_pushi_full : faults (withSize 8#11) 0x10000000#32 2#4 = true := by decide
/-- V-SB-5. -/
theorem test_pushr : runs { start with res := ⟨2#16, 3#5⟩ } 0x20000000#32
    (fun t => t.size == 1#11 && t.sb.take 1 == [⟨2#16, 3#5⟩] && t.res == ⟨2#16, 3#5⟩) = true := by decide
/-- V-SB-6: the entries are kept. -/
theorem test_clear : runs { withSize 7#11 with sb := List.replicate 8 ⟨1#16, 1#5⟩ } 0x30000000#32
    (fun t => t.size == 0#11 && t.sb == List.replicate 8 ⟨1#16, 1#5⟩) = true := by decide

/-- Section 2.3 under SCAN: word and `RES`. -/
def magVectors : List (Word × Group) :=
  [(0x40000000#32, ⟨0#16, 0#5⟩), (0x40000001#32, ⟨1#16, 1#5⟩), (0x4000FFFF#32, ⟨0#16, 1#5⟩),
   (0x4000FFFE#32, ⟨1#16, 2#5⟩), (0x4000FFFC#32, ⟨3#16, 3#5⟩), (0x40000005#32, ⟨5#16, 3#5⟩),
   (0x4000FFFB#32, ⟨2#16, 3#5⟩), (0x4000FFF8#32, ⟨7#16, 4#5⟩), (0x4000FF01#32, ⟨0#16, 8#5⟩)] ++
  [(0x4000FC00#32, ⟨0x3FF#16, 11#5⟩), (0x400007FF#32, ⟨0x7FF#16, 11#5⟩),
   (0x4000F801#32, ⟨0#16, 11#5⟩), (0x40000800#32, ⟨0x800#16, 12#5⟩),
   (0x4000F800#32, ⟨0x7FF#16, 12#5⟩), (0x40007FFF#32, ⟨0x7FFF#16, 15#5⟩),
   (0x40008000#32, ⟨0x7FFF#16, 16#5⟩)]
theorem test_mag_scan : (magVectors.all fun v => runs start v.1 fun t => t.res == v.2) = true := by
  decide +kernel
/-- V-F-1, V-F-5 and section 2.3 under CATTAB; 2047 is still accepted. -/
theorem test_mag_range : faults startCat 0x40010800#32 3#4 = true ∧ faults startCat 0x4000F800#32 3#4 = true ∧
    runs startCat 0x400107FF#32 (fun t => t.size == 1#11 && t.res == ⟨0x7FF#16, 11#5⟩) = true := by
  decide +kernel
/-- Section 2.4. -/
theorem test_huff : runs start 0x500102F0#32
      (fun t => t.res == ⟨0x7F9#16, 11#5⟩ && t.sb.take 1 == [⟨0x7F9#16, 11#5⟩] && t.size == 1#11) = true ∧
    runs start 0x5000010B#32 (fun t => t.res == ⟨0x7FE#16, 11#5⟩ && t.size == 0#11) = true := by
  decide +kernel
/-- Section 2.4 and V-F-5: `SYM_UNPOP` comes before `SB_OVF`. -/
theorem test_huff_faults : faults start 0x5000000C#32 4#4 = true ∧ faults start 0x50000210#32 4#4 = true ∧
    faults start 0x500002FF#32 4#4 = true ∧ faults (withSize 8#11) 0x5001000C#32 4#4 = true ∧
    faults (withSize 8#11) 0x500102F0#32 2#4 = true := by decide +kernel

/-- Section 2.5: word, groups pushed, `RES`. -/
def encVectors : List (Word × List Group × Group) :=
  [(0x60000000#32, [⟨0#16, 2#5⟩], ⟨0#16, 0#5⟩),
   (0x6000FFFB#32, [⟨4#16, 3#5⟩, ⟨2#16, 3#5⟩], ⟨2#16, 3#5⟩),
   (0x600007FF#32, [⟨0x1FE#16, 9#5⟩, ⟨0x7FF#16, 11#5⟩], ⟨0x7FF#16, 11#5⟩),
   (0x6100FFFF#32, [⟨1#16, 2#5⟩, ⟨0#16, 1#5⟩], ⟨0#16, 1#5⟩),
   (0x62F00000#32, [⟨0x7F9#16, 11#5⟩], ⟨0#16, 0#5⟩)] ++
  [(0x6220FFFD#32, [⟨0xF9#16, 8#5⟩, ⟨0#16, 2#5⟩], ⟨0#16, 2#5⟩),
   (0x62F0FC01#32, [⟨0xFFFE#16, 16#5⟩, ⟨0#16, 10#5⟩], ⟨0#16, 10#5⟩),
   (0x63100002#32, [⟨0x39#16, 6#5⟩, ⟨2#16, 2#5⟩], ⟨2#16, 2#5⟩),
   (0x6360FFF9#32, [⟨0xFFA7#16, 16#5⟩, ⟨0#16, 3#5⟩], ⟨0#16, 3#5⟩)]
theorem test_enc :
    (encVectors.all fun v => runs start v.1 fun t => contents t == v.2.1 && t.res == v.2.2) = true := by
  decide +kernel
/-- The faults of section 2.5, and that two groups do not fit where one does. -/
theorem test_enc_faults : faults start 0x62100000#32 4#4 = true ∧ faults start 0x62000400#32 4#4 = true ∧
    faults startCat 0x62000800#32 3#4 = true ∧ faults start 0x60000800#32 4#4 = true ∧
    faults start 0x60300001#32 4#4 = true ∧ faults start 0x60008000#32 4#4 = true ∧
    faults (withSize 7#11) 0x60000005#32 2#4 = true ∧
    runs (withSize 7#11) 0x62000000#32 (fun t => t.size == 8#11) = true := by decide +kernel
/-- Section 2.6: `zz 8` fixes the direction of the table. -/
theorem test_zz : (([(0, 0), (3, 6), (7, 28), (8, 2), (9, 4), (27, 24), (35, 32), (56, 35), (62, 62)] :
      List (Nat × Nat)).all fun v => runs start (0x70000000#32 ||| BitVec.ofNat 32 v.1)
        fun t => t.zres == BitVec.ofNat 6 v.2) = true := by decide +kernel
/-- V-SB-3. -/
theorem test_graych : faults (withSize 5#11) 0x80000000#32 2#4 = true ∧
    runs (withSize 4#11) 0x80000000#32
      (fun t => t.size == 8#11 && t.sb.drop 4 == List.replicate 4 ⟨0#16, 2#5⟩) = true := by decide +kernel

/-- V-CV-1: samples and `CY`, `CU`, `CV`. -/
def convVectors : List ((Byte × Byte × Byte) × (Word × Word × Word)) :=
  [((0, 0, 0), (0xC3000000, 0x00000000, 0x00000000)), ((255, 255, 255), (0x42FE0000, 0, 0x36C00000)),
   ((128, 128, 128), (0, 0, 0x35800000)), ((1, 1, 1), (0xC2FE0000, 0, 0x32000000)),
   ((74, 74, 74), (0xC2580002, 0, 0x35C00000)), ((90, 90, 90), (0xC217FFFE, 0, 0x36000000)),
   ((255, 0, 0), (0xC24F0520, 0xC22C1D64, 0x42FF0000))] ++
  [((0, 255, 0), (0x41AD7AE0, 0xC2A8F14E, 0xC2D5882A)), ((0, 0, 255), (0xC2C5DC29, 0x42FF0000, 0xC1A5DF55)),
   ((255, 255, 0), (0x42C3DC28, 0xC2FF0000, 0x41A5DF58)),
   ((0, 255, 255), (0x424B0520, 0x422C1D64, 0xC2FEFFFF)),
   ((100, 150, 200), (0x414C0000, 0x4205BF7C, 0xC1E88625)),
   ((10, 20, 30), (0xC2DBB333, 0x40D5FF2E, 0xC0BA04EA)),
   ((200, 100, 50), (0xC0733340, 0xC2277EFA, 0x42584313))]
theorem test_conversion_arithmetic :
    (convVectors.all fun v => match v with
      | ((r, g, b), (y, u, w)) => convY r g b == y && convU r g b == u && convV r g b == w) = true := by
  decide +kernel
/-- V-CV-2. -/
theorem test_gray_arithmetic : [0, 1, 127, 128, 129, 200, 255].map convG =
    [0xC3000000#32, 0xC2FE0000#32, 0xBF800000#32, 0x00000000#32, 0x3F800000#32, 0x42900000#32, 0x42FE0000#32] := by
  decide +kernel
/-- Program P3: replication of column 0, little-endian words, nothing else written. -/
theorem test_cvtc : runs colour 0x90000000#32 (fun t => !t.halt &&
    [0x2000, 0x2004, 0x2008, 0x200C].map t.mem.readWord == [0xC24F0520, 0xC24F0520, 0x41AD7AE0, 0x41AD7AE0] &&
    [0x2010, 0x2014, 0x2018, 0x201C].map t.mem.readWord == [0xC22C1D64, 0xC22C1D64, 0xC2A8F14E, 0xC2A8F14E] &&
    [0x2020, 0x2024, 0x2028, 0x202C].map t.mem.readWord == [0x42FF0000, 0x42FF0000, 0xC2D5882A, 0xC2D5882A] &&
    [0x2000, 0x2001, 0x2002, 0x2003, 0x1001].map t.mem.read == [0x20, 0x05, 0x4F, 0xC2, 77]) = true := by
  decide +kernel
/-- Program P4. -/
theorem test_cvtg : runs gray 0xA0000000#32 (fun t => !t.halt &&
    [0x4000, 0x4004, 0x4008, 0x400C].map t.mem.readWord == [0xC3000000, 0x00000000, 0x42FE0000, 0x42900000]) = true := by
  decide +kernel

/-- The side and the valid rows and columns. -/
def sided (n : BitVec 5) (h w : Word) : State := { start with cvN := n, cvH := h, cvW := w }
/-- Section 2.9, the rows that fault. -/
theorem test_conversion_checks : faults start 0x90000000#32 5#4 = true ∧
    faults (sided 17#5 8#32 8#32) 0x90000000#32 5#4 = true ∧ faults (sided 8#5 0#32 8#32) 0xA0000000#32 5#4 = true ∧
    faults { start with cvDstY := 2#32 } 0xA0000000#32 5#4 = true ∧
    faults { sided 8#5 8#32 8#32 with cvDstU := 2#32, cvSrcR := 0xFFFFFFFF#32 } 0x90000000#32 7#4 = true ∧
    faults { sided 8#5 8#32 8#32 with cvDstY := 0xFFFFFF04#32 } 0xA0000000#32 6#4 = true ∧
    faults { sided 8#5 8#32 8#32 with cvSrcG := 0xFFFFFFF0#32, cvStride := 2#32 } 0xA0000000#32 6#4 = true := by
  decide +kernel
/-- Section 2.9, the rows that pass every check. -/
theorem test_conversion_checks_pass :
    cvCheck { sided 8#5 8#32 8#32 with cvDstU := 2#32 } [0#32] [0#32] = none ∧
    cvCheck (sided 8#5 8#32 8#32) [0#32] [0xFFFFFF00#32] = none ∧
    cvCheck (sided 1#5 1#32 1#32) [0#32] [0xFFFFFFFC#32] = none ∧
    cvCheck { sided 8#5 8#32 8#32 with cvStride := 1#32 } [0xFFFFFFF0#32] [0#32] = none ∧
    cvCheck { sided 8#5 1#32 1#32 with cvStride := 1000#32 } [0xFFFFFFFF#32] [0#32] = none := by decide +kernel
/-- R48: a failed read, and a failed write that spoils the block alone. -/
theorem test_bus_error :
    faults { gray with build := small .scan [⟨0x3000, 0x3000, 1, .read⟩] } 0xA0000000#32 8#4 = true ∧
    runs { gray with build := small .scan [⟨0x400C, 0x400C, 4, .write⟩] } 0xA0000000#32
      (fun t => t.halt && t.fcause == 8#4 && t.mem.read 0x3001 == 128#8) = true := by decide +kernel

/-! ### Registers, the halted state and reset -/

/-- One read of the register at an offset. -/
def reads (s : State) (offset : Nat) (v : Word) : Bool :=
  nextIs (step { s with pending := [.rd (.reg offset) 4] }) fun t => t.replies == [v]

/-- Section 2.11, with `C = 8`: `SB_RSV` is 4 and `SB_DATA[8]` is unmapped. -/
theorem test_register_reads : reads start 0x004 0#32 = true ∧ reads start 0x014 8#32 = true ∧
    reads start 0x018 4#32 = true ∧ reads startCat 0x024 0x08000001#32 = true ∧ reads start 0x030 0#32 = true ∧
    reads start 0x1020 0#32 = true ∧ reads { start with res := ⟨2#16, 3#5⟩ } 0x01C 0x00030002#32 = true := by
  decide
/-- V-F-2 and P5: the halted block still shows its state, and discards commands. -/
theorem test_halted : reads halted 0x004 2#32 = true ∧ reads halted 0x008 3#32 = true ∧
    reads halted 0x00C 0x40010800#32 = true ∧ reads halted 0x1000 0x00030005#32 = true ∧
    runs halted 0x10030005#32 (fun t => t.size == 1#11 && t.fcmd == 0x40010800#32) = true := by decide
/-- V-F-4. -/
theorem test_software_reset :
    nextIs (step { halted with pending := [.wr (.bus 0x4028) 4 1#32] })
      (fun t => !t.halt && t.fcause == 0#4 && t.fcmd == 0#32 && t.size == 0#11 && t.rsv == 4#16) = true ∧
    nextIs (step { halted with pending := [.wr (.bus 0x4028) 4 0#32] }) (fun t => t.halt) = true := by decide
/-- V-SB-1. -/
theorem test_full : full { withSize 4#11 with rsv := 4#16 } = true ∧ full { withSize 3#11 with rsv := 4#16 } = false ∧
    full { withSize 7#11 with rsv := 0#16 } = false ∧ full { withSize 8#11 with rsv := 0#16 } = true ∧
    full { start with rsv := 65535#16 } = true := by decide
/-- R24. -/
theorem test_narrow_access : (match step { start with pending := [.rd (.reg 0x010) 2] } with
    | .refused .hostAccess => true
    | _ => false) = true := by decide

/-- R62, `drain`: `SB_SIZE`, each entry in index order, then `clear`, which a halted block discards (R100). -/
theorem test_drain :
    nextIs (runHost (drain halted) halted)
      (fun t => t.replies == [0x00030005#32, 1#32] && t.size == 1#11) = true ∧
    nextIs (runHost (drain { halted with halt := false }) { halted with halt := false })
      (fun t => t.replies == [0x00030005#32, 1#32] && t.size == 0#11) = true := by decide

/-! ### Witnesses: concrete states and operands that meet the hypotheses of each statement -/

theorem witness_DecodeOfEncode : (Instr.pushi 16#5 0xFFFF#16).wellFormed := by decide
theorem witness_DecodedWordIsItsEncoding : decode 0x1010FFFF#32 = .ok (.pushi 16#5 0xFFFF#16) := by decide
theorem witness_IllegalWordsHaltTheBlock :
    IllegalWord 0xB0000000#32 ∧ IllegalWord 0x0FFFFFFF#32 ∧ IllegalWord 0x10110000#32 ∧
      IllegalWord 0x1000FFFF#32 ∧ (issuing start 0xB0000000#32).halt = false ∧
      (issuing start 0xB0000000#32).pending = .wr (.reg 0x000) 4 0xB0000000#32 :: [] := by
  unfold IllegalWord
  decide
theorem witness_StepRunsDecodedCommand :
    (issuing start 0x10030005#32).halt = false ∧
      (issuing start 0x10030005#32).pending = .wr (.reg 0x000) 4 0x10030005#32 :: [] ∧
      decode 0x10030005#32 = .ok (.pushi 3#5 5#16) := by decide
theorem witness_HaltedBlock_command :
    halted.halt = true ∧ (issuing halted 0x10030005#32).pending = .wr (.reg 0x000) 4 0x10030005#32 :: [] := by
  decide
theorem witness_HaltedBlock_read :
    ∃ t, step { halted with pending := [.rd (.reg 0x1FFC) 4] } = .next t ∧ (0x1FFC : Nat) ≠ 0x004 :=
  ⟨_, rfl, by decide⟩
theorem witness_HaltedBlock_status :
    { halted with pending := [.rd (.reg 0x004) 4] }.pending = .rd (.reg 0x004) 4 :: [] := rfl
theorem witness_HaltedBlock_write :
    (0x064, { halted with cvDstV := 1#32 }) ∈ specWrites halted 1#32 := by simp [specWrites]
theorem witness_HaltedBlock_reset :
    ∃ t, step { halted with pending := [.wr (.reg 0x028) 4 1#32] } = .next t ∧ t.halt = false :=
  ⟨_, rfl, rfl⟩
theorem witness_IdleBlockKeepsItsState : start.pending = [] := rfl
theorem witness_BusAddressReachesItsRegister :
    (0x1FFF : Nat) < 0x2000 ∧ 0x3FFF < start.build.blkBase ∧ start.build.blkBase + 0x2000 ≤ 0x6000 := by decide
theorem witness_UndefinedHostAccessIsRefused :
    windowOffset start.build (.bus 0x5FFF) = some 0x1FFF ∧ (2 : Nat) ≠ 4 ∧ 0x1FFF % 4 ≠ 0 ∧
      windowOffset start.build (.reg 0x1FFC) = some 0x1FFC ∧ 0x1FFC % 4 = 0 := by decide
theorem witness_RegisterReads :
    (0x064, start.cvDstV) ∈ specReads start ∧
      { start with pending := [.rd (.reg 0x064) 4] }.pending = .rd (.reg 0x064) 4 :: [] := by
  simp [specReads]
theorem witness_RegisterWrites :
    (0x018, { start with rsv := 0xFFFF#16 }) ∈ specWrites { start with pending := [] } 0xFFFFFFFF#32 := by
  simp [specWrites, start, State.reset]
theorem witness_Unmapped : Unmapped start.build 0x1020 ∧ Unmapped start.build 0x02C ∧ Unmapped start.build 0x0FFC := by
  unfold Unmapped
  decide
theorem witness_ReadOnly :
    (0x024 : Nat) ∈ readOnlyOffsets ∧ (∃ i < start.build.cap.toNat, 0x101C = 0x1000 + 4 * i) ∧ 0x101C < 0x2000 :=
  ⟨by decide, ⟨7, by decide, by decide⟩, by decide⟩
theorem witness_ZeroFields :
    (0x058, 0xFFFFFFE0#32) ∈ zeroFields ∧ 0x20#32 &&& ~~~0xFFFFFFE0#32 = 0#32 &&& ~~~0xFFFFFFE0#32 ∧
      ∃ i < start.build.cap.toNat, (0x101C, 0xFFE00000#32) = (0x1000 + 4 * i, 0xFFE00000#32) :=
  ⟨by decide, by decide, ⟨7, by decide, by decide⟩⟩
theorem witness_BufferWindowReads :
    (0 : Nat) < halted.size.toNat ∧ halted.sb[0]? = some ⟨5#16, 3#5⟩ ∧ halted.size.toNat ≤ 1 ∧
      1 < halted.build.cap.toNat ∧ halted.build.cap.toNat ≤ 8 ∧ (8 : Nat) < 1024 := by decide
theorem witness_ReserveRegister :
    { start with pending := [.wr (.reg 0x018) 4 (BitVec.ofNat 32 65535), .rd (.reg 0x004) 4] }.pending =
      .wr (.reg 0x018) 4 (BitVec.ofNat 32 65535) :: .rd (.reg 0x004) 4 :: [] := rfl
theorem witness_CapacityRegister :
    { start with pending := [.rd (.reg 0x014) 4] }.pending = .rd (.reg 0x014) 4 :: [] := rfl
theorem witness_SoftwareResetAndResetInput :
    (1#32).getLsbD 0 = true ∧ (0xFFFFFFFE#32).getLsbD 0 = false ∧
      { halted with pending := [.wr (.reg 0x028) 4 1#32] }.pending = .wr (.reg 0x028) 4 1#32 :: [] ∧
      { halted with pending := [.resetInput] }.pending = .resetInput :: [] := by decide
theorem witness_FullnessPredicate :
    start.rsv.toNat = start.build.cap.toNat / 2 ∧
      ({ State.reset with size := 512#11 } : State).rsv.toNat = 1024 / 2 ∧ State.reset.build.cap = 1024#11 ∧
      ({ withSize 8#11 with rsv := 0#16 } : State).rsv = 0#16 ∧ (withSize 8#11).size.toNat ≤ 8 ∧
      start.build.cap.toNat ≤ ({ start with rsv := 8#16 } : State).rsv.toNat := by decide
theorem witness_PushAllAppendsOrFaults :
    start.build.cap.toNat < (withSize 7#11).size.toNat + [(⟨0#16, 0#5⟩ : Group), ⟨0#16, 0#5⟩].length ∧
      (withSize 7#11).size.toNat + [(⟨1#16, 1#5⟩ : Group)].length ≤ start.build.cap.toNat ∧
      start.sb.length = start.build.cap.toNat := by decide
theorem witness_PushesAppendToTheBitStream :
    (withSize 7#11).bufferInv ∧ (∃ t, pushAll (withSize 7#11) [⟨1#16, 1#5⟩] = .ok t) ∧
      ∃ t, exec .clear (withSize 7#11) = .next t :=
  ⟨by decide, ⟨_, rfl⟩, ⟨_, rfl⟩⟩
theorem witness_PushiCompletes : (withSize 7#11).size.toNat < start.build.cap.toNat := by decide
theorem witness_PushrCompletes : (withSize 7#11).size.toNat < start.build.cap.toNat := by decide
theorem witness_GraychCompletes : (withSize 4#11).size.toNat + 4 ≤ start.build.cap.toNat := by decide
theorem witness_PushBeyondCapacityFaults :
    (8 : Nat) < (withSize 8#11).size.toNat + 1 ∧ MagAccepts start (immValue 0x8000#16) ∧
      huffTable .ldc (0 : BitVec 8).toNat = some ⟨0#16, 2#5⟩ ∧ category (immValue 5#16) ≤ 15 ∧
      huffTable .ldc ((0 : BitVec 4).toNat * 16 + category (immValue 5#16)) = some ⟨4#16, 3#5⟩ ∧
      (8 : Nat) < (withSize 7#11).size.toNat + (if immValue 5#16 = 0 then 1 else 2) ∧
      (8 : Nat) < (withSize 5#11).size.toNat + 4 := by decide
theorem witness_ReserveBoundsPushes :
    (∀ i ∈ [Instr.graych, .pushi 1#5 1#16], i.wellFormed) ∧ start.halt = false ∧ full start = false ∧
      start.fcause ≠ 2#4 ∧ ([Instr.graych, .pushi 1#5 1#16].map mostGroups).sum ≤ start.rsv.toNat + 1 ∧
      ∃ t, issueAll [Instr.graych, .pushi 1#5 1#16] start = .next t :=
  ⟨by simp; decide, by decide, by decide, by decide, by decide, ⟨_, rfl⟩⟩
theorem witness_StrategiesGiveEqualResults :
    (immValue 0xF801#16).natAbs < start.build.range.toNat ∧ (immValue 0xF801#16) = -2047 := by decide
theorem witness_MagCompletes :
    MagAccepts start (immValue 0x8000#16) ∧ MagAccepts startCat (immValue 0x07FF#16) ∧
      (withSize 7#11).size.toNat < start.build.cap.toNat := by decide
theorem witness_MagRangeFaults :
    MagRejects startCat (immValue 0xF800#16) ∧
      MagRejects { start with build := small .fullTab [] } (immValue 0x0800#16) := by decide
theorem witness_HuffCompletes :
    huffTable .lac (0xFA : BitVec 8).toNat = some ⟨0xFFFE#16, 16#5⟩ ∧
      (withSize 7#11).size.toNat < start.build.cap.toNat := by decide +kernel
theorem witness_UnpopulatedSymbolFaults :
    huffTable .ldc (12 : BitVec 8).toNat = none ∧ MagAccepts start (immValue 0x8000#16) ∧
      15 < category (immValue 0x8000#16) ∧ MagAccepts startCat (immValue 0x0400#16) ∧
      1024 ≤ (immValue 0x0400#16).natAbs ∧ immValue 0#16 = 0 ∧
      huffTable .lac ((14 : BitVec 4).toNat * 16 + category (immValue 0#16)) = none := by decide +kernel
theorem witness_EncCompletes :
    MagAccepts startCat (immValue 0xFC01#16) ∧ category (immValue 0xFC01#16) ≤ 15 ∧
      huffTable .lac ((15 : BitVec 4).toNat * 16 + category (immValue 0xFC01#16)) = some ⟨0xFFFE#16, 16#5⟩ ∧
      immValue 0xFC01#16 ≠ 0 ∧ (withSize 6#11).size.toNat + 2 ≤ start.build.cap.toNat ∧ immValue 0#16 = 0 ∧
      huffTable .lac ((15 : BitVec 4).toNat * 16 + category (immValue 0#16)) = some ⟨0x7F9#16, 11#5⟩ ∧
      (withSize 7#11).size.toNat < start.build.cap.toNat := by decide +kernel
theorem witness_ResultRegisterUsers :
    (∃ t, exec (.mag false 5#16) start = .next t ∧ t.res ≠ start.res) ∧ Instr.graych ≠ .pushr ∧
      (∀ p imm, Instr.graych ≠ .mag p imm) ∧ (∀ p u sym, Instr.graych ≠ .huff p u sym) ∧
      (∀ u run imm, Instr.graych ≠ .enc u run imm) ∧ Instr.mag true 5#16 ≠ .pushr :=
  ⟨⟨_, rfl, by decide⟩, by simp, fun _ _ => by simp, fun _ _ _ => by simp, fun _ _ _ => by simp, by simp⟩
theorem witness_ZigzagResultRegister : ∀ idx, Instr.cvtc ≠ .zz idx := fun _ => by simp
theorem witness_CodesAreCanonicalAndPrefixFree :
    huffTable .lac 0 = some ⟨0xA#16, 4#5⟩ ∧ huffTable .lac 0xFA = some ⟨0xFFFE#16, 16#5⟩ := by decide +kernel
theorem witness_MagEncodeValueRuns : (-32768 : Int) ≤ -32768 ∧ (-32768 : Int) ≤ 32767 := by decide
theorem witness_MagDecode : 1 ≤ (⟨0x7FFF#16, 16#5⟩ : Group).len.toNat := by decide
theorem witness_Binary32RoundsToNearestEven :
    F32Finite 0x7F7FFFFF#32 ∧ F32Finite (f32Add 0x7F7FFFFF#32 0x80000001#32) ∧ F32Finite (f32Mul kYR k128) ∧
      F32Finite (f32Sub kYR k128) ∧ F32Finite (f32OfRatio 299 1000) := by decide +kernel
theorem witness_CvtcCompletes :
    colour.mem.wf ∧
      CvLegal colour [colour.cvSrcR, colour.cvSrcG, colour.cvSrcB] [colour.cvDstY, colour.cvDstU, colour.cvDstV] ∧
      ReadsAllowed colour [colour.cvSrcR, colour.cvSrcG, colour.cvSrcB] ∧
      WritesAllowed colour [colour.cvDstY, colour.cvDstU, colour.cvDstV] := by
  simp only [CvLegal, CvAlignOk, CvAddrOk, ReadsAllowed, WritesAllowed, List.forall_mem_cons,
    List.not_mem_nil, IsEmpty.forall_iff, implies_true, and_true]
  decide +kernel
theorem witness_CvtgCompletes :
    gray.mem.wf ∧ CvLegal gray [gray.cvSrcG] [gray.cvDstY] ∧ ReadsAllowed gray [gray.cvSrcG] ∧
      WritesAllowed gray [gray.cvDstY] := by
  simp only [CvLegal, CvAlignOk, CvAddrOk, ReadsAllowed, WritesAllowed, List.forall_mem_cons,
    List.not_mem_nil, IsEmpty.forall_iff, implies_true, and_true]
  decide +kernel
theorem witness_CvtgCompletes_top :
    CvLegal { sided 8#5 8#32 8#32 with cvDstY := 0xFFFFFF00#32, cvSrcG := 0xFFFFFFF0#32, cvStride := 1#32 }
      [0xFFFFFFF0#32] [0xFFFFFF00#32] := by
  simp only [CvLegal, CvAlignOk, CvAddrOk, List.forall_mem_cons,
    List.not_mem_nil, IsEmpty.forall_iff, implies_true, and_true]
  decide +kernel
theorem witness_ConversionChecks :
    ¬ CvParamOk (sided 17#5 8#32 8#32) ∧ ¬ CvParamOk (sided 16#5 8#32 0#32) ∧ CvParamOk (sided 16#5 8#32 8#32) ∧
      ¬ CvAlignOk [2#32] ∧ CvAlignOk [0xFFFFFF04#32] ∧
      ¬ CvAddrOk (sided 8#5 8#32 8#32) [0#32] [0xFFFFFF04#32] ∧
      ¬ CvAddrOk { sided 8#5 8#32 8#32 with cvStride := 2#32 } [0xFFFFFFF0#32] [0#32] := by
  simp only [CvAlignOk, CvAddrOk, List.forall_mem_cons,
    List.not_mem_nil, IsEmpty.forall_iff, implies_true, and_true]
  decide +kernel
/-- A platform that denies the read of one sample. -/
def unreadable : State := { colour with build := small .scan [⟨0x1010, 0x1010, 1, .read⟩] }
theorem witness_FailedReadLeavesMemory :
    CvLegal unreadable [unreadable.cvSrcR, unreadable.cvSrcG, unreadable.cvSrcB]
        [unreadable.cvDstY, unreadable.cvDstU, unreadable.cvDstV] ∧
      ¬ ReadsAllowed unreadable [unreadable.cvSrcR, unreadable.cvSrcG, unreadable.cvSrcB] ∧
      CvLegal { gray with build := small .scan [⟨0x3003, 0x3003, 1, .read⟩] } [gray.cvSrcG] [gray.cvDstY] ∧
      ¬ ReadsAllowed { gray with build := small .scan [⟨0x3003, 0x3003, 1, .read⟩] } [gray.cvSrcG] := by
  simp only [CvLegal, CvAlignOk, CvAddrOk, ReadsAllowed, List.forall_mem_cons,
    List.not_mem_nil, IsEmpty.forall_iff, implies_true, and_true]
  decide +kernel
/-- A platform that denies the write of the last element. -/
def unwritable : State := { colour with build := small .scan [⟨0x202C, 0x202C, 4, .write⟩] }
theorem witness_FailedWriteSpoilsOnlyTheBlocks :
    unwritable.mem.wf ∧
      CvLegal unwritable [unwritable.cvSrcR, unwritable.cvSrcG, unwritable.cvSrcB]
        [unwritable.cvDstY, unwritable.cvDstU, unwritable.cvDstV] ∧
      ReadsAllowed unwritable [unwritable.cvSrcR, unwritable.cvSrcG, unwritable.cvSrcB] ∧
      ¬ WritesAllowed unwritable [unwritable.cvDstY, unwritable.cvDstU, unwritable.cvDstV] ∧
      ReadsAllowed { gray with build := small .scan [⟨0x400C, 0x400C, 4, .write⟩] } [gray.cvSrcG] ∧
      ¬ WritesAllowed { gray with build := small .scan [⟨0x400C, 0x400C, 4, .write⟩] } [gray.cvDstY] := by
  simp only [CvLegal, CvAlignOk, CvAddrOk, ReadsAllowed, WritesAllowed, List.forall_mem_cons,
    List.not_mem_nil, IsEmpty.forall_iff, implies_true, and_true]
  decide +kernel
/-- The bytes of column 1 differ: P3 never reads them. -/
def colourOther : Memory := [(0x1000, 255#8), (0x1110, 255#8)]
theorem witness_ConversionDependsOnItsSamples :
    colourOther.wf ∧ (∀ src ∈ [colour.cvSrcR, colour.cvSrcG, colour.cvSrcB], ∀ i < colour.cvN.toNat,
        ∀ j < colour.cvN.toNat,
        colour.mem.read (pixelAddr colour src i j) = colourOther.read (pixelAddr colour src i j)) ∧
      InBlock colour colour.cvDstV 0x202F ∧ InBlock colour colour.cvDstY 0x2000 ∧
      InBlock colour colour.cvDstU 0x2010 := by
  simp only [List.forall_mem_cons,
    List.not_mem_nil, IsEmpty.forall_iff, implies_true, and_true]
  decide +kernel
theorem witness_ConversionDependsOnItsSamples_runs :
    nextIs (exec .cvtc colour) (fun _ => true) = true ∧
      nextIs (exec .cvtc { colour with mem := colourOther }) (fun _ => true) = true ∧
      nextIs (exec .cvtg gray) (fun _ => true) = true ∧
      nextIs (exec .cvtg { gray with mem := gray.mem }) (fun _ => true) = true := by decide +kernel
theorem witness_CommandsLeaveHostState : ∃ t, exec .graych start = .next t := ⟨_, rfl⟩
theorem witness_MemoryIsLittleEndian : colour.mem.wf := by decide
theorem witness_HostMemoryAccess :
    colour.mem.wf ∧ (0xFFFFFFFF : Nat) < 2 ^ 32 ∧ 2 ^ 32 ≤ (0x100000000 : Nat) := by decide
theorem witness_StepKeepsTheMachineRules :
    { halted with pending := [.resetInput] }.inv ∧
      (∃ t, step { halted with pending := [.resetInput] } = .next t) ∧
      (issuing colour 0x90000000#32).inv ∧
      nextIs (step (issuing colour 0x90000000#32)) (fun _ => true) = true :=
  ⟨by decide, ⟨_, rfl⟩, by decide, by decide +kernel⟩

end Sys2Proof.Tests
end

section
/-! Binary32 arithmetic rounds to nearest, ties to even (R12, R81), and IMM is a signed 16-bit value
(R10, R57). A result is `q * 2 ^ sh` units, where `q` is the quotient that `divNearestEven` rounds: every
other binary32 value is a multiple of `2 ^ sh`, or lies below the binade of the exact result. -/

namespace Sys2Proof.Machine

/-! ### Division to nearest -/

theorem div_le_divNearestEven (n d : Nat) : n / d ≤ divNearestEven n d := by
  unfold divNearestEven; split_ifs <;> omega

theorem divNearestEven_le_div_succ (n d : Nat) : divNearestEven n d ≤ n / d + 1 := by
  unfold divNearestEven; split_ifs <;> omega

/-- The error is at most half the divisor, and at exactly half the quotient is even. -/
theorem divNearestEven_error (n : Nat) {d : Nat} (hd : 0 < d) :
    2 * ((n : Int) - divNearestEven n d * d).natAbs ≤ d ∧
      (2 * ((n : Int) - divNearestEven n d * d).natAbs = d → divNearestEven n d % 2 = 0) := by
  have hdiv : (n : Int) = (n / d : Nat) * (d : Int) + (n % d : Nat) := by
    exact_mod_cast (Nat.div_add_mod' n d).symm
  have hlt := Nat.mod_lt n hd
  have down : (n : Int) - (n / d : Nat) * d = (n % d : Nat) := by omega
  have up : (n : Int) - (n / d + 1 : Nat) * d = (n % d : Nat) - (d : Int) := by
    rw [Nat.cast_succ, add_one_mul]; omega
  unfold divNearestEven
  split_ifs with hgt htie
  · rw [up]
    omega
  · rcases Nat.mod_two_eq_zero_or_one (n / d) with hpar | hpar
    · rw [hpar, add_zero, down]
      omega
    · rw [hpar, up]
      omega
  · rw [down]
    omega

/-- No multiple of the divisor is nearer than the rounded one, and an equally near one leaves it even. -/
theorem divNearestEven_nearest (n : Nat) {d : Nat} (hd : 0 < d) (k : Int) :
    ((n : Int) - divNearestEven n d * d).natAbs ≤ ((n : Int) - k * d).natAbs ∧
      (((n : Int) - divNearestEven n d * d).natAbs = ((n : Int) - k * d).natAbs →
        k ≠ divNearestEven n d → divNearestEven n d % 2 = 0) := by
  obtain ⟨half, even⟩ := divNearestEven_error n hd
  by_cases hk : k = divNearestEven n d
  · simp [hk]
  have apart : d ≤ ((k - divNearestEven n d) * d).natAbs := by
    rw [Int.natAbs_mul, Int.natAbs_natCast]
    exact Nat.le_mul_of_pos_left d (by omega)
  rw [sub_mul] at apart
  exact ⟨by omega, fun heq _ => even (by omega)⟩

/-! ### The encoding -/

theorem f32Mag_eq (x : F32) :
    f32Mag x = if x.toNat / 2 ^ 23 % 2 ^ 8 = 0 then x.toNat % 2 ^ 23
      else (2 ^ 23 + x.toNat % 2 ^ 23) * 2 ^ (x.toNat / 2 ^ 23 % 2 ^ 8 - 1) := by
  simp [f32Mag, BitVec.extractLsb'_toNat, Nat.shiftRight_eq_div_pow]

@[simp] theorem f32Units_natAbs (x : F32) : (f32Units x).natAbs = f32Mag x := by
  unfold f32Units; split_ifs <;> simp

@[simp] theorem f32Units_f32Negate (x : F32) : f32Units (f32Negate x) = -f32Units x := by
  have hneg : f32Neg (f32Negate x) = !f32Neg x := by simp [f32Neg, f32Negate]
  have hmag : f32Mag (f32Negate x) = f32Mag x := by
    have he : (f32Negate x).extractLsb' 23 8 = x.extractLsb' 23 8 := by
      simp [f32Negate, BitVec.extractLsb'_xor]
    have hf : (f32Negate x).extractLsb' 0 23 = x.extractLsb' 0 23 := by
      simp [f32Negate, BitVec.extractLsb'_xor]
    simp only [f32Mag, he, hf]
  cases h : f32Neg x <;> simp [f32Units, hneg, hmag, h]

theorem f32Pack_toNat (neg : Bool) {m : Nat} (hm : m < 2 ^ 31) :
    (f32Pack neg m).toNat = if neg then 2 ^ 31 + m else m := by
  rw [f32Pack, BitVec.toNat_ofNat, Nat.mod_eq_of_lt]
  split_ifs <;> omega

theorem f32Neg_f32Pack (neg : Bool) {m : Nat} (hm : m < 2 ^ 31) : f32Neg (f32Pack neg m) = neg := by
  rw [f32Neg, BitVec.getLsbD, f32Pack_toNat neg hm, Nat.testBit_eq_decide_div_mod_eq]
  cases neg
  · rw [decide_eq_false_iff_not, if_neg Bool.false_ne_true]
    omega
  · rw [decide_eq_true_eq, if_pos rfl]
    omega

theorem f32Pack_getLsbD_zero (neg : Bool) {m : Nat} (hm : m < 2 ^ 31) :
    (f32Pack neg m).getLsbD 0 = decide (m % 2 = 1) := by
  rw [BitVec.getLsbD, f32Pack_toNat neg hm, Nat.testBit_eq_decide_div_mod_eq]
  refine decide_eq_decide.mpr ?_
  split_ifs <;> omega

/-- A significand of 24 bits, its carry out `q = 2 ^ 24` included, encodes `q * 2 ^ sh` units. -/
theorem f32Mag_f32Pack (neg : Bool) {sh q : Nat} (hm : sh * 2 ^ 23 + q < 2 ^ 31) (hq : q ≤ 2 ^ 24)
    (hnorm : sh = 0 ∨ 2 ^ 23 ≤ q) : f32Mag (f32Pack neg (sh * 2 ^ 23 + q)) = q * 2 ^ sh := by
  have ht := f32Pack_toNat neg hm
  rw [f32Mag_eq]
  generalize (f32Pack neg (sh * 2 ^ 23 + q)).toNat = t at ht ⊢
  have hexp : t / 2 ^ 23 % 2 ^ 8 = sh + q / 2 ^ 23 := by split_ifs at ht <;> omega
  have hfrac : t % 2 ^ 23 = q % 2 ^ 23 := by split_ifs at ht <;> omega
  rw [hexp, hfrac]
  clear ht hexp hfrac
  obtain hlow | hmid | rfl : q < 2 ^ 23 ∨ (2 ^ 23 ≤ q ∧ q < 2 ^ 24) ∨ q = 2 ^ 24 := by omega
  · obtain rfl : sh = 0 := by omega
    rw [if_pos (by omega), Nat.mod_eq_of_lt hlow, pow_zero, mul_one]
  · have hdiv : q / 2 ^ 23 = 1 := by omega
    have hmod : 2 ^ 23 + q % 2 ^ 23 = q := by omega
    rw [if_neg (by omega), hdiv, hmod, Nat.add_sub_cancel]
  · rw [if_neg (by omega), show sh + 2 ^ 24 / 2 ^ 23 - 1 = sh + 1 by omega]
    ring

theorem f32Units_f32Pack (neg : Bool) {sh q : Nat} (hm : sh * 2 ^ 23 + q < 2 ^ 31) (hq : q ≤ 2 ^ 24)
    (hnorm : sh = 0 ∨ 2 ^ 23 ≤ q) :
    f32Units (f32Pack neg (sh * 2 ^ 23 + q)) = (if neg then -1 else 1) * ((q * 2 ^ sh : Nat) : Int) := by
  rw [f32Units, f32Neg_f32Pack neg hm, f32Mag_f32Pack neg hm hq hnorm]
  cases neg <;> simp

/-- From the binade of `2 ^ (sh + 23)` up the binary32 values are `2 ^ sh` apart. -/
theorem two_pow_dvd_f32Mag_or_lt (x : F32) (sh : Nat) : 2 ^ sh ∣ f32Mag x ∨ f32Mag x < 2 ^ (sh + 23) := by
  have hfrac := Nat.mod_lt x.toNat (show 0 < 2 ^ 23 by decide)
  rw [f32Mag_eq]
  split_ifs with hexp
  · exact .inr (hfrac.trans_le (Nat.pow_le_pow_right (by decide) (by omega)))
  generalize x.toNat / 2 ^ 23 % 2 ^ 8 = e at hexp ⊢
  rcases Nat.lt_or_ge (e - 1) sh with hlt | hge
  · right
    calc (2 ^ 23 + x.toNat % 2 ^ 23) * 2 ^ (e - 1)
        < 2 ^ 24 * 2 ^ (e - 1) := Nat.mul_lt_mul_of_pos_right (by omega) (by positivity)
      _ = 2 ^ (24 + (e - 1)) := (pow_add ..).symm
      _ ≤ 2 ^ (sh + 23) := Nat.pow_le_pow_right (by decide) (by omega)
  · exact .inl (dvd_mul_of_dvd_right (pow_dvd_pow 2 hge) _)

/-! ### Rounding -/

theorem f32Shift_bounds (q : Nat) :
    q < 2 ^ (f32Shift q + 24) ∧ (f32Shift q = 0 ∨ 2 ^ (f32Shift q + 23) ≤ q) := by
  unfold f32Shift
  split_ifs with hq
  · simp [hq]
  · refine ⟨Nat.lt_log2_self.trans_le (Nat.pow_le_pow_right (by decide) (by omega)), ?_⟩
    refine or_iff_not_imp_left.mpr fun hsh => ?_
    exact (Nat.pow_le_pow_right (by decide) (by omega)).trans (Nat.log2_self_le hq)

/-- The significand that `roundMag` rounds to. -/
def roundSignificand (n d : Nat) : Nat := divNearestEven n (d * 2 ^ f32Shift (n / d))

theorem roundMag_eq (n d : Nat) :
    roundMag n d = min f32Infinity (f32Shift (n / d) * 2 ^ 23 + roundSignificand n d) := rfl

theorem roundSignificand_le (n d : Nat) : roundSignificand n d ≤ 2 ^ 24 := by
  refine (divNearestEven_le_div_succ ..).trans (Nat.succ_le_of_lt ?_)
  rw [← Nat.div_div_eq_div_mul, Nat.div_lt_iff_lt_mul (by positivity), ← pow_add, add_comm]
  exact (f32Shift_bounds (n / d)).1

theorem le_roundSignificand {n d : Nat} (hsh : f32Shift (n / d) ≠ 0) : 2 ^ 23 ≤ roundSignificand n d := by
  refine le_trans ?_ (div_le_divNearestEven ..)
  rw [← Nat.div_div_eq_div_mul, Nat.le_div_iff_mul_le (by positivity), ← pow_add, add_comm]
  exact (f32Shift_bounds (n / d)).2.resolve_left hsh

/-- The units of the value that `roundMag` encodes when it does not overflow. -/
def roundUnits (n d : Nat) : Nat := roundSignificand n d * 2 ^ f32Shift (n / d)

/-- A finite result is no saturated one. -/
theorem roundMag_of_finite {neg : Bool} {n d : Nat} (h : F32Finite (f32Pack neg (roundMag n d))) :
    roundMag n d = f32Shift (n / d) * 2 ^ 23 + roundSignificand n d ∧ roundMag n d < 2 ^ 31 := by
  have hle : roundMag n d ≤ f32Infinity := Nat.min_le_left ..
  have hlt : roundMag n d < 2 ^ 31 := hle.trans_lt (by decide)
  rw [F32Finite, f32Pack_toNat neg hlt] at h
  have hfin : roundMag n d < f32Infinity := by
    unfold f32Infinity
    split_ifs at h <;> omega
  refine ⟨?_, hlt⟩
  rw [roundMag_eq] at hfin ⊢
  omega

theorem f32Units_f32Pack_roundMag {neg : Bool} {n d : Nat} (h : F32Finite (f32Pack neg (roundMag n d))) :
    f32Units (f32Pack neg (roundMag n d)) = (if neg then -1 else 1) * (roundUnits n d : Int) := by
  obtain ⟨henc, hlt⟩ := roundMag_of_finite h
  rw [henc] at hlt ⊢
  exact f32Units_f32Pack neg hlt (roundSignificand_le n d) (or_iff_not_imp_left.mpr le_roundSignificand)

theorem f32Pack_roundMag_getLsbD_zero {neg : Bool} {n d : Nat}
    (h : F32Finite (f32Pack neg (roundMag n d))) (heven : roundSignificand n d % 2 = 0) :
    (f32Pack neg (roundMag n d)).getLsbD 0 = false := by
  obtain ⟨henc, hlt⟩ := roundMag_of_finite h
  rw [f32Pack_getLsbD_zero neg hlt, henc, decide_eq_false_iff_not]
  omega

/-- Whatever lies below the binade of `2 ^ (sh + 23)` is farther from `n / d` than that power, which is a
multiple of `2 ^ sh`; so `divNearestEven_nearest` decides. -/
theorem roundUnits_nearest (n : Nat) {d : Nat} (hd : 0 < d) {k : Int}
    (hk : 2 ^ f32Shift (n / d) ∣ k.natAbs ∨ k.natAbs < 2 ^ (f32Shift (n / d) + 23)) :
    ((n : Int) - roundUnits n d * d).natAbs ≤ ((n : Int) - k * d).natAbs ∧
      (((n : Int) - roundUnits n d * d).natAbs = ((n : Int) - k * d).natAbs → k ≠ roundUnits n d →
        roundSignificand n d % 2 = 0) := by
  have hbinade := (f32Shift_bounds (n / d)).2
  have near := divNearestEven_nearest n (d := d * 2 ^ f32Shift (n / d)) (by positivity)
  rw [← roundSignificand] at near
  unfold roundUnits
  generalize f32Shift (n / d) = sh at *
  have scale (q : Int) : q * ((d * 2 ^ sh : Nat) : Int) = q * 2 ^ sh * d := by push_cast; ring
  simp only [scale] at near
  push_cast
  have hk' : (2 : Int) ^ sh ∣ k ∨ sh ≠ 0 ∧ k < 2 ^ (sh + 23) := by
    by_cases hdvd : 2 ^ sh ∣ k.natAbs
    · exact .inl (by simpa using Int.natCast_dvd.mpr hdvd)
    · refine .inr ⟨by rintro rfl; simp at hdvd, ?_⟩
      have := hk.resolve_left hdvd
      zify at this
      exact (le_abs_self k).trans_lt this
  rcases hk' with ⟨q, rfl⟩ | ⟨hsh, hlow⟩
  · rw [mul_comm _ q]
    refine ⟨(near q).1, fun heq hne => (near q).2 heq ?_⟩
    rintro rfl
    exact hne rfl
  · have hn : (2 : Int) ^ (sh + 23) * d ≤ n := by
      exact_mod_cast (Nat.le_div_iff_mul_le hd).mp (hbinade.resolve_left hsh)
    have hkd : k * d < 2 ^ (sh + 23) * d := by gcongr
    have hnear := (near (2 ^ 23)).1
    rw [← pow_add, add_comm 23] at hnear
    omega

/-- A rounding whose result is finite is to nearest, ties to even, on either side of zero. -/
theorem nearestEven_f32Pack_roundMag {neg : Bool} {n d : Nat} {v : Int} (hd : 0 < d)
    (hv : v = (if neg then -1 else 1) * (n : Int)) (h : F32Finite (f32Pack neg (roundMag n d))) :
    NearestEven (f32Pack neg (roundMag n d)) v d := by
  intro y _
  have hy := two_pow_dvd_f32Mag_or_lt y (f32Shift (n / d))
  rw [hv, f32Units_f32Pack_roundMag h]
  cases neg
  · obtain ⟨near, even⟩ := roundUnits_nearest n hd (k := f32Units y) (by simpa using hy)
    simp only [Bool.false_eq_true, if_false, one_mul]
    exact ⟨near, fun heq hne => f32Pack_roundMag_getLsbD_zero h (even heq hne)⟩
  · obtain ⟨near, even⟩ := roundUnits_nearest n hd (k := -f32Units y) (by simpa using hy)
    rw [neg_mul] at near even
    simp only [if_true, neg_mul, one_mul]
    exact ⟨by omega, fun heq hne => f32Pack_roundMag_getLsbD_zero h (even (by omega) (by omega))⟩

/-! ### The operations -/

/-- The zero cases of `f32Add` are roundings of zero. -/
theorem f32Add_eq_f32Pack (x y : F32) :
    ∃ neg : Bool, f32Add x y = f32Pack neg (roundMag (f32Units x + f32Units y).natAbs 1) ∧
      f32Units x + f32Units y = (if neg then -1 else 1) * ((f32Units x + f32Units y).natAbs : Int) := by
  unfold f32Add
  generalize f32Units x + f32Units y = z
  by_cases hz : z = 0
  · exact ⟨f32Neg x && f32Neg y, by simp [hz, roundMag, f32Shift, divNearestEven], by simp [hz]⟩
  · refine ⟨decide (z < 0), by simp [hz], ?_⟩
    simp only [decide_eq_true_eq]
    split_ifs <;> omega

theorem nearestEven_f32Add {x y : F32} (h : F32Finite (f32Add x y)) :
    NearestEven (f32Add x y) (f32Units x + f32Units y) 1 := by
  obtain ⟨neg, hadd, hsum⟩ := f32Add_eq_f32Pack x y
  rw [hadd] at h ⊢
  exact nearestEven_f32Pack_roundMag Nat.one_pos hsum h

theorem nearestEven_f32Sub {x y : F32} (h : F32Finite (f32Sub x y)) :
    NearestEven (f32Sub x y) (f32Units x - f32Units y) 1 := by
  simpa [f32Sub, sub_eq_add_neg] using nearestEven_f32Add h

theorem f32Units_mul (x y : F32) :
    f32Units x * f32Units y =
      (if f32Neg x != f32Neg y then -1 else 1) * ((f32Mag x * f32Mag y : Nat) : Int) := by
  cases hx : f32Neg x <;> cases hy : f32Neg y <;> simp [f32Units, hx, hy]

theorem nearestEven_f32Mul {x y : F32} (h : F32Finite (f32Mul x y)) :
    NearestEven (f32Mul x y) (f32Units x * f32Units y) (2 ^ 149) :=
  nearestEven_f32Pack_roundMag (by positivity) (f32Units_mul x y) h

theorem nearestEven_f32OfRatio {n d : Nat} (hd : 0 < d) (h : F32Finite (f32OfRatio n d)) :
    NearestEven (f32OfRatio n d) (n * 2 ^ 149 : Nat) d :=
  nearestEven_f32Pack_roundMag hd (by simp) h

/-- Settles O44: each operation is one rounding of the exact result. Finite operands are not needed, as
`f32Units` is what the operations read. -/
theorem binary32RoundsToNearestEven : Obligations.Binary32RoundsToNearestEven :=
  ⟨fun _ _ _ _ => ⟨nearestEven_f32Add, nearestEven_f32Sub, nearestEven_f32Mul⟩,
    fun _ _ => nearestEven_f32OfRatio⟩

/-! ### Signed immediates -/

/-- Settles O28: `immValue` is `BitVec.toInt`, and the most significant bit is bit 15. -/
theorem signedImmediate : Obligations.SignedImmediate := by
  intro imm
  have hsign : imm.getLsbD 15 = imm.msb := (BitVec.msb_eq_getLsbD_last imm).symm
  refine ⟨?_, BitVec.le_toInt imm, Int.le_of_lt_add_one (BitVec.toInt_lt (x := imm))⟩
  rw [hsign]
  exact BitVec.toInt_eq_msb_cond imm

end Sys2Proof.Machine
end

section
/-! What one command can do to the state, with the facts the invariant of the machine needs: every group a
command makes is canonical (R20), and a conversion writes no byte above 0xFFFFFFFF (R41, R87). From it the
frame of the commands (R31, R34, R36) and the invariant (R19, R20, R28, R29, R41). -/

namespace Sys2Proof.Machine

/-! ### Canonical groups -/

/-- Every code of the four tables is canonical (R90). -/
theorem tableEntries_canonical (t : Table) : ∀ e ∈ tableEntries t, e.2.canonical := by
  cases t <;> decide +kernel

theorem huffTable_canonical {t : Table} {sym : Nat} {g : Group} (h : huffTable t sym = some g) :
    g.canonical :=
  tableEntries_canonical t _ (findEntry_mem h)

theorem magEncode_immValue_canonical (imm : BitVec 16) : (magEncode (immValue imm)).canonical := by
  have hcat : category (immValue imm) ≤ 16 :=
    category_le (BitVec.le_toInt imm) (Int.le_of_lt_add_one (BitVec.toInt_lt (x := imm)))
  have hbits := magBits_lt (immValue imm)
  have hpow : 2 ^ category (immValue imm) ≤ 2 ^ 16 := Nat.pow_le_pow_right (by decide) hcat
  simp only [magEncode, Group.canonical, BitVec.toNat_ofNat]
  rw [Nat.mod_eq_of_lt (by omega), Nat.mod_eq_of_lt (by omega)]
  exact ⟨hcat, hbits⟩

theorem encGroups_canonical {code suffix : Group} (hc : code.canonical) (hs : suffix.canonical) :
    ∀ g ∈ encGroups code suffix, g.canonical := by
  unfold encGroups
  split
  · simpa using hc
  · simpa using And.intro hc hs

/-- The group `RES` holds after reset (R40). -/
theorem emptyGroup_canonical : (⟨0#16, 0#5⟩ : Group).canonical := by decide

theorem grayGroups_canonical : ∀ g ∈ grayGroups, g.canonical := by decide

/-- The decoder refuses a `PUSHI` whose group is not canonical (R59); the other commands are well-formed at
every operand. -/
theorem decode_wellFormed {w : Word} {i : Instr} (h : decode w = .ok i) : i.wellFormed := by
  unfold decode at h
  split at h
  · cases h
  · rename_i op _
    split_ifs at h with _ hlen hval
    cases h
    cases op with
    | pushi => exact ⟨by simpa using hlen, by simpa using hval⟩
    | nop | pushr | clear | mag | huff | enc | zz | graych | cvtc | cvtg => trivial

/-! ### Memory after a conversion -/

/-- A memory in canonical form within the data space (R41). -/
def Memory.InSpace (m : Memory) : Prop := m.wf ∧ ∀ c ∈ m, c.1 < 2 ^ 32

/-- A destination block that passes the checks ends within the data space (R87). -/
theorem block_end_le_of_cvCheck {s : State} {srcs dsts : List Word} (h : cvCheck s srcs dsts = none)
    {d : Word} (hd : d ∈ dsts) : d.toNat + 4 * (cvSide s * cvSide s) ≤ 2 ^ 32 := by
  obtain ⟨_, _, _, _, hlast⟩ := cvCheck_eq_none.1 h
  have hl := hlast d hd
  rw [dstLast, Nat.mul_assoc] at hl
  omega

theorem writeBlock_inSpace {m : Memory} (hm : m.InSpace) {dst : Word} {n : Nat}
    (hd : dst.toNat + 4 * (n * n) ≤ 2 ^ 32) (f : Nat → Nat → F32) : (writeBlock m dst n f).InSpace := by
  refine ⟨writeBlock_wf hm.1 dst n f, fun c hc => ?_⟩
  rcases mem_writeBlock hc with hin | hold
  · omega
  · exact hm.2 c hold

theorem spoilBlocks_inSpace {s : State} {srcs dsts : List Word} (h : cvCheck s srcs dsts = none)
    (hm : s.mem.InSpace) : (spoilBlocks s dsts).mem.InSpace := by
  refine ⟨(spoilBlocks_mem hm.1 dsts).1, fun c hc => ?_⟩
  rcases mem_spoilBlocks hc with ⟨d, hd, hin⟩ | hold
  · have hend := block_end_le_of_cvCheck h hd
    rw [Nat.mul_assoc] at hin
    omega
  · exact hm.2 c hold

/-! ### The effect of a command -/

/-- What command `i` can make of the state `s`: a fault with nothing else changed; new results; groups
pushed that fit, and new results; the buffer emptied; or, for a conversion alone, another memory, with or
without the fault of a failed write. -/
inductive CommandEffect (i : Instr) (s : State) : State → Prop where
  | fault (c : Cause) : CommandEffect i s (raise s c (encode i))
  | results (r : Group) (z : BitVec 6) (canonical : s.res.canonical → r.canonical) :
      CommandEffect i s ((s.withRes r).withZres z)
  | push (gs : List Group) (r : Group) (fits : s.size.toNat + gs.length ≤ s.build.cap.toNat)
      (canonical : i.wellFormed → s.res.canonical → (∀ g ∈ gs, g.canonical) ∧ r.canonical) :
      CommandEffect i s ((s.withPushed gs).withRes r)
  | clear : CommandEffect i s (s.withSize 0#11)
  | convert (m : Memory) (conversion : i = .cvtc ∨ i = .cvtg) (space : s.mem.InSpace → m.InSpace) :
      CommandEffect i s (s.withMem m)
  | busError (m : Memory) (k : Nat) (conversion : i = .cvtc ∨ i = .cvtg)
      (space : s.mem.InSpace → m.InSpace) :
      CommandEffect i s (raise ((s.withMem m).withDraws k) .busErr (encode i))

/-- A push that keeps `RES`, or its overflow (R65). -/
theorem finish_pushAll_effect (i : Instr) (s : State) (gs : List Group)
    (h : i.wellFormed → s.res.canonical → ∀ g ∈ gs, g.canonical) :
    ∃ t, finish i s (pushAll s gs) = .next t ∧ CommandEffect i s t := by
  rcases pushAll_cases s gs with ⟨hp, hfit⟩ | ⟨hp, _⟩ <;> rw [hp]
  · exact ⟨_, rfl, .push gs s.res hfit fun hw hr => ⟨h hw hr, hr⟩⟩
  · exact ⟨_, rfl, .fault .sbOvf⟩

/-- A push that also writes `RES`, or its overflow (R65). -/
theorem finish_pushAll_withRes_effect (i : Instr) (s : State) {gs : List Group} {r : Group}
    (hgs : ∀ g ∈ gs, g.canonical) (hr : r.canonical) :
    ∃ t, finish i s ((pushAll s gs).map (·.withRes r)) = .next t ∧ CommandEffect i s t := by
  rcases pushAll_cases s gs with ⟨hp, hfit⟩ | ⟨hp, _⟩ <;> rw [hp]
  · exact ⟨_, rfl, .push gs r hfit fun _ _ => ⟨hgs, hr⟩⟩
  · exact ⟨_, rfl, .fault .sbOvf⟩

/-- `RES` written, and pushed when the command's `P` bit asks for it (R75, R77). -/
theorem finish_pushIf_effect (i : Instr) (s : State) (p : Bool) {r : Group} (hr : r.canonical) :
    ∃ t, finish i s ((pushIf p s [r]).map (·.withRes r)) = .next t ∧ CommandEffect i s t := by
  cases p with
  | false => exact ⟨_, rfl, .results r s.zres fun _ => hr⟩
  | true => exact finish_pushAll_withRes_effect i s (by simpa using hr) hr

/-- A conversion whose writes, once the checks pass, stay in the data space. -/
theorem convert_effect {i : Instr} {s : State} {srcs dsts : List Word} {m : Memory}
    (hi : i = .cvtc ∨ i = .cvtg)
    (hm : cvCheck s srcs dsts = none → s.mem.InSpace → m.InSpace) :
    ∃ t, convert i s srcs dsts m = .next t ∧ CommandEffect i s t := by
  rcases convert_cases i s srcs dsts m with ⟨c, _, h⟩ | ⟨_, _, h⟩ | ⟨hc, _, _, h⟩ | ⟨hc, _, _, h⟩ <;> rw [h]
  · exact ⟨_, rfl, .fault c⟩
  · exact ⟨_, rfl, .fault .busErr⟩
  · obtain ⟨m', k, hs⟩ := spoilBlocks_eq s dsts
    have hspace := spoilBlocks_inSpace (s := s) hc
    rw [hs] at hspace ⊢
    exact ⟨_, rfl, .busError m' k hi hspace⟩
  · exact ⟨_, rfl, .convert m hi (hm hc)⟩

/-- Every command answers a next state, and these are its effects (R67 to R70, R75, R77 to R80, R88, R89). -/
theorem exec_effect (i : Instr) (s : State) : ∃ t, exec i s = .next t ∧ CommandEffect i s t := by
  cases i with
  | nop => exact ⟨_, rfl, .results s.res s.zres id⟩
  | zz idx => exact ⟨_, rfl, .results s.res (zigzag idx) id⟩
  | clear => exact ⟨_, rfl, .clear⟩
  | pushi len val => exact finish_pushAll_effect _ s _ fun hw _ => by simpa using hw
  | pushr => exact finish_pushAll_effect _ s _ fun _ hr => by simpa using hr
  | graych => exact finish_pushAll_effect _ s _ fun _ _ => grayGroups_canonical
  | mag p imm =>
    simp only [exec, execMag]
    split
    · exact ⟨_, rfl, .fault .magRange⟩
    · exact finish_pushIf_effect _ s p (magEncode_immValue_canonical imm)
  | huff p t sym =>
    simp only [exec, execHuff]
    rcases lookup_cases t sym.toNat with ⟨g, hg, hl⟩ | ⟨_, hl⟩ <;> rw [hl]
    · exact finish_pushIf_effect _ s p (huffTable_canonical hg)
    · exact ⟨_, rfl, .fault .symUnpop⟩
  | enc t run imm =>
    simp only [exec, execEnc]
    split
    · exact ⟨_, rfl, .fault .magRange⟩
    · cases hsym : encSymbol run (category (immValue imm)) with
      | error c => exact ⟨_, rfl, .fault c⟩
      | ok sym =>
        rcases lookup_cases t sym with ⟨g, hg, hl⟩ | ⟨_, hl⟩ <;> simp only [hl]
        · have hmag := magEncode_immValue_canonical imm
          exact finish_pushAll_withRes_effect _ s (encGroups_canonical (huffTable_canonical hg) hmag) hmag
        · exact ⟨_, rfl, .fault .symUnpop⟩
  | cvtc =>
    refine convert_effect (.inl rfl) fun hc hm => ?_
    have hend := fun d hd => block_end_le_of_cvCheck hc (d := d) hd
    exact writeBlock_inSpace (writeBlock_inSpace (writeBlock_inSpace hm (hend _ (by simp)) _)
      (hend _ (by simp)) _) (hend _ (by simp)) _
  | cvtg =>
    exact convert_effect (.inr rfl) fun hc hm =>
      writeBlock_inSpace hm (block_end_le_of_cvCheck hc (by simp)) _

theorem CommandEffect.of_exec {i : Instr} {s t : State} (h : exec i s = .next t) : CommandEffect i s t := by
  obtain ⟨u, hu, heff⟩ := exec_effect i s
  cases hu.symm.trans h
  exact heff

/-- Settles O56, by the effects of a command: only those of a conversion name memory or the draw counter, and none
names the reserve, a converter register, the build or a list of HOST. -/
theorem commandsLeaveHostState : Obligations.CommandsLeaveHostState := by
  intro i s t h
  cases CommandEffect.of_exec h with
  | fault | results | push | clear => simp
  | convert m hi | busError m k hi => rcases hi with rfl | rfl <;> simp

/-! ### Each update of the state keeps the invariant -/

section
variable {s : State} (h : s.inv)
include h

theorem inv_raise (c : Cause) (w : Word) : (raise s c w).inv := by
  obtain ⟨hbuild, hbuf, hcan, _, hmem⟩ := h
  exact ⟨hbuild, hbuf, hcan, causeCode_range c, hmem⟩

theorem inv_withMem {m : Memory} (hm : m.InSpace) : (s.withMem m).inv := by
  obtain ⟨hbuild, hbuf, hcan, hfault, _⟩ := h
  exact ⟨hbuild, hbuf, hcan, hfault, hm⟩

theorem inv_withRes {r : Group} (hr : r.canonical) : (s.withRes r).inv := by
  obtain ⟨hbuild, hbuf, ⟨hcont, _⟩, hfault, hmem⟩ := h
  exact ⟨hbuild, hbuf, ⟨hcont, hr⟩, hfault, hmem⟩

theorem inv_withSize_zero : (s.withSize 0#11).inv := by
  obtain ⟨hbuild, ⟨hlen, _⟩, ⟨_, hres⟩, hfault, hmem⟩ := h
  exact ⟨hbuild, ⟨hlen, by simp⟩, ⟨by simp [contents], hres⟩, hfault, hmem⟩

/-- The contents after a push that fits are the old ones and the groups, and `SIZE` does not wrap (R65). -/
theorem inv_withPushed {gs : List Group} (hfit : s.size.toNat + gs.length ≤ s.build.cap.toNat)
    (hgs : ∀ g ∈ gs, g.canonical) : (s.withPushed gs).inv := by
  obtain ⟨hbuild, ⟨hlen, _⟩, ⟨hcont, hres⟩, hfault, hmem⟩ := h
  have hsize : (s.withPushed gs).size.toNat = s.size.toNat + gs.length := by
    have hcap := s.build.cap.isLt
    exact Nat.mod_eq_of_lt (by omega)
  have hcontents : contents (s.withPushed gs) = contents s ++ gs := by
    rw [contents, hsize]
    exact writeEntries_take (by omega)
  refine ⟨hbuild, ⟨by simpa using hlen, hsize.trans_le hfit⟩, ⟨fun g hg => ?_, hres⟩, hfault, hmem⟩
  rw [hcontents] at hg
  exact (List.mem_append.1 hg).elim (hcont g) (hgs g)

end

@[simp] theorem freeGroups_length (k n : Nat) : (Config.freeGroups k n).length = n := by
  induction n generalizing k with
  | zero => rfl
  | succ n ih => simp [Config.freeGroups, ih]

theorem inv_resetBlock {s : State} (h : s.inv) : (resetBlock s).inv := by
  obtain ⟨hbuild, _, _, _, hmem⟩ := h
  exact ⟨hbuild, ⟨freeGroups_length _ _, Nat.zero_le _⟩, ⟨by simp [contents], emptyGroup_canonical⟩,
    ⟨rfl, rfl⟩, hmem⟩

/-- Settles O59: the contents are empty, and the block base is a multiple of the window's size by its definition. -/
theorem resetMeetsTheMachineRules : Obligations.ResetMeetsTheMachineRules := by
  have hbase : (Config.build.blkBase) % 0x2000 = 0 := Nat.mul_mod_right _ _
  exact ⟨⟨by decide, by decide, by decide, by decide, hbase⟩, ⟨freeGroups_length 0 1024, by decide⟩,
    ⟨by simp [contents, State.reset], emptyGroup_canonical⟩, by decide, by decide⟩

/-! ### Every step keeps the invariant -/

theorem CommandEffect.keeps_inv {i : Instr} {s t : State} (heff : CommandEffect i s t) (h : s.inv)
    (hw : i.wellFormed) : t.inv := by
  obtain ⟨_, _, ⟨_, hres⟩, _, hmem⟩ := id h
  cases heff with
  | fault c => exact inv_raise h c _
  | results r z hr => exact inv_withRes h (hr hres)
  | push gs r hfit hcan =>
    obtain ⟨hgs, hr⟩ := hcan hw hres
    exact inv_withRes (inv_withPushed h hfit hgs) hr
  | clear => exact inv_withSize_zero h
  | convert m _ hspace => exact inv_withMem h (hspace hmem)
  | busError m k _ hspace => exact inv_raise (s := (s.withMem m).withDraws k) (inv_withMem h (hspace hmem)) _ _

theorem issue_keeps_inv {s t : State} {w : Word} (h : s.inv) (ht : issue w s = .next t) : t.inv := by
  rcases issue_cases w s with ⟨_, hi⟩ | ⟨_, _, hi⟩ | ⟨_, i, hd, hi⟩ <;> rw [hi] at ht
  · cases ht; exact h
  · cases ht; exact inv_raise h _ _
  · exact (CommandEffect.of_exec ht).keeps_inv h (decode_wellFormed hd)

theorem writeReg_keeps_inv {s t : State} {r : Option Reg} {w : Word} (h : s.inv)
    (ht : writeReg s r w = .next t) : t.inv := by
  rcases writeReg_cases s r w with ⟨_, hw⟩ | ⟨_, _, hw⟩ | ⟨_, _, _, _, _, _, _, _, _, _, _, _, hw⟩ <;> rw [hw] at ht
  · exact issue_keeps_inv h ht
  · cases ht; exact inv_resetBlock h
  · cases ht; exact h

theorem readReg_keeps_inv {s : State} (h : s.inv) (r : Option Reg) : (readReg s r).inv := by
  obtain ⟨v, k, hr⟩ := readReg_eq s r
  rw [hr]
  exact h

theorem Memory.write_inSpace {m : Memory} (hm : m.InSpace) {a : Nat} (ha : a < 2 ^ 32) (b : Byte) :
    (m.write a b).InSpace := by
  refine ⟨Memory.write_wf hm.1 a b, fun c hc => ?_⟩
  rcases Memory.mem_write hc with heq | hold
  · exact heq ▸ ha
  · exact hm.2 c hold

theorem hostOp_keeps_inv {s t : State} {op : HostOp} (h : s.inv) (ht : hostOp op s = .next t) : t.inv := by
  obtain ⟨_, _, _, _, hmem⟩ := id h
  cases op with
  | wr target width data =>
    simp only [hostOp] at ht
    split at ht
    · cases ht
    · split_ifs at ht
      exact writeReg_keeps_inv h ht
  | rd target width =>
    simp only [hostOp] at ht
    split at ht
    · cases ht
    · split_ifs at ht
      cases ht
      exact readReg_keeps_inv h _
  | memWr address data =>
    simp only [hostOp] at ht
    split_ifs at ht with ha
    cases ht
    exact inv_withMem h (Memory.write_inSpace hmem ha data)
  | memRd address =>
    simp only [hostOp] at ht
    split_ifs at ht
    cases ht
    exact h
  | resetInput =>
    cases ht
    exact inv_resetBlock h

/-- Settles O60: an idle step changes nothing, and every HOST operation keeps the invariant, a command among them by
its effects. -/
theorem stepKeepsTheMachineRules : Obligations.StepKeepsTheMachineRules := by
  intro s t h ht
  rcases step_cases ht with ⟨_, rfl⟩ | ⟨op, ops, _, hop⟩
  · exact h
  · exact hostOp_keeps_inv (s := s.withPending ops) h hop

end Sys2Proof.Machine
end

section
/-! The register window (R23 to R37): what an aligned 32-bit access of HOST does to the register it names,
said once over the registers, and the statements about reads, writes, zero fields and the reset. -/

namespace Sys2Proof.Machine

/-! ### The next HOST operation -/

theorem step_of_pending {s : State} {op : HostOp} {rest : List HostOp} (h : s.pending = op :: rest) :
    step s = hostOp op (s.withPending rest) := by
  simp [step, hostStep, h]

theorem hostOp_wr {target : HostAddr} {s : State} {offset width : Nat} (hw : windowOffset s.build target = some offset)
    (w : Word) : hostOp (.wr target width w) s =
      if accessDefined offset width then writeReg s (regAt s.build offset) w else .refused .hostAccess := by
  simp [hostOp, hw]

theorem hostOp_rd {target : HostAddr} {s : State} {offset width : Nat}
    (hw : windowOffset s.build target = some offset) :
    hostOp (.rd target width) s =
      if accessDefined offset width then .next (readReg s (regAt s.build offset)) else .refused .hostAccess := by
  simp [hostOp, hw]

theorem accessDefined_iff {offset width : Nat} :
    accessDefined offset width = true ↔ width = 4 ∧ offset % 4 = 0 := by
  simp [accessDefined]

theorem windowOffset_reg {b : Build} {offset : Nat} (h : offset < 0x2000) :
    windowOffset b (.reg offset) = some offset := if_pos h

/-- An aligned 32-bit write of the window reaches the register at its offset (R23, R24). -/
theorem step_wr {s : State} {offset : Nat} {w : Word} {rest : List HostOp}
    (hp : s.pending = .wr (.reg offset) 4 w :: rest) (ho : offset < 0x2000) (ha : offset % 4 = 0) :
    step s = writeReg (s.withPending rest) (regAt s.build offset) w := by
  rw [step_of_pending hp, hostOp_wr (windowOffset_reg ho), if_pos (accessDefined_iff.2 ⟨rfl, ha⟩)]
  rfl

/-- An aligned 32-bit read of the window reaches the register at its offset (R23, R24). -/
theorem step_rd {s : State} {offset : Nat} {rest : List HostOp}
    (hp : s.pending = .rd (.reg offset) 4 :: rest) (ho : offset < 0x2000) (ha : offset % 4 = 0) :
    step s = .next (readReg (s.withPending rest) (regAt s.build offset)) := by
  rw [step_of_pending hp, hostOp_rd (windowOffset_reg ho), if_pos (accessDefined_iff.2 ⟨rfl, ha⟩)]
  rfl

/-! ### The bus form of an access -/

theorem windowOffset_bus_outside {b : Build} {address : Nat}
    (h : address < b.blkBase ∨ b.blkBase + 0x2000 ≤ address) : windowOffset b (.bus address) = none :=
  if_neg (by omega)

/-- A write depends on its target through the window offset alone. -/
theorem hostOp_wr_congr {a b : HostAddr} {s : State} (h : windowOffset s.build a = windowOffset s.build b)
    (width : Nat) (w : Word) : hostOp (.wr a width w) s = hostOp (.wr b width w) s := by
  simp only [hostOp, h]

/-- A read depends on its target through the window offset alone. -/
theorem hostOp_rd_congr {a b : HostAddr} {s : State} (h : windowOffset s.build a = windowOffset s.build b)
    (width : Nat) : hostOp (.rd a width) s = hostOp (.rd b width) s := by
  simp only [hostOp, h]

/-- Settles O8: an access depends on its target through the window offset alone. -/
theorem busAddressReachesItsRegister : Obligations.BusAddressReachesItsRegister := by
  refine ⟨fun s offset width w rest ho => ?_, fun s address width w rest hout => ?_⟩
  · have hbus := windowOffset_bus (b := s.build) ho
    exact ⟨hostOp_wr_congr (s := s.withPending rest) hbus width w,
      hostOp_rd_congr (s := s.withPending rest) hbus width⟩
  · simp [step, hostStep, hostOp, windowOffset_bus_outside hout]

theorem writeReg_next (s : State) (r : Option Reg) (w : Word) : ∃ t, writeReg s r w = .next t := by
  rcases writeReg_cases s r w with ⟨_, hw⟩ | ⟨_, _, hw⟩ | ⟨_, _, _, _, _, _, _, _, _, _, _, _, hw⟩ <;> rw [hw]
  · rcases issue_cases w s with ⟨_, hi⟩ | ⟨_, _, hi⟩ | ⟨_, i, _, hi⟩ <;> rw [hi]
    · exact ⟨_, rfl⟩
    · exact ⟨_, rfl⟩
    · obtain ⟨t, ht, _⟩ := exec_effect i s
      exact ⟨t, ht⟩
  · exact ⟨_, rfl⟩
  · exact ⟨_, rfl⟩

/-- Settles O9: the refusal is the failure of `accessDefined`, and a register access answers a next state. -/
theorem undefinedHostAccessIsRefused : Obligations.UndefinedHostAccessIsRefused := by
  intro s target offset width w rest hoff
  have hwr : step { s with pending := .wr target width w :: rest } = _ :=
    (step_of_pending rfl).trans (hostOp_wr (s := s.withPending rest) hoff w)
  have hrd : step { s with pending := .rd target width :: rest } = _ :=
    (step_of_pending rfl).trans (hostOp_rd (s := s.withPending rest) hoff)
  rw [hwr, hrd]
  constructor
  · intro hbad
    have hdef : ¬ accessDefined offset width = true := by rw [accessDefined_iff]; omega
    exact ⟨if_neg hdef, if_neg hdef⟩
  · intro hwidth halign
    have hdef : accessDefined offset width = true := accessDefined_iff.2 ⟨hwidth, halign⟩
    rw [if_pos hdef, if_pos hdef]
    exact ⟨writeReg_next _ _ _, _, rfl⟩

/-! ### The registers below the buffer's window -/

theorem regOffset_of_mem_fixedRegs {r : Reg} (hr : r ∈ fixedRegs) :
    regOffset r < 0x1000 ∧ regOffset r % 4 = 0 := by
  revert r
  decide

theorem sbData_notMem_fixedRegs (i : Nat) : Reg.sbData i ∉ fixedRegs := by simp [fixedRegs]

theorem regAt_of_mem_fixedRegs {r : Reg} (hr : r ∈ fixedRegs) (b : Build) : regAt b (regOffset r) = some r :=
  regAt_regOffset fun i hi => absurd (hi ▸ hr) (sbData_notMem_fixedRegs i)

/-- Only an entry of the buffer outside the contents has an unspecified value (R37). -/
theorem readReg_eq_withReply {s : State} {r : Reg} (hr : ∀ i, r = .sbData i → i < s.size.toNat) :
    readReg s (some r) = s.withReply (regValue s r) := by
  cases r with
  | sbData i => exact if_pos (hr i rfl)
  | cmd | status | fcause | fcmd | sbSize | sbCap | sbRsv | res | zres | magCfg | srst | cvSrcR | cvSrcG
  | cvSrcB | cvStride | cvH | cvW | cvN | cvDstY | cvDstU | cvDstV => rfl

/-- Writing `CMD` or `SRST` can do more than store (R26, R35). -/
theorem writeReg_eq_storeReg {r : Reg} (hcmd : r ≠ .cmd) (hsrst : r ≠ .srst) (s : State) (w : Word) :
    writeReg s (some r) w = .next (storeReg s r w) := by
  cases r with
  | cmd => exact absurd rfl hcmd
  | srst => exact absurd rfl hsrst
  | status | fcause | fcmd | sbSize | sbCap | sbRsv | res | zres | magCfg | cvSrcR | cvSrcG
  | cvSrcB | cvStride | cvH | cvW | cvN | cvDstY | cvDstU | cvDstV | sbData i => rfl

/-- `wr REG, w` of R61, for a register below the buffer's window. -/
theorem step_wr_fixed {s : State} {r : Reg} {w : Word} {rest : List HostOp} (hr : r ∈ fixedRegs)
    (hp : s.pending = .wr (.reg (regOffset r)) 4 w :: rest) :
    step s = writeReg (s.withPending rest) (some r) w := by
  obtain ⟨ho, ha⟩ := regOffset_of_mem_fixedRegs hr
  rw [step_wr hp (by omega) ha, regAt_of_mem_fixedRegs hr]

/-- `rd REG` of R61, for a register below the buffer's window. -/
theorem step_rd_fixed {s : State} {r : Reg} {rest : List HostOp} (hr : r ∈ fixedRegs)
    (hp : s.pending = .rd (.reg (regOffset r)) 4 :: rest) :
    step s = .next ((s.withPending rest).withReply (regValue s r)) := by
  obtain ⟨ho, ha⟩ := regOffset_of_mem_fixedRegs hr
  rw [step_rd hp (by omega) ha, regAt_of_mem_fixedRegs hr,
    readReg_eq_withReply fun i hi => absurd (hi ▸ hr) (sbData_notMem_fixedRegs i)]
  rfl

/-- Settles O5: `CMD` is the register at offset 0, and an unhalted block executes what the word decodes to. -/
theorem stepRunsDecodedCommand : Obligations.StepRunsDecodedCommand := by
  intro s w rest i hhalt hp hdec
  rw [step_wr_fixed (r := .cmd) (by decide) hp]
  simp [writeReg, issue, hhalt, hdec, State.withPending]

/-! ### Reads -/

/-- Two fields side by side, as a number (R13, R23). -/
theorem place_or_place {n m k : Nat} (a : BitVec n) (b : BitVec m) (hm : m ≤ k) (hn : n + k ≤ 32) :
    place a k ||| place b 0 = BitVec.ofNat 32 (a.toNat * 2 ^ k + b.toNat) := by
  have hb : b.toNat < 2 ^ k := b.isLt.trans_le (Nat.pow_le_pow_right (by decide) hm)
  have ha : a.toNat * 2 ^ k < 2 ^ 32 :=
    calc a.toNat * 2 ^ k < 2 ^ n * 2 ^ k := Nat.mul_lt_mul_of_pos_right a.isLt (by positivity)
      _ = 2 ^ (n + k) := (Nat.pow_add 2 n k).symm
      _ ≤ 2 ^ 32 := Nat.pow_le_pow_right (by decide) hn
  have ha' : a.toNat < 2 ^ 32 := a.isLt.trans_le (Nat.pow_le_pow_right (by decide) (by omega))
  have hb' : b.toNat < 2 ^ 32 := hb.trans_le (Nat.pow_le_pow_right (by decide) (by omega))
  have hor := Nat.shiftLeft_add_eq_or_of_lt hb a.toNat
  apply BitVec.eq_of_toNat_eq
  rw [Nat.shiftLeft_eq] at hor
  have hsum := Nat.or_lt_two_pow ha hb'
  simp only [BitVec.toNat_or, BitVec.toNat_shiftLeft, BitVec.toNat_setWidth, BitVec.toNat_ofNat,
    Nat.mod_eq_of_lt ha', Nat.mod_eq_of_lt hb', Nat.mod_eq_of_lt hsum, Nat.shiftLeft_eq, Nat.mod_eq_of_lt ha,
    Nat.pow_zero, Nat.mul_one, hor]

theorem packGroup_eq_ofNat (g : Group) :
    packGroup g = BitVec.ofNat 32 (g.len.toNat * 2 ^ 16 + g.value.toNat) :=
  place_or_place g.len g.value (by decide) (by decide)

theorem statusWord_eq_ofNat (s : State) :
    statusWord s = BitVec.ofNat 32 ((if s.build.cap.toNat ≤ s.size.toNat + s.rsv.toNat then 1 else 0) +
      (if s.halt then 2 else 0)) := by
  rw [statusWord, place_or_place _ _ (by decide) (by decide), full]
  congr 1
  by_cases hfull : s.build.cap.toNat ≤ s.size.toNat + s.rsv.toNat <;> cases s.halt <;> simp [hfull]

/-- The map of R23 is the model's register map and the model's values. -/
theorem specReads_eq (s : State) : specReads s = fixedRegs.map fun r => (regOffset r, regValue s r) := by
  have hmag := place_or_place (k := 16) s.build.range (strategyBits s.build.strategy) (by decide) (by decide)
  cases hst : s.build.strategy <;> rw [hst] at hmag <;>
    simp only [specReads, fixedRegs, List.map_append, List.map_cons, List.map_nil, regOffset, regValue, hst, hmag,
      packGroup_eq_ofNat, statusWord_eq_ofNat, ← BitVec.ofNat_toNat] <;> rfl

/-- Settles O10: each row of the map is a register with its value. -/
theorem registerReads : Obligations.RegisterReads := by
  intro s p rest hmem hp
  rw [specReads_eq, List.mem_map] at hmem
  obtain ⟨r, hr, rfl⟩ := hmem
  exact step_rd_fixed hr hp

/-- Settles O15, as one row of the register map. -/
theorem capacityRegister : Obligations.CapacityRegister := by
  intro s rest hp
  rw [BitVec.ofNat_toNat]
  exact step_rd_fixed (r := .sbCap) (by decide) hp

/-! ### Writes -/

/-- The read-write registers (R31, R36). -/
def readWriteRegs : List Reg :=
  [.sbRsv, .cvSrcR, .cvSrcG, .cvSrcB, .cvStride, .cvH, .cvW, .cvN, .cvDstY, .cvDstU, .cvDstV]

theorem extractLsb'_zero_eq_ofNat (w : Word) (n : Nat) : w.extractLsb' 0 n = BitVec.ofNat n w.toNat :=
  BitVec.eq_of_toNat_eq (by simp)

/-- The writes of R31 and R36 are the stores of the model. -/
theorem specWrites_eq (s : State) (w : Word) :
    specWrites s w = readWriteRegs.map fun r => (regOffset r, storeReg s r w) := by
  simp only [specWrites, ← extractLsb'_zero_eq_ofNat]
  rfl

theorem mem_fixedRegs_of_readWrite {r : Reg} (hr : r ∈ readWriteRegs) :
    r ∈ fixedRegs ∧ r ≠ .cmd ∧ r ≠ .srst := by
  revert r
  decide

/-- Settles O11: the write is `storeReg` of the register, whether halted or not. -/
theorem registerWrites : Obligations.RegisterWrites := by
  intro s w rest p hmem hp
  rw [specWrites_eq, List.mem_map] at hmem
  obtain ⟨r, hr, rfl⟩ := hmem
  obtain ⟨hfix, hcmd, hsrst⟩ := mem_fixedRegs_of_readWrite hr
  rw [step_wr_fixed hfix hp, writeReg_eq_storeReg hcmd hsrst]
  rfl

theorem statusWord_getLsbD_zero (s : State) : (statusWord s).getLsbD 0 = full s := by
  simp [statusWord]

/-- Settles O14: the read of `STATUS` computes `FULL` from the `RSV` that the write has stored. -/
theorem reserveRegister : Obligations.ReserveRegister := by
  refine ⟨by decide, fun s r rest hr hp => ?_⟩
  let t := storeReg (s.withPending (.rd (.reg 0x004) 4 :: rest)) .sbRsv (BitVec.ofNat 32 r)
  have hrsv : t.rsv.toNat = r := by
    show ((BitVec.ofNat 32 r).extractLsb' 0 16).toNat = r
    rw [extractLsb'_zero_eq_ofNat, BitVec.toNat_ofNat, BitVec.toNat_ofNat]
    omega
  refine ⟨t, _, statusWord t, step_wr_fixed (r := .sbRsv) (by decide) hp, hrsv,
    step_rd_fixed (r := .status) (rest := rest) (by decide) rfl, rfl, ?_⟩
  rw [statusWord_getLsbD_zero, full, hrsv]
  exact decide_eq_true_iff

/-! ### The reset operation -/

theorem resetBlock_hasResetValues (s : State) : HasResetValues (resetBlock s) := by
  have hcap := s.build.cap.isLt
  have hrsv : (resetReserve s.build).toNat = s.build.cap.toNat / 2 := Nat.mod_eq_of_lt (by omega)
  simp [HasResetValues, hrsv]

theorem writeReg_srst_set {w : Word} (h : w.getLsbD 0 = true) (s : State) :
    writeReg s (some .srst) w = .next (resetBlock s) := if_pos h

theorem writeReg_srst_clear {w : Word} (h : w.getLsbD 0 = false) (s : State) :
    writeReg s (some .srst) w = .next s := if_neg (by rw [h]; decide)

/-- Settles O16: `SRST` with bit 0 set and the reset input both run `resetBlock`. -/
theorem softwareResetAndResetInput : Obligations.SoftwareResetAndResetInput := by
  refine ⟨fun s w rest hbit hp => ?_, fun s rest hp => ?_, fun s w rest hbit hp => ?_⟩
  · refine ⟨resetBlock (s.withPending rest), ?_, resetBlock_hasResetValues _, rfl, rfl, rfl, rfl⟩
    rw [step_wr_fixed (r := .srst) (by decide) hp, writeReg_srst_set hbit]
  · exact ⟨_, step_of_pending hp, resetBlock_hasResetValues _, rfl, rfl, rfl, rfl⟩
  · rw [step_wr_fixed (r := .srst) (by decide) hp]
    exact writeReg_srst_clear hbit _

/-- Settles O17: the reset state has `C = 1024` and `RSV = 512`, so `FULL` is 0. -/
theorem resetStateValues : Obligations.ResetStateValues := by
  have hlen : State.reset.sb.length = State.reset.build.cap.toNat := freeGroups_length 0 1024
  exact ⟨⟨rfl, hlen, by decide⟩, rfl, rfl, rfl, by decide, rfl⟩

/-! ### The buffer's window -/

/-- The offset of entry `i` names it when `i < C` (R37). -/
theorem regAt_sbData {b : Build} {i : Nat} (h : i < b.cap.toNat) :
    regAt b (0x1000 + 4 * i) = some (.sbData i) :=
  regAt_regOffset (r := .sbData i) fun _ hi => by cases hi; exact h

theorem regOffset_sbData_aligned (i : Nat) : (0x1000 + 4 * i) % 4 = 0 := by omega

theorem mappedOffsets_eq : mappedOffsets = fixedRegs.map regOffset := rfl

theorem regAt_of_unmapped {b : Build} {offset : Nat} (h : Unmapped b offset) : regAt b offset = none := by
  obtain ⟨hwin, halign, hfix, hdata⟩ := h
  unfold regAt
  split
  · exact if_neg (by omega)
  · rw [List.find?_eq_none]
    intro r hr heq
    rw [mappedOffsets_eq, List.mem_map] at hfix
    exact hfix ⟨r, hr, by simpa using heq⟩

/-- The offsets of the entries from `C` on are unmapped (R37). -/
theorem unmapped_of_cap_le {b : Build} {i : Nat} (hi : i < 1024) (hc : b.cap.toNat ≤ i) :
    Unmapped b (0x1000 + 4 * i) := by
  refine ⟨by omega, by omega, fun hmem => ?_, by omega⟩
  rw [mappedOffsets_eq, List.mem_map] at hmem
  obtain ⟨r, hr, heq⟩ := hmem
  have := (regOffset_of_mem_fixedRegs hr).1
  omega

/-- Settles O13: inside the contents the entry is read; from `SIZE` to `C` a free value; from `C` on the offset is
unmapped. -/
theorem bufferWindowReads : Obligations.BufferWindowReads := by
  intro s i rest hi hp
  have hstep := step_rd hp (by omega) (regOffset_sbData_aligned i)
  refine ⟨fun g hsize hcap hg => ?_, fun hsize hcap => ?_, fun hcap => ?_⟩
  · rw [hstep, regAt_sbData hcap, readReg_eq_withReply (by rintro _ ⟨⟩; exact hsize)]
    have hentry : entry s i = g := by simp [entry, List.getD_eq_getElem?_getD, hg]
    rw [← packGroup_eq_ofNat, ← hentry]
    rfl
  · obtain ⟨v, k, hr⟩ := readReg_eq (s.withPending rest) (some (.sbData i))
    rw [hstep, regAt_sbData hcap, hr]
    exact ⟨v, k, rfl⟩
  · rw [hstep, regAt_of_unmapped]
    · rfl
    · exact unmapped_of_cap_le (b := s.build) hi hcap

/-! ### Unmapped offsets, read-only registers and zero fields -/

/-- The bits of a register that R23 marks zero. -/
def zeroMask : Reg → Word
  | .status => 0xFFFFFFFC#32
  | .fcause => 0xFFFFFFF0#32
  | .sbSize | .sbCap => 0xFFFFF800#32
  | .sbRsv => 0xFFFF0000#32
  | .res | .sbData _ => 0xFFE00000#32
  | .zres => 0xFFFFFFC0#32
  | .magCfg => 0x0000FFFC#32
  | .cvN => 0xFFFFFFE0#32
  | _ => 0#32

theorem zeroFields_eq_zeroMask : ∀ p ∈ zeroFields, ∃ r ∈ fixedRegs, p = (regOffset r, zeroMask r) := by
  decide

/-- The read-only registers below the buffer's window (R23). -/
def readOnlyRegs : List Reg := [.status, .fcause, .fcmd, .sbSize, .sbCap, .res, .zres, .magCfg]

theorem readOnlyOffsets_eq : readOnlyOffsets = readOnlyRegs.map regOffset := rfl

theorem mem_fixedRegs_of_readOnly {r : Reg} (hr : r ∈ readOnlyRegs) : r ∈ fixedRegs := by
  revert r
  decide

theorem writeReg_of_readOnly {r : Reg} (hr : r ∈ readOnlyRegs) (s : State) (w : Word) :
    writeReg s (some r) w = .next s := by
  simp only [readOnlyRegs, List.mem_cons, List.not_mem_nil, or_false] at hr
  rcases hr with rfl | rfl | rfl | rfl | rfl | rfl | rfl | rfl <;> rfl

/-- A word below `2 ^ n` has no bit under a mask that is clear below `n`. -/
theorem and_eq_zero_of_toNat_lt {w m : Word} {n : Nat} (hw : w.toNat < 2 ^ n)
    (hm : ∀ k < n, m.getLsbD k = false) : w &&& m = 0#32 := by
  refine and_eq_zero_of_bits fun k _ => ?_
  by_cases hk : k < n
  · rw [hm k hk, Bool.and_false]
  · have hbit : w.getLsbD k = false :=
      Nat.testBit_lt_two_pow (hw.trans_le (Nat.pow_le_pow_right (by decide) (by omega)))
    rw [hbit, Bool.false_and]

/-- A field at bit 0 leaves the bits above its width 0. -/
theorem setWidth_and_eq_zero {n : Nat} (x : BitVec n) {m : Word} (hm : ∀ k < n, m.getLsbD k = false) :
    x.setWidth 32 &&& m = 0#32 :=
  and_eq_zero_of_toNat_lt ((BitVec.toNat_setWidth 32 x ▸ Nat.mod_le _ _).trans_lt x.isLt) hm

theorem packGroup_and_eq_zero (g : Group) : packGroup g &&& 0xFFE00000#32 = 0#32 := by
  have hlen := g.len.isLt
  have hvalue := g.value.isLt
  exact and_eq_zero_of_toNat_lt (n := 21) (by rw [packGroup_toNat]; omega) (by decide)

theorem statusWord_and_eq_zero (s : State) : statusWord s &&& 0xFFFFFFFC#32 = 0#32 := by
  refine and_eq_zero_of_toNat_lt (n := 2) ?_ (by decide)
  rw [statusWord_eq_ofNat]
  split_ifs <;> decide

theorem magCfg_and_eq_zero (s : State) : regValue s .magCfg &&& 0x0000FFFC#32 = 0#32 := by
  have hrange : place s.build.range 16 &&& 0x0000FFFC#32 = 0#32 := by
    refine and_eq_zero_of_bits fun k _ => ?_
    by_cases hk : k < 16
    · simp [hk]
    · have hmask : ∀ k < 32, ¬ k < 16 → (0x0000FFFC#32).getLsbD k = false := by decide
      rw [hmask k ‹_› hk, Bool.and_false]
  have hstrategy : place (strategyBits s.build.strategy) 0 &&& 0x0000FFFC#32 = 0#32 := by
    cases s.build.strategy <;> decide
  rw [regValue, BitVec.and_or_distrib_right, hrange, hstrategy, BitVec.or_self]

/-- Every field that R23 marks zero reads 0. -/
theorem regValue_and_zeroMask (s : State) (r : Reg) : regValue s r &&& zeroMask r = 0#32 := by
  cases r with
  | fcause | sbSize | sbCap | sbRsv | zres | cvN => exact setWidth_and_eq_zero _ (by decide)
  | res | sbData i => exact packGroup_and_eq_zero _
  | status => exact statusWord_and_eq_zero s
  | magCfg => exact magCfg_and_eq_zero s
  | cmd | fcmd | srst | cvSrcR | cvSrcG | cvSrcB | cvStride | cvH | cvW | cvDstY | cvDstU | cvDstV =>
    exact BitVec.and_zero

/-- The reply to a read has zero in the bits R23 marks zero, in a stale entry of the buffer too (log entry 5). -/
theorem readReg_and_zeroMask (s : State) (r : Reg) :
    ∃ v, (readReg s (some r)).replies = v :: s.replies ∧ v &&& zeroMask r = 0#32 := by
  by_cases hr : ∀ i, r = .sbData i → i < s.size.toNat
  · exact ⟨regValue s r, by rw [readReg_eq_withReply hr]; rfl, regValue_and_zeroMask s r⟩
  · simp only [not_forall] at hr
    obtain ⟨i, rfl, hi⟩ := hr
    exact ⟨packGroup (Config.freeGroup s.draws), by simp [readReg, hi, readStale], packGroup_and_eq_zero _⟩

theorem step_rd_zeroMask {s : State} {r : Reg} {offset : Nat} {rest : List HostOp}
    (hp : s.pending = .rd (.reg offset) 4 :: rest) (ho : offset < 0x2000) (ha : offset % 4 = 0)
    (hreg : regAt s.build offset = some r) :
    ∃ t v, step s = .next t ∧ t.replies = v :: s.replies ∧ v &&& zeroMask r = 0#32 := by
  obtain ⟨v, hv, hz⟩ := readReg_and_zeroMask (s.withPending rest) r
  exact ⟨_, v, by rw [step_rd hp ho ha, hreg], hv, hz⟩

/-- Low bits outside a mask are those of the masked word. -/
theorem extractLsb'_eq_of_and_not_eq {w w' m : Word} {n : Nat} (h : w &&& ~~~m = w' &&& ~~~m)
    (hm : ∀ k < n, k < 32 → m.getLsbD k = false) : w.extractLsb' 0 n = w'.extractLsb' 0 n := by
  apply BitVec.eq_of_getLsbD_eq
  intro k hk
  by_cases hk32 : k < 32
  · have hbit := congrArg (BitVec.getLsbD · k) h
    simpa [hk, hk32, show m[k] = false from hm k hk hk32] using hbit
  · simp [BitVec.getLsbD_of_ge _ k (Nat.not_lt.1 hk32)]

/-- A write stores nothing from the bits R23 marks zero. -/
theorem writeReg_eq_of_zeroMask {r : Reg} {w w' : Word} (h : w &&& ~~~zeroMask r = w' &&& ~~~zeroMask r)
    (s : State) : writeReg s (some r) w = writeReg s (some r) w' := by
  cases r with
  | status | fcause | sbSize | sbCap | res | sbData i | zres | magCfg => rfl
  | sbRsv => simp only [writeReg, storeReg, extractLsb'_eq_of_and_not_eq (n := 16) h (by decide)]
  | cvN => simp only [writeReg, storeReg, extractLsb'_eq_of_and_not_eq (n := 5) h (by decide)]
  | cmd | fcmd | srst | cvSrcR | cvSrcG | cvSrcB | cvStride | cvH | cvW | cvDstY | cvDstU | cvDstV =>
    have hw : w = w' := by simpa only [zeroMask, BitVec.not_zero, BitVec.and_allOnes] using h
    rw [hw]

/-- Settles O12: each offset names a register or none, and `zeroMask` gives the bits that a read clears and a write
ignores. -/
theorem unmappedReadOnlyAndZeroFields : Obligations.UnmappedReadOnlyAndZeroFields := by
  refine ⟨fun s offset w rest hun => ?_, fun s offset w rest hro hwin => ?_, fun s offset rest hzero => ?_,
    fun s p rest hp hwin => ?_, fun s p w w' rest hp hw => ?_⟩
  · obtain ⟨hwin, halign, _⟩ := id hun
    have hreg := regAt_of_unmapped hun
    exact ⟨(step_rd rfl hwin halign).trans (by simp [hreg, readReg, State.withReply, State.withPending]),
      (step_wr rfl hwin halign).trans (by simp [hreg, writeReg, State.withPending])⟩
  · rcases hro with hmem | ⟨i, hi, rfl⟩
    · rw [readOnlyOffsets_eq, List.mem_map] at hmem
      obtain ⟨r, hr, rfl⟩ := hmem
      rw [step_wr_fixed (mem_fixedRegs_of_readOnly hr) rfl]
      exact writeReg_of_readOnly hr _ _
    · rw [step_wr rfl hwin (regOffset_sbData_aligned i), regAt_sbData hi]
      rfl
  · rcases hzero with rfl | rfl
    · exact step_rd_fixed (r := .cmd) (s := { s with pending := .rd (.reg 0x000) 4 :: rest }) (by decide) rfl
    · exact step_rd_fixed (r := .srst) (s := { s with pending := .rd (.reg 0x028) 4 :: rest }) (by decide) rfl
  · rcases hp with hmem | ⟨i, hi, rfl⟩
    · obtain ⟨r, hr, rfl⟩ := zeroFields_eq_zeroMask p hmem
      obtain ⟨_, halign⟩ := regOffset_of_mem_fixedRegs hr
      exact step_rd_zeroMask rfl hwin halign (regAt_of_mem_fixedRegs hr _)
    · exact step_rd_zeroMask (r := .sbData i) rfl hwin (regOffset_sbData_aligned i) (regAt_sbData hi)
  · obtain ⟨r, hr, rfl⟩ := zeroFields_eq_zeroMask p hp
    rw [step_wr_fixed hr rfl, step_wr_fixed hr rfl]
    exact writeReg_eq_of_zeroMask hw _

end Sys2Proof.Machine
end

section
/-! The result registers (R32, R33): no command but `PUSHR` reads `RES`, none reads `ZRES`, and a command writes
them only as its result. Each command is run from a state whose two result registers are free. -/

namespace Sys2Proof.Machine

/-- The state with these result registers. -/
def State.withResults (s : State) (g : Group) (z : BitVec 6) : State := { s with res := g, zres := z }

@[simp] theorem State.withResults_build (s : State) (g : Group) (z : BitVec 6) :
    (s.withResults g z).build = s.build := rfl

/-- From `s` with any result registers, the command ends in one and the same state but for the result registers:
`RES` becomes `r` and `ZRES` becomes `x`, or each stays where that is `none`. -/
def WritesResults (i : Instr) (s : State) (r : Option Group) (x : Option (BitVec 6)) : Prop :=
  ∃ t : State, ∀ g z, exec i (s.withResults g z) = .next (t.withResults (r.getD g) (x.getD z))

/-- The commands whose result goes to `RES` (R32). -/
def WritesRes (i : Instr) : Prop :=
  (∃ p imm, i = .mag p imm) ∨ (∃ p u sym, i = .huff p u sym) ∨ ∃ u run imm, i = .enc u run imm

/-- The command writes `RES` only when it is `MAG`, `HUFF` or `ENC`, and `ZRES` only when it is `ZZ`. -/
def WritesOwnResults (i : Instr) (s : State) : Prop :=
  ∃ r x, WritesResults i s r x ∧ (r = none ∨ WritesRes i) ∧ (x = none ∨ ∃ idx, i = .zz idx)

theorem WritesResults.keeps {i : Instr} {s : State} (h : WritesResults i s none none) : WritesOwnResults i s :=
  ⟨none, none, h, .inl rfl, .inl rfl⟩

theorem WritesRes.own {i : Instr} {s : State} (hi : WritesRes i) (h : ∃ r, WritesResults i s r none) :
    WritesOwnResults i s := by
  obtain ⟨r, hr⟩ := h
  exact ⟨r, none, hr, .inr hi, .inl rfl⟩

/-! ### The shared operations do not look at the result registers -/

theorem pushAll_withResults (s : State) (gs : List Group) (g : Group) (z : BitVec 6) :
    pushAll (s.withResults g z) gs = (pushAll s gs).map (·.withResults g z) := by
  rcases pushAll_cases s gs with ⟨hs, hfit⟩ | ⟨hs, hover⟩ <;> rw [hs]
  · exact pushAll_fits (s := s.withResults g z) hfit
  · exact pushAll_overflows (s := s.withResults g z) hover

theorem spoilBlocks_withResults (s : State) (dsts : List Word) (g : Group) (z : BitVec 6) :
    spoilBlocks (s.withResults g z) dsts = (spoilBlocks s dsts).withResults g z := by
  induction dsts generalizing s with
  | nil => rfl
  | cons d ds ih =>
    rw [spoilBlocks, spoilBlocks, ← ih]
    rfl

/-! ### How a command ends, whatever the result registers -/

section
variable {i : Instr} {s : State}

theorem WritesResults.of_fault {c : Cause}
    (h : ∀ g z, exec i (s.withResults g z) = finish i (s.withResults g z) (.error c)) :
    WritesResults i s none none :=
  ⟨raise s c (encode i), h⟩

theorem WritesResults.of_pushAll {gs : List Group}
    (h : ∀ g z, exec i (s.withResults g z) = finish i (s.withResults g z) (pushAll (s.withResults g z) gs)) :
    WritesResults i s none none := by
  simp only [pushAll_withResults] at h
  cases hp : pushAll s gs with
  | ok t => exact ⟨t, fun g z => by rw [h, hp]; rfl⟩
  | error c => exact .of_fault fun g z => by rw [h, hp]; rfl

/-- A result in `RES`, unless the push overflows. -/
theorem WritesResults.of_pushAll_withRes (gs : List Group) (v : Group)
    (h : ∀ g z, exec i (s.withResults g z) =
      finish i (s.withResults g z) ((pushAll (s.withResults g z) gs).map (·.withRes v))) :
    ∃ r, WritesResults i s r none := by
  simp only [pushAll_withResults] at h
  cases hp : pushAll s gs with
  | ok t => exact ⟨some v, t, fun g z => by rw [h, hp]; rfl⟩
  | error c => exact ⟨none, .of_fault fun g z => by rw [h, hp]; rfl⟩

theorem WritesResults.of_pushIf_withRes (p : Bool) (v : Group)
    (h : ∀ g z, exec i (s.withResults g z) =
      finish i (s.withResults g z) ((pushIf p (s.withResults g z) [v]).map (·.withRes v))) :
    ∃ r, WritesResults i s r none := by
  cases p with
  | false => exact ⟨some v, s, h⟩
  | true => exact WritesResults.of_pushAll_withRes [v] v h

/-- A conversion reads neither result register, in its checks, its accesses or the bytes a failed write spoils. -/
theorem WritesResults.of_convert {srcs dsts : List Word} {m : Memory}
    (h : ∀ g z, exec i (s.withResults g z) = convert i (s.withResults g z) srcs dsts m) :
    WritesResults i s none none := by
  have hcheck : ∀ g z, cvCheck (s.withResults g z) srcs dsts = cvCheck s srcs dsts := fun _ _ => rfl
  have hread : ∀ g z, readsOk (s.withResults g z) srcs = readsOk s srcs := fun _ _ => rfl
  have hwrite : ∀ g z, writesOk (s.withResults g z) dsts = writesOk s dsts := fun _ _ => rfl
  simp only [convert, hcheck, hread, hwrite, spoilBlocks_withResults] at h
  cases hc : cvCheck s srcs dsts with
  | some c => exact .of_fault (c := c) fun g z => by simp only [h, hc]
  | none =>
    cases hr : readsOk s srcs with
    | false => exact .of_fault (c := .busErr) fun g z => by simp [h, hc, hr]
    | true =>
      cases hw : writesOk s dsts with
      | false => exact ⟨raise (spoilBlocks s dsts) .busErr (encode i), fun g z => by simp [h, hc, hr, hw]; rfl⟩
      | true => exact ⟨s.withMem m, fun g z => by simp [h, hc, hr, hw]; rfl⟩

end

/-- What a command but `PUSHR` does to the rest of the state does not depend on the result registers (R32, R33). -/
theorem exec_writesResults {i : Instr} (s : State) (hi : i ≠ .pushr) :
    WritesOwnResults i s := by
  cases i with
  | nop => exact WritesResults.keeps ⟨s, fun _ _ => rfl⟩
  | pushi len val => exact WritesResults.keeps (.of_pushAll fun _ _ => rfl)
  | pushr => exact absurd rfl hi
  | clear => exact WritesResults.keeps ⟨s.withSize 0#11, fun _ _ => rfl⟩
  | zz idx => exact ⟨none, some (zigzag idx), ⟨s, fun _ _ => rfl⟩, .inl rfl, .inr ⟨idx, rfl⟩⟩
  | graych => exact WritesResults.keeps (.of_pushAll fun _ _ => rfl)
  | cvtc =>
    exact WritesResults.keeps (.of_convert (srcs := [s.cvSrcR, s.cvSrcG, s.cvSrcB])
      (dsts := [s.cvDstY, s.cvDstU, s.cvDstV]) (m := cvtcMem s) fun _ _ => rfl)
  | cvtg =>
    exact WritesResults.keeps (.of_convert (srcs := [s.cvSrcG]) (dsts := [s.cvDstY]) (m := cvtgMem s)
      fun _ _ => rfl)
  | mag p imm =>
    by_cases hr : magOutOfRange s.build (immValue imm) = true
    · exact WritesResults.keeps (.of_fault (c := .magRange) fun g z => by simp [exec, execMag, hr])
    · exact WritesRes.own (.inl ⟨p, imm, rfl⟩) (WritesResults.of_pushIf_withRes p (magEncode (immValue imm))
        fun g z => by simp [exec, execMag, hr])
  | huff p t sym =>
    rcases lookup_cases t sym.toNat with ⟨v, _, hl⟩ | ⟨_, hl⟩
    · exact WritesRes.own (.inr (.inl ⟨p, t, sym, rfl⟩)) (WritesResults.of_pushIf_withRes p v
        fun g z => by simp [exec, execHuff, hl])
    · exact WritesResults.keeps (.of_fault (c := .symUnpop) fun g z => by simp [exec, execHuff, hl])
  | enc t run imm =>
    by_cases hr : magOutOfRange s.build (immValue imm) = true
    · exact WritesResults.keeps (.of_fault (c := .magRange) fun g z => by simp [exec, execEnc, hr])
    · cases hsym : encSymbol run (category (immValue imm)) with
      | error c => exact WritesResults.keeps (.of_fault (c := c) fun g z => by simp [exec, execEnc, hr, hsym])
      | ok sym =>
        rcases lookup_cases t sym with ⟨v, _, hl⟩ | ⟨_, hl⟩
        · exact WritesRes.own (.inr (.inr ⟨t, run, imm, rfl⟩)) (WritesResults.of_pushAll_withRes
            (encGroups v (magEncode (immValue imm))) (magEncode (immValue imm))
            fun g z => by simp [exec, execEnc, hr, hsym, hl])
        · exact WritesResults.keeps (.of_fault (c := .symUnpop) fun g z => by simp [exec, execEnc, hr, hsym, hl])

/-! ### One register at a time -/

/-- Run from any `RES`, with `ZRES` as it stands. -/
theorem exec_withRes {i : Instr} (s : State) (hi : i ≠ .pushr) :
    ∃ (t : State) (r : Option Group), (r = none ∨ WritesRes i) ∧
      ∀ g, exec i (s.withRes g) = .next (t.withRes (r.getD g)) := by
  obtain ⟨r, x, ⟨t, ht⟩, hr, _⟩ := exec_writesResults s hi
  exact ⟨t.withZres (x.getD s.zres), r, hr, fun g => ht g s.zres⟩

/-- `PUSHR` pushes `RES` and keeps both result registers (R69). -/
theorem exec_pushr_withZres (s : State) :
    ∃ t : State, t.res = s.res ∧ ∀ z, exec .pushr (s.withZres z) = .next (t.withZres z) := by
  rcases pushAll_cases s [s.res] with ⟨_, hfit⟩ | ⟨_, hover⟩
  · exact ⟨s.withPushed [s.res], rfl, fun z =>
      congrArg (finish .pushr (s.withZres z)) (pushAll_fits (s := s.withZres z) hfit)⟩
  · exact ⟨raise s .sbOvf (encode .pushr), rfl, fun z =>
      congrArg (finish .pushr (s.withZres z)) (pushAll_overflows (s := s.withZres z) hover)⟩

/-- Run from any `ZRES`, with `RES` as it stands. -/
theorem exec_withZres {i : Instr} (s : State) (hi : ∀ idx, i ≠ .zz idx) :
    ∃ t : State, ∀ z, exec i (s.withZres z) = .next (t.withZres z) := by
  by_cases hp : i = .pushr
  · obtain ⟨t, _, ht⟩ := exec_pushr_withZres s
    exact ⟨t, hp ▸ ht⟩
  · obtain ⟨r, x, ⟨t, ht⟩, _, hx⟩ := exec_writesResults s hp
    have hnone : x = none := hx.resolve_right fun ⟨idx, h⟩ => hi idx h
    subst hnone
    exact ⟨t.withRes (r.getD s.res), fun z => ht s.res z⟩

/-- Settles O37: `ZZ` ends in `withZres`, and every other command commutes with it. -/
theorem zigzagResultRegister : Obligations.ZigzagResultRegister :=
  ⟨fun _ _ => rfl, fun s _ hi => exec_withZres s hi⟩

/-- A command that changes `RES` writes its result there (R32). -/
theorem writesRes_of_res_ne {i : Instr} {s t : State} (h : exec i s = .next t) (hne : t.res ≠ s.res) :
    WritesRes i := by
  by_cases hp : i = .pushr
  · subst hp
    obtain ⟨u, hu, hexec⟩ := exec_pushr_withZres s
    have heq : t = u.withZres s.zres := by injection h.symm.trans (hexec s.zres)
    exact absurd (heq ▸ hu) hne
  · obtain ⟨u, r, hr, hexec⟩ := exec_withRes s hp
    have heq : t = u.withRes (r.getD s.res) := by injection h.symm.trans (hexec s.res)
    exact hr.resolve_left fun hnone => hne (by rw [heq, hnone]; rfl)

/-- Settles O38: run from any `RES`, a command but `PUSHR` writes one and the same result there, or keeps it. -/
theorem resultRegisterUsers : Obligations.ResultRegisterUsers := by
  refine ⟨fun s t i h hne => writesRes_of_res_ne h hne, fun s i hp hmag hhuff henc => ?_, fun s i g hp => ?_⟩
  · obtain ⟨t, r, hr, hexec⟩ := exec_withRes s hp
    have hnone : r = none := hr.resolve_right <| by
      rintro (⟨p, imm, h⟩ | ⟨p, u, sym, h⟩ | ⟨u, run, imm, h⟩)
      · exact hmag p imm h
      · exact hhuff p u sym h
      · exact henc u run imm h
    subst hnone
    exact ⟨t, hexec⟩
  · obtain ⟨t, r, _, hexec⟩ := exec_withRes s hp
    refine ⟨t, r.getD s.res, r.getD g, hexec s.res, hexec g, ?_⟩
    cases r with
    | none => exact .inr ⟨rfl, rfl⟩
    | some v => exact .inl rfl

end Sys2Proof.Machine
end

section
/-! Data memory and the bus (R41 to R43, R48): what HOST's own accesses do, the little-endian word, and the
conversions whose accesses the platform denies. -/

namespace Sys2Proof.Machine

/-! ### Words of memory -/

theorem getLsbD_place_wordByte (v : Word) (j : Nat) {k : Nat} (hk : k < 32) :
    (place (wordByte v j) (8 * j)).getLsbD k = (decide (8 * j ≤ k ∧ k < 8 * j + 8) && v.getLsbD k) := by
  by_cases hlow : k < 8 * j
  · simp [hlow, hk]
  · have hsub : 8 * j + (k - 8 * j) = k := by omega
    simp only [place, wordByte, BitVec.getLsbD_shiftLeft, BitVec.getLsbD_setWidth, BitVec.getLsbD_extractLsb', hsub]
    have hbyte : k - 8 * j < 8 ↔ k < 8 * j + 8 := by omega
    simp [hk, hlow, hbyte, show 8 * j ≤ k by omega, show k - 8 * j < 32 by omega]

/-- A word is its four bytes, the lowest first (R11, R43): each bit lies in one of them. -/
theorem place_wordByte_eq (v : Word) :
    place (wordByte v 3) 24 ||| place (wordByte v 2) 16 ||| place (wordByte v 1) 8 ||| place (wordByte v 0) 0 = v := by
  apply BitVec.eq_of_getLsbD_eq
  intro k hk
  have h0 := getLsbD_place_wordByte v 0 hk
  have h1 := getLsbD_place_wordByte v 1 hk
  have h2 := getLsbD_place_wordByte v 2 hk
  have h3 := getLsbD_place_wordByte v 3 hk
  rw [BitVec.getLsbD_or, BitVec.getLsbD_or, BitVec.getLsbD_or, h0, h1, h2, h3,
    ← Bool.and_or_distrib_right, ← Bool.and_or_distrib_right, ← Bool.and_or_distrib_right]
  have hin : (24 ≤ k ∧ k < 32) ∨ (16 ≤ k ∧ k < 24) ∨ (8 ≤ k ∧ k < 16) ∨ (0 ≤ k ∧ k < 8) := by omega
  rcases hin with h | h | h | h <;> simp [h]

theorem Memory.read_writeWord_byte {m : Memory} (hm : m.wf) (a : Nat) (v : Word) {k : Nat} (hk : k < 4) :
    (m.writeWord a v).read (a + k) = wordByte v k := by
  rw [Memory.read_writeWord hm, if_pos (by omega), Nat.add_sub_cancel_left]

theorem Memory.read_writeWord_outside {m : Memory} (hm : m.wf) {a x : Nat} (v : Word) (hx : x < a ∨ a + 4 ≤ x) :
    (m.writeWord a v).read x = m.read x := by
  rw [Memory.read_writeWord hm, if_neg (by omega)]

theorem Memory.readWord_writeWord {m : Memory} (hm : m.wf) (a : Nat) (v : Word) :
    (m.writeWord a v).readWord a = v := by
  have hbyte : ∀ k < 4, (m.writeWord a v).read (a + k) = wordByte v k :=
    fun k hk => Memory.read_writeWord_byte hm a v hk
  rw [Memory.readWord, hbyte 3 (by decide), hbyte 2 (by decide), hbyte 1 (by decide),
    show (m.writeWord a v).read a = _ from hbyte 0 (by decide), place_wordByte_eq]

/-- Settles O57, from the byte each address of the word holds after the store. -/
theorem memoryIsLittleEndian : Obligations.MemoryIsLittleEndian := fun _ a v hm =>
  ⟨fun _ hk => Memory.read_writeWord_byte hm a v hk, fun _ hx => Memory.read_writeWord_outside hm v hx,
    Memory.readWord_writeWord hm a v, Memory.writeWord_wf hm a v⟩

/-! ### HOST's accesses to a byte -/

theorem hostOp_memWr (s : State) (a : Nat) (v : Byte) : hostOp (.memWr a v) s =
    if a < 2 ^ 32 then .next (s.withMem (s.mem.write a v)) else .fault .noSuchAddress := rfl

theorem hostOp_memRd (s : State) (a : Nat) : hostOp (.memRd a) s =
    if a < 2 ^ 32 then .next (s.withReply ((s.mem.read a).setWidth 32)) else .fault .noSuchAddress := rfl

/-- Settles O58: a written byte is read back at its address alone, and a byte is its number in a reply. -/
theorem hostMemoryAccess : Obligations.HostMemoryAccess := by
  intro s a v rest hm
  rw [step_of_pending (op := .memWr a v) rfl, step_of_pending (op := .memRd a) rfl, hostOp_memWr, hostOp_memRd,
    BitVec.ofNat_toNat]
  refine ⟨fun ha => ?_, fun ha => ?_⟩
  · rw [if_pos ha, if_pos ha]
    exact ⟨⟨s.mem.write a v, rfl, fun x => Memory.read_write hm a x v⟩, rfl⟩
  · rw [if_neg (by omega), if_neg (by omega)]
    exact ⟨rfl, rfl⟩

/-! ### Conversions whose accesses the platform denies -/

section
variable {s : State} {srcs dsts : List Word}

/-- The model's checks are those of R87. -/
theorem cvCheck_eq_none_iff_cvLegal : cvCheck s srcs dsts = none ↔ CvLegal s srcs dsts := by
  rw [cvCheck_eq_none]
  exact ⟨fun ⟨⟨hlo, hhi⟩, ⟨hh, hw⟩, hrest⟩ => ⟨⟨hlo, hhi, hh, hw⟩, hrest⟩,
    fun ⟨⟨hlo, hhi, hh, hw⟩, hrest⟩ => ⟨⟨hlo, hhi⟩, ⟨hh, hw⟩, hrest⟩⟩

theorem readsOk_iff_readsAllowed : readsOk s srcs = true ↔ ReadsAllowed s srcs := readsOk_eq_true

theorem writesOk_iff_writesAllowed : writesOk s dsts = true ↔ WritesAllowed s dsts := writesOk_eq_true

/-- Once its checks pass, a conversion ends by its reads and its writes (R48, R49). -/
theorem convert_of_cvLegal (i : Instr) (m : Memory) (h : CvLegal s srcs dsts) :
    convert i s srcs dsts m =
      if readsOk s srcs then
        if writesOk s dsts then .next (s.withMem m)
        else .next (raise (spoilBlocks s dsts) .busErr (encode i))
      else .next (raise s .busErr (encode i)) := by
  simp only [convert, cvCheck_eq_none_iff_cvLegal.2 h, finish_ok, finish_error]

/-- A denied read raises `BUS_ERR` on the state as it was, whatever the writes would do (R48, R99). -/
theorem convert_of_read_denied (i : Instr) (m : Memory) (hlegal : CvLegal s srcs dsts)
    (hread : ¬ ReadsAllowed s srcs) : convert i s srcs dsts m = .next (faulted s 8#4 i) := by
  rw [convert_of_cvLegal i m hlegal, if_neg (mt readsOk_iff_readsAllowed.1 hread)]
  rfl

/-- A denied write raises `BUS_ERR` on a state that differs from the one before in the bytes of the destination
blocks and the draw counter (R48, R99). -/
theorem convert_of_write_denied (i : Instr) (m : Memory) (hm : s.mem.wf) (hlegal : CvLegal s srcs dsts)
    (hread : ReadsAllowed s srcs) (hwrite : ¬ WritesAllowed s dsts) :
    ∃ (m' : Memory) (k : Nat),
      convert i s srcs dsts m = .next { faulted s 8#4 i with mem := m', draws := k } ∧ m'.wf ∧
      ∀ a, (∀ d ∈ dsts, ¬ InBlock s d a) → m'.read a = s.mem.read a := by
  rw [convert_of_cvLegal i m hlegal, if_pos (readsOk_iff_readsAllowed.2 hread),
    if_neg (mt writesOk_iff_writesAllowed.1 hwrite)]
  obtain ⟨m', k, hspoil⟩ := spoilBlocks_eq s dsts
  have hmem := spoilBlocks_mem hm dsts
  rw [hspoil] at hmem ⊢
  exact ⟨m', k, rfl, hmem⟩

end

/-- Settles O52: both conversions are `convert` with their own planes and blocks. -/
theorem failedReadLeavesMemory : Obligations.FailedReadLeavesMemory := fun s =>
  ⟨convert_of_read_denied .cvtc (cvtcMem s), convert_of_read_denied .cvtg (cvtgMem s)⟩

/-- Settles O53: both conversions are `convert` with their own planes and blocks. -/
theorem failedWriteSpoilsOnlyTheBlocks : Obligations.FailedWriteSpoilsOnlyTheBlocks := by
  refine fun s hm => ⟨fun hlegal hread hwrite => ?_, fun hlegal hread hwrite => ?_⟩
  · obtain ⟨m, k, hexec, hwf, hkeep⟩ := convert_of_write_denied .cvtc (cvtcMem s) hm hlegal hread hwrite
    exact ⟨m, k, hexec, hwf, fun a hY hU hV =>
      hkeep a (List.forall_mem_cons.2 ⟨hY, List.forall_mem_cons.2 ⟨hU, List.forall_mem_singleton.2 hV⟩⟩)⟩
  · obtain ⟨m, k, hexec, hwf, hkeep⟩ := convert_of_write_denied .cvtg (cvtgMem s) hm hlegal hread hwrite
    exact ⟨m, k, hexec, hwf, fun a hY => hkeep a (List.forall_mem_singleton.2 hY)⟩

end Sys2Proof.Machine
end

section
/-! The encoding (R55 to R61): a word is its opcode field, its must-be-zero bits and its operand fields, so the
opcode's row and the operands determine a legal word, and `encode` writes the word that `decode` reads back. -/

namespace Sys2Proof.Machine

/-! ### Fields of a word -/

theorem field_toNat (w : Word) (lo width : Nat) : (field w lo width).toNat = w.toNat / 2 ^ lo % 2 ^ width := by
  rw [BitVec.extractLsb'_toNat, Nat.shiftRight_eq_div_pow]

theorem opcodeField_toNat (w : Word) : (field w 28 4).toNat = w.toNat / 2 ^ 28 := by
  rw [field_toNat]
  omega

/-- A placed field is read back where it stands. -/
theorem field_place_self {n lo : Nat} (f : BitVec n) (h : lo + n ≤ 32) : field (place f lo) lo n = f := by
  apply BitVec.eq_of_getLsbD_eq
  intro k hk
  have hin : lo + k < 32 := by omega
  simp [hk, hin]

/-- A placed field leaves the others 0. -/
theorem field_place_of_disjoint {n lo lo' n' : Nat} (f : BitVec n) (h : lo' + n' ≤ lo ∨ lo + n ≤ lo') :
    field (place f lo) lo' n' = 0#n' := by
  apply BitVec.eq_of_getLsbD_eq
  intro k hk
  have hout : lo' + k < lo ∨ n ≤ lo' + k - lo := by omega
  rcases hout with hlow | hhigh
  · simp [hlow]
  · simp [BitVec.getLsbD_of_ge f _ hhigh]

theorem getLsbD_eq_of_field_eq {w w' : Word} {lo n k : Nat} (h : field w lo n = field w' lo n)
    (hlo : lo ≤ k) (hhi : k < lo + n) : w.getLsbD k = w'.getLsbD k := by
  have hbit := congrArg (BitVec.getLsbD · (k - lo)) h
  have hk : lo + (k - lo) = k := by omega
  have hn : k - lo < n := by omega
  simpa [hk, hn] using hbit

/-! ### The rows of the opcode map -/

/-- `OP` of a row of R58. -/
def opcodeNumber : Opcode → Nat
  | .nop => 0x0
  | .pushi => 0x1
  | .pushr => 0x2
  | .clear => 0x3
  | .mag => 0x4
  | .huff => 0x5
  | .enc => 0x6
  | .zz => 0x7
  | .graych => 0x8
  | .cvtc => 0x9
  | .cvtg => 0xA

theorem opcodeOf_eq_some {n : Nat} {op : Opcode} (h : opcodeOf n = some op) : n = opcodeNumber op := by
  unfold opcodeOf at h
  split at h <;> cases h <;> rfl

theorem opcodeOf_eq_none {n : Nat} : opcodeOf n = none ↔ 0xB ≤ n := by
  constructor
  · intro h
    by_contra hlt
    interval_cases n <;> cases h
  · intro h
    obtain ⟨k, rfl⟩ := Nat.exists_eq_add_of_le' h
    rfl

/-- The masks of the decoder are those the statements print from R58. -/
theorem specMasks_opcodeNumber (op : Opcode) : specMasks.getD (opcodeNumber op) 0#32 = mustBeZero op := by
  cases op <;> rfl

/-- Where the operands of a row stand, as (low bit, width) (R56). -/
def operandFields : Opcode → List (Nat × Nat)
  | .pushi => [(16, 5), (0, 16)]
  | .mag => [(16, 1), (0, 16)]
  | .huff => [(16, 1), (8, 2), (0, 8)]
  | .enc => [(24, 2), (20, 4), (0, 16)]
  | .zz => [(0, 6)]
  | .nop | .pushr | .clear | .graych | .cvtc | .cvtg => []

/-- Every bit of a word belongs to `OP`, to the must-be-zero mask or to an operand (R58). -/
theorem bit_of_row (op : Opcode) : ∀ k < 32,
    28 ≤ k ∨ (mustBeZero op).getLsbD k = true ∨ ∃ p ∈ operandFields op, p.1 ≤ k ∧ k < p.1 + p.2 := by
  cases op <;> decide

theorem tableOfBits_inj {a b : BitVec 2} (h : tableOfBits a = tableOfBits b) : a = b := by
  rw [← tableBits_tableOfBits a, h, tableBits_tableOfBits]

/-- A flag is a field of one bit. -/
theorem field_one_eq {w w' : Word} {lo : Nat} (h : w.getLsbD lo = w'.getLsbD lo) :
    field w lo 1 = field w' lo 1 := by
  apply BitVec.eq_of_getLsbD_eq
  intro k hk
  obtain rfl : k = 0 := by omega
  simpa using h

/-- The operands keep every bit of their fields. -/
theorem field_eq_of_assemble_eq {op : Opcode} {w w' : Word} (h : assemble op w = assemble op w') :
    ∀ p ∈ operandFields op, field w p.1 p.2 = field w' p.1 p.2 := by
  cases op with
  | nop | pushr | clear | graych | cvtc | cvtg => simp [operandFields]
  | pushi =>
    obtain ⟨hlen, hval⟩ := Instr.pushi.inj h
    simp [operandFields, hlen, hval]
  | mag =>
    obtain ⟨hp, himm⟩ := Instr.mag.inj h
    simp [operandFields, field_one_eq hp, himm]
  | huff =>
    obtain ⟨hp, ht, hsym⟩ := Instr.huff.inj h
    simp [operandFields, field_one_eq hp, tableOfBits_inj ht, hsym]
  | enc =>
    obtain ⟨ht, hrun, himm⟩ := Instr.enc.inj h
    simp [operandFields, tableOfBits_inj ht, hrun, himm]
  | zz => simp [operandFields, Instr.zz.inj h]

/-! ### Legal words -/

/-- The word's opcode is the row's and no must-be-zero bit of the row is set (R58). -/
def InRow (w : Word) (op : Opcode) : Prop :=
  opcodeOf (field w 28 4).toNat = some op ∧ w &&& mustBeZero op = 0#32

/-- A word is determined by its row and its operands: the row gives the other bits. -/
theorem InRow.eq_of_assemble_eq {w w' : Word} {op : Opcode} (h : InRow w op) (h' : InRow w' op)
    (ha : assemble op w = assemble op w') : w = w' := by
  obtain ⟨hop, hzero⟩ := h
  obtain ⟨hop', hzero'⟩ := h'
  have hfield : field w 28 4 = field w' 28 4 :=
    BitVec.eq_of_toNat_eq ((opcodeOf_eq_some hop).trans (opcodeOf_eq_some hop').symm)
  apply BitVec.eq_of_getLsbD_eq
  intro k hk
  rcases bit_of_row op k hk with htop | hmask | ⟨p, hp, hlo, hhi⟩
  · exact getLsbD_eq_of_field_eq hfield htop (by omega)
  · have hclear : ∀ v : Word, v &&& mustBeZero op = 0#32 → v.getLsbD k = false := fun v hv => by
      simpa [hmask] using congrArg (BitVec.getLsbD · k) hv
    rw [hclear w hzero, hclear w' hzero']
  · exact getLsbD_eq_of_field_eq (field_eq_of_assemble_eq ha p hp) hlo hhi

/-- The checks of R59 on `PUSHI` are the well-formedness of the command assembled. -/
theorem assemble_wellFormed_iff (op : Opcode) (w : Word) : (assemble op w).wellFormed ↔
    (op = .pushi → (field w 16 5).toNat ≤ 16 ∧ (field w 0 16).toNat < 2 ^ (field w 16 5).toNat) := by
  cases op with
  | pushi => exact ⟨fun h _ => h, fun h => h rfl⟩
  | nop | pushr | clear | mag | huff | enc | zz | graych | cvtc | cvtg => simp [assemble]

/-- The words that decode, and what they decode to (R59). -/
theorem decode_eq_ok_iff {w : Word} {i : Instr} :
    decode w = .ok i ↔ ∃ op, InRow w op ∧ (assemble op w).wellFormed ∧ assemble op w = i := by
  constructor
  · intro h
    have hwf := decode_wellFormed h
    unfold decode at h
    split at h
    case h_1 => cases h
    case h_2 op hop =>
      split_ifs at h with hzero
      cases h
      exact ⟨op, ⟨hop, not_not.1 hzero⟩, hwf, rfl⟩
  · rintro ⟨op, ⟨hop, hzero⟩, hwf, rfl⟩
    rw [assemble_wellFormed_iff] at hwf
    have hlen : ¬ (op = .pushi ∧ 16 < (field w 16 5).toNat) := fun ⟨h, hlt⟩ => (hwf h).1.not_gt hlt
    have hval : ¬ (op = .pushi ∧ 2 ^ (field w 16 5).toNat ≤ (field w 0 16).toNat) :=
      fun ⟨h, hle⟩ => (hwf h).2.not_ge hle
    simp only [decode, hop, hzero, ne_eq, not_true_eq_false, if_false, if_neg hlen, if_neg hval]

/-- A word that does not decode lies in no row, or is a `PUSHI` of an ill-formed group. -/
theorem decode_eq_error_iff {w : Word} :
    (∃ e, decode w = .error e) ↔ ∀ op, InRow w op → ¬ (assemble op w).wellFormed := by
  have hok : (∃ e, decode w = .error e) ↔ ∀ i, decode w ≠ .ok i := by
    cases decode w <;> simp
  simp only [hok, ne_eq, decode_eq_ok_iff, not_exists, not_and]
  exact ⟨fun h op hrow hwf => h _ op hrow hwf rfl, fun h i op hrow hwf => absurd hwf (h op hrow)⟩

/-- The laws of the encoder, for every command (R58). -/
theorem inRow_encode {i : Instr} (h : i.wellFormed) : InRow (encode i) i.opcode := by
  cases i with
  | nop => exact Laws.SelectsRow.nop h
  | pushi len val => exact Laws.SelectsRow.pushi len val h
  | pushr => exact Laws.SelectsRow.pushr h
  | clear => exact Laws.SelectsRow.clear h
  | mag p imm => exact Laws.SelectsRow.mag p imm h
  | huff p t sym => exact Laws.SelectsRow.huff p t sym h
  | enc t run imm => exact Laws.SelectsRow.enc t run imm h
  | zz idx => exact Laws.SelectsRow.zz idx h
  | graych => exact Laws.SelectsRow.graych h
  | cvtc => exact Laws.SelectsRow.cvtc h
  | cvtg => exact Laws.SelectsRow.cvtg h

/-- `encode` puts each operand in the field from which `assemble` reads it (R56, R61). -/
theorem assemble_opcode_encode (i : Instr) : assemble i.opcode (encode i) = i := by
  cases i with
  | nop | pushr | clear | graych | cvtc | cvtg => rfl
  | pushi | mag | huff | enc | zz =>
    simp (disch := decide) only [assemble, encode, Instr.opcode, BitVec.extractLsb'_or, field_place_self,
      field_place_of_disjoint]
    simp

/-! ### The round trip -/

/-- Settles O1: the word of a command lies in the command's row and holds its operands. -/
theorem decodeOfEncode : Obligations.DecodeOfEncode := by
  intro i hwf
  have hassemble := assemble_opcode_encode i
  exact decode_eq_ok_iff.2 ⟨i.opcode, inRow_encode hwf, hassemble.symm ▸ hwf, hassemble⟩

theorem opcode_assemble (op : Opcode) (w : Word) : (assemble op w).opcode = op := by
  cases op <;> rfl

/-- Settles O2: the word and the encoding lie in one row with the same operands. -/
theorem decodedWordIsItsEncoding : Obligations.DecodedWordIsItsEncoding := by
  intro w i h
  obtain ⟨op, hrow, hwf, rfl⟩ := decode_eq_ok_iff.1 h
  have hassemble := assemble_opcode_encode (assemble op w)
  have hencode := inRow_encode hwf
  rw [opcode_assemble] at hassemble hencode
  exact ⟨hwf, hencode.eq_of_assemble_eq hrow hassemble⟩

/-- Settles O4: the printed words decode to their commands, so they are their encodings. -/
theorem encodingTableWords : Obligations.EncodingTableWords := by
  intro p hp
  have hdecode : decode p.2 = .ok p.1 := by
    revert p
    decide
  exact ⟨(decodedWordIsItsEncoding p.2 p.1 hdecode).2, hdecode⟩

/-! ### Illegal words -/

theorem opcodeNumber_lt (op : Opcode) : opcodeNumber op < 0xB := by cases op <;> decide

theorem opcodeNumber_eq_one {op : Opcode} : opcodeNumber op = 1 ↔ op = .pushi := by
  cases op <;> simp [opcodeNumber]

/-- The illegal words of R60 are those outside the rows and the `PUSHI` of ill-formed groups. -/
theorem illegalWord_iff (w : Word) : IllegalWord w ↔ ∀ op, InRow w op → ¬ (assemble op w).wellFormed := by
  have hlen : w.toNat / 2 ^ 16 % 32 = (field w 16 5).toNat := (field_toNat w 16 5).symm
  have hval : w.toNat % 2 ^ 16 = (field w 0 16).toNat := by rw [field_toNat, pow_zero, Nat.div_one]
  unfold IllegalWord InRow
  rw [← opcodeField_toNat, hlen, hval]
  cases hop : opcodeOf (field w 28 4).toNat with
  | none =>
    have hreserved : 0xB ≤ (field w 28 4).toNat := opcodeOf_eq_none.1 hop
    simp only [hreserved, true_or, reduceCtorEq, false_and, false_imp_iff, implies_true]
  | some op =>
    have hused : ¬ 0xB ≤ opcodeNumber op := (opcodeNumber_lt op).not_ge
    simp only [opcodeOf_eq_some hop, specMasks_opcodeNumber, hused, opcodeNumber_eq_one, assemble_wellFormed_iff,
      false_or, Option.some.injEq, and_imp, forall_eq', Classical.not_imp, not_and_or, not_le, not_lt, ne_eq]
    exact imp_iff_not_or.symm

/-- A word that does not decode, written to `CMD` while the block runs, raises `ILLEGAL` (R59, R99). -/
theorem issue_of_illegal {s : State} {w : Word} (hhalt : s.halt = false) (h : ∃ e, decode w = .error e) :
    issue w s = .next (raise s .illegal w) := by
  obtain ⟨e, he⟩ := h
  simp [issue, hhalt, he]

/-- Settles O3: the words outside the rows are those of R60, and `NOP` is its encoding alone. -/
theorem illegalWordsHaltTheBlock : Obligations.IllegalWordsHaltTheBlock := by
  have hillegal : ∀ w : Word, (∃ e, decode w = .error e) ↔ IllegalWord w := fun w =>
    decode_eq_error_iff.trans (illegalWord_iff w).symm
  refine ⟨hillegal, fun s w rest hhalt hw hp => ?_, fun w => ⟨fun h => ?_, fun h => ?_⟩⟩
  · rw [step_wr_fixed (r := .cmd) (by decide) hp]
    exact issue_of_illegal (s := s.withPending rest) hhalt ((hillegal w).2 hw)
  · exact (decodedWordIsItsEncoding w .nop h).2.symm
  · exact h ▸ decodeOfEncode .nop trivial

end Sys2Proof.Machine
end

section
/-! The staging buffer (R64 to R70): what a push that fits makes of the contents, what a push that does not fit
raises, and the commands NOP, PUSHI, PUSHR and CLEAR. -/

namespace Sys2Proof.Machine

/-! ### A push that fits -/

/-- The entries from the last written one on are kept. -/
theorem writeEntries_getElem?_ge {sb : List Group} {n k : Nat} {gs : List Group} (h : n + gs.length ≤ k) :
    (writeEntries sb n gs)[k]? = sb[k]? := by
  induction gs generalizing sb n with
  | nil => rfl
  | cons g gs ih =>
    rw [List.length_cons] at h
    rw [writeEntries, ih (by omega), List.getElem?_set_ne (by omega)]

/-- `SIZE` does not wrap when the groups fit: `C` is at most 2047. -/
theorem withPushed_size_toNat {s : State} {gs : List Group}
    (hfit : s.size.toNat + gs.length ≤ s.build.cap.toNat) :
    (s.withPushed gs).size.toNat = s.size.toNat + gs.length := by
  have hcap := s.build.cap.isLt
  exact Nat.mod_eq_of_lt (by omega)

theorem contents_withPushed {s : State} {gs : List Group}
    (hfit : s.size.toNat + gs.length ≤ s.build.cap.toNat) (hlen : s.sb.length = s.build.cap.toNat) :
    contents (s.withPushed gs) = contents s ++ gs := by
  rw [contents, withPushed_size_toNat hfit]
  exact writeEntries_take (hfit.trans_eq hlen.symm)

/-- Settles O19: the state after a push that fits is `withPushed`. -/
theorem pushAllAppendsOrFaults : Obligations.PushAllAppendsOrFaults := by
  refine fun s gs => ⟨pushAll_overflows, fun hfit hlen => ?_⟩
  exact ⟨s.withPushed gs, pushAll_fits hfit, rfl, withPushed_size_toNat hfit, contents_withPushed hfit hlen,
    writeEntries_length .., fun _ hk => writeEntries_getElem?_ge hk⟩

/-! ### The bit stream -/

@[simp] theorem groupBits_length (g : Group) : (groupBits g).length = g.len.toNat := by
  simp [groupBits]

/-- The most significant bit comes first (R13). -/
theorem groupBits_getElem? {g : Group} {k : Nat} (hk : k < g.len.toNat) :
    (groupBits g)[k]? = some (g.value.getLsbD (g.len.toNat - 1 - k)) := by
  simp [groupBits, hk]

/-- Settles O20: the contents grow by the groups, and after `CLEAR` there are none. -/
theorem pushesAppendToTheBitStream : Obligations.PushesAppendToTheBitStream := by
  refine ⟨fun g => ⟨groupBits_length g, fun _ => groupBits_getElem?⟩, fun s t gs hinv h => ?_, fun s t h => ?_⟩
  · obtain ⟨hlen, _⟩ := hinv
    rcases pushAll_cases s gs with ⟨hpush, hfit⟩ | ⟨hpush, _⟩
    · obtain rfl : s.withPushed gs = t := Except.ok.inj (hpush.symm.trans h)
      rw [bitStream, contents_withPushed hfit hlen, List.flatMap_append, bitStream]
    · cases hpush.symm.trans h
  · cases h
    rfl

/-! ### A push that does not fit -/

/-- The fault of a push that does not fit, whatever the command would have written with it (R65, R99). -/
theorem finish_pushAll_map_overflows {s : State} {gs : List Group}
    (h : s.build.cap.toNat < s.size.toNat + gs.length) (i : Instr) (f : State → State) :
    finish i s ((pushAll s gs).map f) = .next (faulted s 2#4 i) := by
  rw [pushAll_overflows h]
  rfl

theorem finish_pushAll_overflows {s : State} {gs : List Group}
    (h : s.build.cap.toNat < s.size.toNat + gs.length) (i : Instr) :
    finish i s (pushAll s gs) = .next (faulted s 2#4 i) := by
  rw [pushAll_overflows h]
  rfl

/-- `MagCheck` passes exactly when the strategy accepts the value (R72). -/
theorem magOutOfRange_eq_false_iff {s : State} {v : Int} :
    magOutOfRange s.build v = false ↔ MagAccepts s v := by
  cases hst : s.build.strategy <;> simp [magOutOfRange, strategyTabled, MagAccepts, hst]

/-- The end of `MAG` and `MAG.P` on an accepted value (R75). -/
theorem exec_mag_of_accepts {s : State} {imm : BitVec 16} (h : MagAccepts s (immValue imm)) (p : Bool) :
    exec (.mag p imm) s = finish (.mag p imm) s
      ((pushIf p s [magEncode (immValue imm)]).map (·.withRes (magEncode (immValue imm)))) := by
  simp [exec, execMag, magOutOfRange_eq_false_iff.2 h]

theorem lookup_of_populated {t : Table} {sym : Nat} {g : Group} (h : huffTable t sym = some g) :
    lookup t sym = .ok g := by
  simp [lookup, h]

/-- The end of `HUFF` and `HUFF.P` on a populated symbol (R77). -/
theorem exec_huff_of_populated {t : Table} {sym : BitVec 8} {g : Group} (h : huffTable t sym.toNat = some g)
    (p : Bool) (s : State) :
    exec (.huff p t sym) s = finish (.huff p t sym) s ((pushIf p s [g]).map (·.withRes g)) := by
  simp [exec, execHuff, lookup_of_populated h]

/-- The end of `ENC` on an encodable coefficient (R78). -/
theorem exec_enc_of_encodable {s : State} {t : Table} {run : BitVec 4} {imm : BitVec 16} {code : Group}
    (hmag : MagAccepts s (immValue imm)) (hcat : category (immValue imm) ≤ 15)
    (hcode : huffTable t (run.toNat * 16 + category (immValue imm)) = some code) :
    exec (.enc t run imm) s = finish (.enc t run imm) s
      ((pushAll s (encGroups code (magEncode (immValue imm)))).map (·.withRes (magEncode (immValue imm)))) := by
  have hsym : encSymbol run (category (immValue imm)) = .ok (run.toNat * 16 + category (immValue imm)) :=
    if_neg (by omega)
  simp [exec, execEnc, magOutOfRange_eq_false_iff.2 hmag, hsym, lookup_of_populated hcode]

/-- Only the value 0 has category 0 (R71). -/
theorem category_eq_zero_iff {v : Int} : category v = 0 ↔ v = 0 := by
  rw [category, bitLen, ← Int.natAbs_eq_zero (a := v)]
  split_ifs with h <;> simp [h]

/-- Only the value 0 has an empty suffix (R71). -/
theorem magEncode_len_eq_zero_iff {v : Int} (hcat : category v ≤ 15) : (magEncode v).len = 0#5 ↔ v = 0 := by
  have hlen : (magEncode v).len.toNat = category v := Nat.mod_eq_of_lt (by omega)
  rw [← category_eq_zero_iff, ← hlen]
  exact BitVec.toNat_inj.symm

theorem encGroups_magEncode_length {v : Int} (hcat : category v ≤ 15) (code : Group) :
    (encGroups code (magEncode v)).length = if v = 0 then 1 else 2 := by
  simp only [encGroups, magEncode_len_eq_zero_iff hcat]
  split_ifs <;> rfl

/-- Settles O26: past its earlier checks each of these commands ends in a push. -/
theorem pushBeyondCapacityFaults : Obligations.PushBeyondCapacityFaults := by
  refine fun s => ⟨fun hfull => ⟨fun len val => ?_, ?_, fun imm hmag => ?_, fun t sym g hg => ?_⟩,
    fun t run imm g hmag hcat hg hover => ?_, fun hover => ?_⟩
  · exact finish_pushAll_overflows (gs := [⟨val, len⟩]) hfull _
  · exact finish_pushAll_overflows (gs := [s.res]) hfull _
  · rw [exec_mag_of_accepts hmag]
    exact finish_pushAll_map_overflows (gs := [_]) hfull _ _
  · rw [exec_huff_of_populated hg]
    exact finish_pushAll_map_overflows (gs := [g]) hfull _ _
  · rw [exec_enc_of_encodable hmag hcat hg]
    rw [← encGroups_magEncode_length hcat g] at hover
    exact finish_pushAll_map_overflows hover _ _
  · exact finish_pushAll_overflows (gs := grayGroups) hover _

/-! ### The fullness predicate -/

theorem full_eq_true_iff (s : State) : full s = true ↔ s.build.cap.toNat ≤ s.size.toNat + s.rsv.toNat :=
  decide_eq_true_iff

/-- Settles O18: bit 0 of `STATUS` is `full`, and the particular reserves are arithmetic. -/
theorem fullnessPredicate : Obligations.FullnessPredicate := by
  refine ⟨fun s rest hp => ?_, fun s => ?_⟩
  · refine ⟨_, statusWord s, step_rd_fixed (r := .status) (by decide) hp, rfl, ?_⟩
    rw [statusWord_getLsbD_zero, full_eq_true_iff]
  · rw [full_eq_true_iff]
    refine ⟨Iff.rfl, fun hhalf => ?_, fun hhalf hcap => ?_, fun hzero hsize => ?_, fun hrsv => ?_⟩
    · omega
    · simp only [hcap, BitVec.toNat_ofNat] at hhalf ⊢
      omega
    · simp only [hzero, BitVec.toNat_ofNat]
      omega
    · omega

/-! ### The commands of the buffer -/

/-- Settles O21, by the meaning of `NOP`. -/
theorem nopCompletes : Obligations.NopCompletes := fun _ => rfl

/-- The whole state after a push of one group: `SIZE + 1` in 11 bits is the wrapped sum. -/
theorem withPushed_singleton (s : State) (g : Group) :
    s.withPushed [g] = { s with sb := s.sb.set s.size.toNat g, size := s.size + 1#11 } := by
  have hsize : BitVec.ofNat 11 (s.size.toNat + 1) = s.size + 1#11 := by
    rw [BitVec.ofNat_add, BitVec.ofNat_toNat, BitVec.setWidth_eq]
  rw [← hsize]
  rfl

/-- The end of a command that pushes one group into a free slot. -/
theorem finish_pushAll_singleton {s : State} (hfree : s.size.toNat < s.build.cap.toNat) (i : Instr) (g : Group) :
    finish i s (pushAll s [g]) = .next { s with sb := s.sb.set s.size.toNat g, size := s.size + 1#11 } := by
  rw [pushAll_fits (gs := [g]) hfree, finish_ok, withPushed_singleton]

/-- Settles O22: `PUSHI` pushes its operands. -/
theorem pushiCompletes : Obligations.PushiCompletes := fun _ len val hfree =>
  finish_pushAll_singleton hfree (.pushi len val) ⟨val, len⟩

/-- Settles O23: `PUSHR` pushes `RES`. -/
theorem pushrCompletes : Obligations.PushrCompletes := fun s hfree =>
  finish_pushAll_singleton hfree .pushr s.res

/-- Settles O24, by the meaning of `CLEAR`. -/
theorem clearCompletes : Obligations.ClearCompletes := fun _ => rfl

end Sys2Proof.Machine
end

section
/-! The magnitude code and MAG (R71 to R75): the category and the bits of a 16-bit value, decoding, the range
check, and the independence of the result from the strategy. -/

namespace Sys2Proof.Machine

/-! ### Category and bits -/

theorem natAbs_lt_two_pow_category (v : Int) : v.natAbs < 2 ^ category v := lt_two_pow_bitLen _

theorem two_pow_category_pred_le {v : Int} (hv : v ≠ 0) : 2 ^ (category v - 1) ≤ v.natAbs :=
  two_pow_bitLen_pred_le (Int.natAbs_ne_zero.2 hv)

/-- The bits of a value that is not negative are the value (R71). -/
theorem magBits_of_nonneg {v : Int} (hv : 0 ≤ v) : (magBits v : Int) = v := by
  have hlt := natAbs_lt_two_pow_category v
  rw [magBits, if_pos hv, Int.emod_eq_of_lt hv (by omega), Int.toNat_of_nonneg hv]

/-- The bits of a negative value are those of `v - 1`, so `2^cat` above it (R71). -/
theorem magBits_of_neg {v : Int} (hv : v < 0) : (magBits v : Int) = v + (2 ^ category v : Nat) - 1 := by
  have hlt := natAbs_lt_two_pow_category v
  rw [magBits, if_neg (by omega), ← Int.add_emod_right, Int.emod_eq_of_lt (by omega) (by omega)]
  omega

/-- Only -32768 has category 16 (R72). -/
theorem category_eq_sixteen_iff {v : Int} (h1 : -32768 ≤ v) (h2 : v ≤ 32767) : category v = 16 ↔ v = -32768 := by
  refine ⟨fun hcat => ?_, fun hv => hv ▸ by decide⟩
  have hne : v ≠ 0 := fun h => by rw [category_eq_zero_iff.2 h] at hcat; omega
  have hle := two_pow_category_pred_le hne
  rw [hcat] at hle
  omega

/-! ### The fields of the code: both are wide enough up to category 16 -/

theorem magEncode_len_toNat {v : Int} (hcat : category v ≤ 16) : (magEncode v).len.toNat = category v :=
  Nat.mod_eq_of_lt (by omega)

theorem magEncode_value_toNat {v : Int} (hcat : category v ≤ 16) : (magEncode v).value.toNat = magBits v :=
  Nat.mod_eq_of_lt ((magBits_lt v).trans_le (Nat.pow_le_pow_right (by decide) hcat))

theorem magEncode_canonical {v : Int} (hcat : category v ≤ 16) : (magEncode v).canonical := by
  rw [Group.canonical, magEncode_len_toNat hcat, magEncode_value_toNat hcat]
  exact ⟨hcat, magBits_lt v⟩

/-- Settles O29, from the category's two bounds and the bits of each sign. -/
theorem magEncodeValueRuns : Obligations.MagEncodeValueRuns := by
  intro v h1 h2
  have hcat := category_le h1 h2
  have hlt := natAbs_lt_two_pow_category v
  have hlen : (magEncode v).len = 16#5 ↔ category v = 16 := by
    rw [← magEncode_len_toNat hcat]
    exact BitVec.toNat_inj.symm
  rw [hlen, magEncode_len_toNat hcat, magEncode_value_toNat hcat]
  refine ⟨magEncode_canonical hcat, fun hv => hv ▸ by decide, fun hv => ?_, fun hv => ?_,
    category_eq_sixteen_iff h1 h2, by decide⟩
  · have hle := two_pow_category_pred_le hv.ne'
    zify at hlt hle
    rw [abs_of_pos hv] at hlt hle
    exact ⟨hle, hlt, magBits_of_nonneg hv.le⟩
  · have hle := two_pow_category_pred_le hv.ne
    zify at hlt hle
    rw [abs_of_neg hv] at hlt hle
    exact ⟨hle, hlt, mod_cast magBits_of_neg hv⟩

/-! ### Decoding -/

/-- The decoding rule of R74. -/
theorem magDecode_of_len_pos {g : Group} (h : 1 ≤ g.len.toNat) :
    magDecode g = if g.value.getLsbD (g.len.toNat - 1) then (g.value.toNat : Int)
      else (g.value.toNat : Int) - 2 ^ g.len.toNat + 1 := by
  have hne : g.len ≠ 0#5 := fun h0 => by simp [h0] at h
  simp [magDecode, hne]

/-- The top bit of the code tells the sign (R74). -/
theorem magEncode_value_top {v : Int} (hcat : category v ≤ 16) (hv : v ≠ 0) :
    (magEncode v).value.getLsbD (category v - 1) = decide (0 < v) := by
  have hle := two_pow_category_pred_le hv
  have hlt := natAbs_lt_two_pow_category v
  have htwice : 2 ^ category v = 2 * 2 ^ (category v - 1) :=
    (mul_pow_sub_one (mt category_eq_zero_iff.1 hv) 2).symm
  rw [BitVec.getLsbD, magEncode_value_toNat hcat]
  rcases lt_or_gt_of_ne hv with hneg | hpos
  · have hbits := magBits_of_neg hneg
    rw [decide_eq_false hneg.not_gt]
    exact Nat.testBit_lt_two_pow (by omega)
  · have hbits := magBits_of_nonneg hpos.le
    rw [decide_eq_true hpos]
    have hcat0 := mt category_eq_zero_iff.1 hv
    exact Nat.testBit_of_two_pow_le_and_two_pow_add_one_gt (by omega) (by omega)

/-- The decoder gives back every value whose code fits the fields (R74). -/
theorem magDecode_magEncode {v : Int} (hcat : category v ≤ 16) : magDecode (magEncode v) = v := by
  by_cases hv : v = 0
  · subst hv
    decide
  · have hcat0 := mt category_eq_zero_iff.1 hv
    have hlen := magEncode_len_toNat hcat
    rw [magDecode_of_len_pos (by omega), hlen, magEncode_value_top hcat hv, magEncode_value_toNat hcat]
    rcases lt_or_gt_of_ne hv with hneg | hpos
    · simp [hneg.not_gt, magBits_of_neg hneg]
      ring
    · simp [hpos, magBits_of_nonneg hpos.le]

/-- Settles O30: the top bit of the code tells which of the two value runs it comes from. -/
theorem magDecodeInvertsMagEncode : Obligations.MagDecodeInvertsMagEncode :=
  ⟨fun _ => rfl, fun _ => magDecode_of_len_pos, fun _ h1 h2 => magDecode_magEncode (category_le h1 h2)⟩

/-! ### The range check -/

/-- `MagCheck` fails exactly when a table strategy rejects the value (R72). -/
theorem magOutOfRange_eq_true_iff {s : State} {v : Int} : magOutOfRange s.build v = true ↔ MagRejects s v := by
  cases hst : s.build.strategy <;> simp [magOutOfRange, strategyTabled, MagRejects, hst]

theorem exec_mag_of_rejects {s : State} {imm : BitVec 16} (h : MagRejects s (immValue imm)) (p : Bool) :
    exec (.mag p imm) s = .next (raise s .magRange (encode (.mag p imm))) := by
  simp [exec, execMag, magOutOfRange_eq_true_iff.2 h]

theorem exec_enc_of_rejects {s : State} {imm : BitVec 16} (h : MagRejects s (immValue imm)) (t : Table)
    (run : BitVec 4) :
    exec (.enc t run imm) s = .next (raise s .magRange (encode (.enc t run imm))) := by
  simp [exec, execEnc, magOutOfRange_eq_true_iff.2 h]

/-- Settles O33: the range check is the first of `MAG` and of `ENC`. -/
theorem magRangeFaults : Obligations.MagRangeFaults := fun _ _ hrej =>
  ⟨exec_mag_of_rejects hrej, exec_enc_of_rejects hrej⟩

/-! ### MAG of an accepted value -/

/-- The end of a command that pushes one group into a free slot and then does `f`. -/
theorem finish_pushAll_singleton_map {s : State} (hfree : s.size.toNat < s.build.cap.toNat) (i : Instr) (g : Group)
    (f : State → State) :
    finish i s ((pushAll s [g]).map f) =
      .next (f { s with sb := s.sb.set s.size.toNat g, size := s.size + 1#11 }) := by
  rw [pushAll_fits (gs := [g]) hfree, ← withPushed_singleton]
  rfl

/-- Settles O32: past the range check `MAG` writes `RES`, and `MAG.P` pushes first. -/
theorem magCompletes : Obligations.MagCompletes := fun _ imm hmag =>
  ⟨exec_mag_of_accepts hmag false, fun hfree =>
    (exec_mag_of_accepts hmag true).trans (finish_pushAll_singleton_map hfree (.mag true imm) _ _)⟩

/-! ### The strategies -/

/-- The state of another build. -/
def State.withBuild (s : State) (b : Build) : State := { s with build := b }

/-- A push looks at the capacity of the build alone. -/
theorem pushIf_withBuild {s : State} {b : Build} (hcap : b.cap = s.build.cap) (p : Bool) (gs : List Group) :
    pushIf p (s.withBuild b) gs = (pushIf p s gs).map (·.withBuild b) := by
  have hcap' : (s.withBuild b).build.cap = s.build.cap := hcap
  rcases pushIf_cases p s gs with ⟨rfl, _⟩ | ⟨rfl, hp, hfit⟩ | ⟨rfl, hp, hover⟩
  · rfl
  · rw [hp]
    exact pushAll_fits (hcap' ▸ hfit)
  · rw [hp]
    exact pushAll_overflows (hcap' ▸ hover)

/-- Two builds of one capacity end a command alike that pushes and then writes `RES`. -/
theorem finish_pushIf_withRes_withBuild (i : Instr) (s : State) (p : Bool) (gs : List Group) (g : Group) :
    ∃ u : State, ∀ b : Build, b.cap = s.build.cap →
      finish i (s.withBuild b) ((pushIf p (s.withBuild b) gs).map (·.withRes g)) = .next (u.withBuild b) := by
  cases hp : pushIf p s gs with
  | ok t => exact ⟨t.withRes g, fun b hcap => by rw [pushIf_withBuild hcap, hp]; rfl⟩
  | error c => exact ⟨raise s c (encode i), fun b hcap => by rw [pushIf_withBuild hcap, hp]; rfl⟩

/-- An accepted coefficient without a symbol in the table faults `SYM_UNPOP` (R78). -/
theorem exec_enc_of_unpopulated {s : State} {t : Table} {run : BitVec 4} {imm : BitVec 16}
    (hmag : MagAccepts s (immValue imm))
    (hsym : 15 < category (immValue imm) ∨ huffTable t (run.toNat * 16 + category (immValue imm)) = none) :
    exec (.enc t run imm) s = .next (raise s .symUnpop (encode (.enc t run imm))) := by
  have hin := magOutOfRange_eq_false_iff.2 hmag
  by_cases hcat : 15 < category (immValue imm)
  · simp [exec, execEnc, hin, encSymbol, hcat]
  · simp [exec, execEnc, hin, encSymbol, hcat, lookup, hsym.resolve_left hcat]

/-- Settles O31: a value below `R` is accepted under every strategy, and what follows the range check does not look
at the strategy. -/
theorem strategiesGiveEqualResults : Obligations.StrategiesGiveEqualResults := by
  intro s imm i hlt hi
  have hmag : ∀ m, MagAccepts (s.withBuild { s.build with strategy := m }) (immValue imm) := fun _ => .inr hlt
  rcases hi with ⟨p, rfl⟩ | ⟨t, run, rfl⟩
  · obtain ⟨u, hu⟩ := finish_pushIf_withRes_withBuild (.mag p imm) s p [magEncode (immValue imm)]
      (magEncode (immValue imm))
    exact ⟨u, fun m => (exec_mag_of_accepts (hmag m) p).trans (hu _ rfl)⟩
  · by_cases hsym : 15 < category (immValue imm) ∨ huffTable t (run.toNat * 16 + category (immValue imm)) = none
    · exact ⟨raise s .symUnpop (encode (.enc t run imm)), fun m => exec_enc_of_unpopulated (hmag m) hsym⟩
    · obtain ⟨hcat, hcode⟩ := not_or.1 hsym
      obtain ⟨code, hcode⟩ := Option.ne_none_iff_exists'.1 hcode
      obtain ⟨u, hu⟩ := finish_pushIf_withRes_withBuild (.enc t run imm) s true
        (encGroups code (magEncode (immValue imm))) (magEncode (immValue imm))
      exact ⟨u, fun m => (exec_enc_of_encodable (hmag m) (not_lt.1 hcat) hcode).trans (hu _ rfl)⟩

end Sys2Proof.Machine
end

section
/-! The Huffman coder (R76 to R79): what a push that fits leaves, GRAYCH, and HUFF and ENC of symbols with and
without an entry. -/

namespace Sys2Proof.Machine

/-! ### The whole state after a push that fits -/

/-- `SIZE` counts up by the number of groups, in 11 bits (R65). -/
theorem withPushed_eq (s : State) (gs : List Group) :
    s.withPushed gs =
      { s with sb := writeEntries s.sb s.size.toNat gs, size := s.size + BitVec.ofNat 11 gs.length } := by
  have hsize : BitVec.ofNat 11 (s.size.toNat + gs.length) = s.size + BitVec.ofNat 11 gs.length := by
    rw [BitVec.ofNat_add, BitVec.ofNat_toNat, BitVec.setWidth_eq]
  rw [← hsize]
  rfl

/-- The end of a command whose push fits and that then does `f`. -/
theorem finish_pushAll_map_fits {s : State} {gs : List Group} (hfit : s.size.toNat + gs.length ≤ s.build.cap.toNat)
    (i : Instr) (f : State → State) :
    finish i s ((pushAll s gs).map f) =
      .next (f { s with sb := writeEntries s.sb s.size.toNat gs, size := s.size + BitVec.ofNat 11 gs.length }) := by
  rw [pushAll_fits hfit, ← withPushed_eq]
  rfl

/-! ### GRAYCH -/

theorem huffTable_cdc_zero : huffTable .cdc 0 = some ⟨0#16, 2#5⟩ := by decide

theorem huffTable_cac_zero : huffTable .cac 0 = some ⟨0#16, 2#5⟩ := by decide

/-- Both codes of symbol 0 are `00`, so the placeholder is that group four times (R79). -/
theorem grayGroups_eq : grayGroups = [⟨0#16, 2#5⟩, ⟨0#16, 2#5⟩, ⟨0#16, 2#5⟩, ⟨0#16, 2#5⟩] := by
  simp [grayGroups, huffTable_cdc_zero, huffTable_cac_zero]

/-- Settles O25: `GRAYCH` pushes the placeholder's four groups. -/
theorem graychCompletes : Obligations.GraychCompletes := by
  refine ⟨huffTable_cdc_zero, huffTable_cac_zero, fun s hfree => ?_⟩
  have hgray : exec .graych s = finish .graych s (pushAll s grayGroups) := rfl
  rw [hgray, pushAll_fits (gs := grayGroups) hfree, finish_ok, withPushed_eq, grayGroups_eq]
  rfl

/-! ### HUFF and ENC of a populated symbol -/

/-- Settles O34: past the lookup `HUFF` writes `RES`, and `HUFF.P` pushes first. -/
theorem huffCompletes : Obligations.HuffCompletes := fun s t sym _ hg =>
  ⟨exec_huff_of_populated hg false s, fun hfree =>
    (exec_huff_of_populated hg true s).trans (finish_pushAll_singleton_map hfree (.huff true t sym) _ _)⟩

/-- The value 0 has no suffix (R78). -/
theorem encGroups_magEncode_zero (code : Group) : encGroups code (magEncode 0) = [code] := rfl

/-- Every other value that `ENC` accepts has a suffix (R78). -/
theorem encGroups_magEncode_of_ne_zero {v : Int} (hcat : category v ≤ 15) (hv : v ≠ 0) (code : Group) :
    encGroups code (magEncode v) = [code, magEncode v] :=
  if_neg (mt (magEncode_len_eq_zero_iff hcat).1 hv)

/-- Settles O36: past its checks `ENC` pushes the code, and a suffix unless the value is 0. -/
theorem encCompletes : Obligations.EncCompletes := by
  refine fun s t run imm code hmag hcat hcode => ⟨fun hzero hfree => ?_, fun hne hfree => ?_⟩
  · rw [exec_enc_of_encodable hmag hcat hcode, hzero, encGroups_magEncode_zero,
      finish_pushAll_singleton_map hfree]
    rfl
  · rw [exec_enc_of_encodable hmag hcat hcode, encGroups_magEncode_of_ne_zero hcat hne,
      finish_pushAll_map_fits hfree]
    rfl

/-! ### Symbols without an entry -/

/-- A DC table has entries for the symbols 0 to 11 alone (R92, R93). -/
theorem symbol_le_of_populated_dc {t : Table} (ht : t = .ldc ∨ t = .cdc) {sym : Nat} {g : Group}
    (h : huffTable t sym = some g) : sym ≤ 11 := by
  have hentries : ∀ e ∈ tableEntries t, e.1 ≤ 11 := by
    rcases ht with rfl | rfl <;> decide +kernel
  exact hentries _ (findEntry_mem h)

/-- An AC table has entries for 0x00, for 0xF0 and for the categories 1 to 10 alone (R94, R95). -/
theorem symbol_of_populated_ac {t : Table} (ht : t = .lac ∨ t = .cac) {sym : Nat} {g : Group}
    (h : huffTable t sym = some g) : sym = 0x00 ∨ sym = 0xF0 ∨ (1 ≤ sym % 16 ∧ sym % 16 ≤ 10) := by
  have hentries : ∀ e ∈ tableEntries t, e.1 = 0x00 ∨ e.1 = 0xF0 ∨ (1 ≤ e.1 % 16 ∧ e.1 % 16 ≤ 10) := by
    rcases ht with rfl | rfl <;> decide +kernel
  exact hentries _ (findEntry_mem h)

/-- A value with 11 or more bits is beyond the categories of the AC tables. -/
theorem category_gt_ten {v : Int} (h : 1024 ≤ v.natAbs) : 10 < category v := by
  have hlt : 2 ^ 10 < 2 ^ category v := h.trans_lt (natAbs_lt_two_pow_category v)
  exact (Nat.pow_lt_pow_iff_right (by decide)).1 hlt

/-- With a DC table every symbol of a positive run is unpopulated (R78). -/
theorem huffTable_dc_of_run_ne_zero {t : Table} (ht : t = .ldc ∨ t = .cdc) {run : BitVec 4} (hrun : run ≠ 0#4)
    (cat : Nat) : huffTable t (run.toNat * 16 + cat) = none := by
  have hpos : run.toNat ≠ 0 := fun h0 => hrun (BitVec.eq_of_toNat_eq h0)
  refine Option.eq_none_iff_forall_ne_some.2 fun g hg => ?_
  have hle := symbol_le_of_populated_dc ht hg
  omega

/-- With an AC table the symbol of a category 11 to 15 is unpopulated, and so is that of category 0 unless it is
0x00 or 0xF0 (R78). -/
theorem huffTable_ac_of_category {t : Table} (ht : t = .lac ∨ t = .cac) {run : BitVec 4} {cat : Nat}
    (hcat : cat ≤ 15) (h : 10 < cat ∨ (cat = 0 ∧ 1 ≤ run.toNat ∧ run.toNat ≤ 14)) :
    huffTable t (run.toNat * 16 + cat) = none := by
  refine Option.eq_none_iff_forall_ne_some.2 fun g hg => ?_
  have hsym := symbol_of_populated_ac ht hg
  omega

/-- `HUFF` and `HUFF.P` of a symbol without an entry fault at the lookup (R76, R77). -/
theorem exec_huff_of_unpopulated {t : Table} {sym : BitVec 8} (h : huffTable t sym.toNat = none) (p : Bool)
    (s : State) : exec (.huff p t sym) s = .next (raise s .symUnpop (encode (.huff p t sym))) := by
  simp [exec, execHuff, lookup, h]

/-- Settles O35: in each case the category is 16 or the lookup finds no entry, and both checks come before the
push. -/
theorem unpopulatedSymbolFaults : Obligations.UnpopulatedSymbolFaults := by
  refine ⟨fun s p _ _ h => exec_huff_of_unpopulated h p s, fun s t run imm hmag hcase => ?_⟩
  refine exec_enc_of_unpopulated hmag (or_iff_not_imp_left.2 fun hcat => ?_)
  rcases hcase with hbig | hnone | ⟨hdc, hrun⟩ | ⟨hac, hlarge | ⟨hzero, hrun⟩⟩
  · exact absurd hbig hcat
  · exact hnone
  · exact huffTable_dc_of_run_ne_zero hdc hrun _
  · exact huffTable_ac_of_category hac (not_lt.1 hcat) (.inl (category_gt_ten hlarge))
  · exact huffTable_ac_of_category hac (not_lt.1 hcat) (.inr ⟨category_eq_zero_iff.2 hzero, hrun⟩)

end Sys2Proof.Machine
end

section
/-! The converter's formulas (R81 to R84): samples and gray levels convert exactly, no result is -0, and every
operation is monotone in each input, so the corner inputs bound every result. -/

namespace Sys2Proof.Machine

/-- Rounding saturates at the encoding of `+∞`, so no magnitude reaches the sign bit. -/
theorem roundMag_lt (n d : Nat) : roundMag n d < 2 ^ 31 :=
  (Nat.min_le_left f32Infinity _).trans_lt (by decide)

theorem f32Shift_le {q k : Nat} (h : q < 2 ^ (k + 24)) : f32Shift q ≤ k := by
  rcases (f32Shift_bounds q).2 with hzero | hle
  · omega
  · have := (Nat.pow_lt_pow_iff_right (by decide)).1 (hle.trans_lt h)
    omega

/-! ### Exact results -/

theorem divNearestEven_mul_of_dvd {n d : Nat} (h : d ∣ n) (hd : 0 < d) : divNearestEven n d * d = n := by
  have hmod : n % d = 0 := Nat.mod_eq_zero_of_dvd h
  rw [divNearestEven, if_neg (by omega), if_neg (by omega), Nat.div_mul_cancel h]

theorem f32Finite_f32Pack_roundMag {n d : Nat} (neg : Bool) (h : f32Shift (n / d) ≤ 252) :
    F32Finite (f32Pack neg (roundMag n d)) := by
  have hsig := roundSignificand_le n d
  rw [F32Finite, f32Pack_toNat neg (roundMag_lt n d), roundMag_eq, f32Infinity]
  split_ifs <;> omega

/-- A magnitude of at most 24 significant bits is rounded to itself. -/
theorem f32Units_f32Pack_roundMag_exact (neg : Bool) {n k : Nat} (hdvd : 2 ^ k ∣ n) (hlt : n < 2 ^ (k + 24))
    (hk : k ≤ 252) : f32Units (f32Pack neg (roundMag n 1)) = (if neg then -1 else 1) * (n : Int) := by
  have hsh : f32Shift (n / 1) ≤ k := f32Shift_le (by rwa [Nat.div_one])
  have hround : roundUnits n 1 = n := by
    rw [roundUnits, roundSignificand, one_mul]
    exact divNearestEven_mul_of_dvd ((pow_dvd_pow 2 hsh).trans hdvd) (by positivity)
  rw [f32Units_f32Pack_roundMag (f32Finite_f32Pack_roundMag neg (hsh.trans hk)), hround]

/-- A sum of at most 24 significant bits is exact. -/
theorem f32Units_f32Add_exact {x y : F32} {v : Int} {k : Nat} (hsum : f32Units x + f32Units y = v * 2 ^ k)
    (hv : v.natAbs < 2 ^ 24) (hk : k ≤ 252) : f32Units (f32Add x y) = v * 2 ^ k := by
  obtain ⟨neg, hadd, hsign⟩ := f32Add_eq_f32Pack x y
  have habs : (f32Units x + f32Units y).natAbs = 2 ^ k * v.natAbs := by
    rw [hsum, Int.natAbs_mul, Int.natAbs_pow, mul_comm]
    rfl
  have hlt : (f32Units x + f32Units y).natAbs < 2 ^ (k + 24) := by
    rw [habs, pow_add]
    exact Nat.mul_lt_mul_of_pos_left hv (by positivity)
  rw [hadd, f32Units_f32Pack_roundMag_exact neg (habs ▸ Nat.dvd_mul_right _ _) hlt hk, ← hsign, hsum]

/-- A sample has at most 8 significant bits (R81). -/
theorem f32Units_f32OfSample (b : Byte) : f32Units (f32OfSample b) = b.toNat * 2 ^ 149 := by
  have hb := b.isLt
  have hlt : b.toNat * 2 ^ 149 < 2 ^ (149 + 24) := by omega
  rw [f32OfSample, f32OfRatio, f32Units_f32Pack_roundMag_exact false (Nat.dvd_mul_left _ _) hlt (by decide)]
  simp

/-- Settles O45: the coefficients are closed terms, and a sample converts exactly. -/
theorem coefficientEncodings : Obligations.CoefficientEncodings :=
  ⟨rfl, by decide, f32Units_f32OfSample⟩

theorem f32Units_k128 : f32Units k128 = 128 * 2 ^ 149 := by decide

/-- Settles O46: the difference of a sample and 128 has at most 8 significant bits. -/
theorem grayConversionIsExact : Obligations.GrayConversionIsExact := by
  intro g
  have hg := g.isLt
  refine f32Units_f32Add_exact ?_ (by omega) (by decide)
  rw [f32Units_f32Negate, f32Units_f32OfSample, f32Units_k128]
  ring

/-! ### No result is -0 -/

/-- Rounding takes no positive number of units to 0. -/
theorem eq_zero_of_roundMag_one {n : Nat} (h : roundMag n 1 = 0) : n = 0 := by
  have hle : n / 1 / 2 ^ f32Shift (n / 1) ≤ roundSignificand n 1 := by
    rw [Nat.div_div_eq_div_mul]
    exact div_le_divNearestEven ..
  rw [roundMag_eq, f32Infinity] at h
  rw [show f32Shift (n / 1) = 0 by omega, pow_zero] at hle
  omega

theorem eq_negZero {x : F32} (hneg : f32Neg x = true) (hmag : f32Mag x = 0) : x = 0x80000000#32 := by
  have hge : 2 ^ 31 ≤ x.toNat := of_decide_eq_true ((BitVec.msb_eq_decide x).symm.trans hneg)
  have hlow : x.toNat % 2 ^ 31 = 0 := by
    rw [f32Mag_eq] at hmag
    split_ifs at hmag with hexp
    · omega
    · simp at hmag
  have hlt := x.isLt
  exact BitVec.eq_of_toNat_eq (show x.toNat = 2 ^ 31 by omega)

theorem f32Pack_eq_negZero {neg : Bool} {m : Nat} (hm : m < 2 ^ 31) (h : f32Pack neg m = 0x80000000#32) :
    neg = true ∧ m = 0 := by
  have hnat := f32Pack_toNat neg hm
  rw [h, show (0x80000000#32).toNat = 2 ^ 31 from rfl] at hnat
  split_ifs at hnat with hneg
  · exact ⟨hneg, by omega⟩
  · omega

/-- Only the sum of two -0 is -0 (R84). -/
theorem f32Add_eq_negZero {x y : F32} (h : f32Add x y = 0x80000000#32) :
    x = 0x80000000#32 ∧ y = 0x80000000#32 := by
  unfold f32Add at h
  by_cases hsum : f32Units x + f32Units y = 0
  · simp only [if_pos hsum] at h
    obtain ⟨hsigns, -⟩ := f32Pack_eq_negZero (by decide) h
    obtain ⟨hx, hy⟩ := Bool.and_eq_true_iff.1 hsigns
    simp only [f32Units, hx, hy, if_true] at hsum
    exact ⟨eq_negZero hx (by omega), eq_negZero hy (by omega)⟩
  · simp only [if_neg hsum] at h
    obtain ⟨-, hmag⟩ := f32Pack_eq_negZero (roundMag_lt ..) h
    exact absurd (eq_zero_of_roundMag_one hmag) (by omega)

theorem f32Neg_f32OfSample (b : Byte) : f32Neg (f32OfSample b) = false := f32Neg_f32Pack false (roundMag_lt ..)

/-- A coefficient without a sign times a sample is not -0. -/
theorem f32Mul_f32OfSample_ne_negZero {k : F32} (hk : f32Neg k = false) (b : Byte) :
    f32Mul k (f32OfSample b) ≠ 0x80000000#32 := fun h => by
  obtain ⟨hsign, -⟩ := f32Pack_eq_negZero (roundMag_lt ..) h
  rw [hk, f32Neg_f32OfSample] at hsign
  exact absurd hsign (by decide)

/-- Settles O47: each result is a sum with an operand that is not -0: the level shift in `CY` and `CG`, the last
product in `CU`, and in `CV` the first product, by way of the inner difference. -/
theorem converterNeverGivesMinusZero : Obligations.ConverterNeverGivesMinusZero := by
  intro r g b
  have hshift : f32Negate k128 ≠ 0x80000000#32 := by decide
  have hU : f32Mul kUB (f32OfSample b) ≠ 0x80000000#32 := f32Mul_f32OfSample_ne_negZero rfl b
  have hV : f32Mul kVR (f32OfSample r) ≠ 0x80000000#32 := f32Mul_f32OfSample_ne_negZero rfl r
  exact ⟨fun h => hshift (f32Add_eq_negZero h).2, fun h => hU (f32Add_eq_negZero h).2,
    fun h => hV (f32Add_eq_negZero (f32Add_eq_negZero h).1).1, fun h => hshift (f32Add_eq_negZero h).2⟩

/-! ### Rounding is monotone -/

theorem divNearestEven_mono {n n' : Nat} (d : Nat) (h : n ≤ n') : divNearestEven n d ≤ divNearestEven n' d := by
  rcases (Nat.div_le_div_right (c := d) h).lt_or_eq with hlt | heq
  · exact (divNearestEven_le_div_succ n d).trans (hlt.trans_le (div_le_divNearestEven n' d))
  · have hmod : n % d ≤ n' % d := by
      have hn := Nat.div_add_mod n d
      have hn' := Nat.div_add_mod n' d
      rw [heq] at hn
      omega
    unfold divNearestEven
    rw [heq]
    split_ifs <;> omega

/-- A longer shift moves the encoding to a later binade, and within a binade the significand decides. -/
theorem roundMag_mono {n n' : Nat} (d : Nat) (h : n ≤ n') : roundMag n d ≤ roundMag n' d := by
  have hdiv : n / d ≤ n' / d := Nat.div_le_div_right h
  rw [roundMag_eq, roundMag_eq]
  refine min_le_min le_rfl ?_
  rcases (f32Shift_le (hdiv.trans_lt (f32Shift_bounds _).1)).lt_or_eq with hlt | heq
  · have hcarry := roundSignificand_le n d
    have hnorm := le_roundSignificand (n := n') (d := d) (by omega)
    omega
  · unfold roundSignificand
    rw [heq]
    exact Nat.add_le_add_left (divNearestEven_mono _ h) _

/-- An encoding is a shift and a significand of at most 24 bits, and of fewer only where the shift is 0. -/
theorem f32Mag_eq_significand (x : F32) : ∃ sh q, x.toNat % 2 ^ 31 = sh * 2 ^ 23 + q ∧ f32Mag x = q * 2 ^ sh ∧
    q < 2 ^ 24 ∧ (sh = 0 ∨ 2 ^ 23 ≤ q) := by
  rw [f32Mag_eq]
  split_ifs with hexp
  · exact ⟨0, x.toNat % 2 ^ 23, by omega, by simp, by omega, .inl rfl⟩
  · exact ⟨x.toNat / 2 ^ 23 % 2 ^ 8 - 1, 2 ^ 23 + x.toNat % 2 ^ 23, by omega, rfl, by omega, .inr (by omega)⟩

/-- The order of the encodings without their signs is the order of the magnitudes. -/
theorem f32Mag_mono {x y : F32} (h : x.toNat % 2 ^ 31 ≤ y.toNat % 2 ^ 31) : f32Mag x ≤ f32Mag y := by
  obtain ⟨sh, q, hx, hmag, hq, hnorm⟩ := f32Mag_eq_significand x
  obtain ⟨sh', q', hy, hmag', hq', hnorm'⟩ := f32Mag_eq_significand y
  rw [hmag, hmag']
  obtain hlt | rfl : sh < sh' ∨ sh = sh' := by omega
  · calc q * 2 ^ sh ≤ 2 ^ 24 * 2 ^ sh := Nat.mul_le_mul_right _ hq.le
      _ = 2 ^ 23 * 2 ^ (sh + 1) := by ring
      _ ≤ q' * 2 ^ sh' := Nat.mul_le_mul (by omega) (Nat.pow_le_pow_right (by decide) hlt)
  · exact Nat.mul_le_mul_right _ (by omega)

theorem f32Pack_toNat_mod (neg : Bool) {m : Nat} (hm : m < 2 ^ 31) : (f32Pack neg m).toNat % 2 ^ 31 = m := by
  rw [f32Pack_toNat neg hm]
  split_ifs <;> omega

theorem f32Mag_f32Pack_roundMag_mono (neg neg' : Bool) {n n' : Nat} (d : Nat) (h : n ≤ n') :
    f32Mag (f32Pack neg (roundMag n d)) ≤ f32Mag (f32Pack neg' (roundMag n' d)) := by
  refine f32Mag_mono ?_
  rw [f32Pack_toNat_mod neg (roundMag_lt n d), f32Pack_toNat_mod neg' (roundMag_lt n' d)]
  exact roundMag_mono d h

theorem f32Mag_f32Pack_roundMag_zero (neg : Bool) (d : Nat) : f32Mag (f32Pack neg (roundMag 0 d)) = 0 := by
  have hround : roundMag 0 d = 0 := by simp [roundMag, f32Shift, divNearestEven]
  rw [hround]
  cases neg <;> decide

/-- Rounding keeps the order of two magnitudes with their signs. -/
theorem f32Units_f32Pack_roundMag_mono {neg neg' : Bool} {n n' d : Nat}
    (h : (if neg then -1 else 1) * (n : Int) ≤ (if neg' then -1 else 1) * (n' : Int)) :
    f32Units (f32Pack neg (roundMag n d)) ≤ f32Units (f32Pack neg' (roundMag n' d)) := by
  simp only [f32Units, f32Neg_f32Pack _ (roundMag_lt _ d)]
  cases neg <;> cases neg' <;> simp only [Bool.false_eq_true, if_false, if_true, one_mul, neg_one_mul] at h ⊢
  case false.false =>
    exact_mod_cast f32Mag_f32Pack_roundMag_mono false false d (by omega)
  case false.true =>
    obtain ⟨rfl, rfl⟩ : n = 0 ∧ n' = 0 := by omega
    simp only [f32Mag_f32Pack_roundMag_zero]
    decide
  case true.false => omega
  case true.true =>
    exact neg_le_neg (by exact_mod_cast f32Mag_f32Pack_roundMag_mono true true d (by omega))

/-! ### The formulas are monotone in each sample -/

theorem f32Add_mono {x x' y y' : F32} (hx : f32Units x ≤ f32Units x') (hy : f32Units y ≤ f32Units y') :
    f32Units (f32Add x y) ≤ f32Units (f32Add x' y') := by
  obtain ⟨neg, hadd, hsum⟩ := f32Add_eq_f32Pack x y
  obtain ⟨neg', hadd', hsum'⟩ := f32Add_eq_f32Pack x' y'
  rw [hadd, hadd']
  exact f32Units_f32Pack_roundMag_mono (by omega)

theorem f32Negate_antitone {x y : F32} (h : f32Units x ≤ f32Units y) :
    f32Units (f32Negate y) ≤ f32Units (f32Negate x) := by simpa using h

theorem f32Sub_mono {x x' y y' : F32} (hx : f32Units x ≤ f32Units x') (hy : f32Units y' ≤ f32Units y) :
    f32Units (f32Sub x y) ≤ f32Units (f32Sub x' y') :=
  f32Add_mono hx (f32Negate_antitone hy)

theorem f32Mul_mono {k x x' : F32} (hk : 0 ≤ f32Units k) (hx : f32Units x ≤ f32Units x') :
    f32Units (f32Mul k x) ≤ f32Units (f32Mul k x') := by
  refine f32Units_f32Pack_roundMag_mono ?_
  rw [← f32Units_mul, ← f32Units_mul]
  exact mul_le_mul_of_nonneg_left hx hk

theorem f32Mul_f32OfSample_mono {k : F32} (hk : f32Neg k = false) {b b' : Byte} (h : b ≤ b') :
    f32Units (f32Mul k (f32OfSample b)) ≤ f32Units (f32Mul k (f32OfSample b')) := by
  refine f32Mul_mono (by simp [f32Units, hk]) ?_
  have hnat : b.toNat ≤ b'.toNat := h
  rw [f32Units_f32OfSample, f32Units_f32OfSample]
  omega

theorem convY_mono {r r' g g' b b' : Byte} (hr : r ≤ r') (hg : g ≤ g') (hb : b ≤ b') :
    f32Units (convY r g b) ≤ f32Units (convY r' g' b') :=
  f32Sub_mono (f32Add_mono (f32Add_mono (f32Mul_f32OfSample_mono rfl hr) (f32Mul_f32OfSample_mono rfl hg))
    (f32Mul_f32OfSample_mono rfl hb)) le_rfl

/-- `CU` falls as red or green rises. -/
theorem convU_mono {r r' g g' b b' : Byte} (hr : r' ≤ r) (hg : g' ≤ g) (hb : b ≤ b') :
    f32Units (convU r g b) ≤ f32Units (convU r' g' b') :=
  f32Add_mono (f32Sub_mono (f32Negate_antitone (f32Mul_f32OfSample_mono rfl hr)) (f32Mul_f32OfSample_mono rfl hg))
    (f32Mul_f32OfSample_mono rfl hb)

/-- `CV` falls as green or blue rises. -/
theorem convV_mono {r r' g g' b b' : Byte} (hr : r ≤ r') (hg : g' ≤ g) (hb : b' ≤ b) :
    f32Units (convV r g b) ≤ f32Units (convV r' g' b') :=
  f32Sub_mono (f32Sub_mono (f32Mul_f32OfSample_mono rfl hr) (f32Mul_f32OfSample_mono rfl hg))
    (f32Mul_f32OfSample_mono rfl hb)

theorem zero_le_sample (b : Byte) : 0#8 ≤ b := Nat.zero_le _

theorem sample_le_255 (b : Byte) : b ≤ 255#8 := Nat.le_of_lt_succ b.isLt

/-- Settles O48: the corner inputs that R84 names bound `CY`, `CU` and `CV` as these are monotone in each sample, and
`CG` is exact. -/
theorem converterRanges : Obligations.ConverterRanges := by
  have hYlo : f32Units (convY 0#8 0#8 0#8) = -128 * 2 ^ 149 := by decide
  have hYhi : f32Units (convY 255#8 255#8 255#8) = 127 * 2 ^ 149 := by decide
  have hUhi : f32Units (convU 0#8 0#8 255#8) = 255 * 2 ^ 148 := by decide
  have hUlo : f32Units (convU 255#8 255#8 0#8) = -255 * 2 ^ 148 := by decide
  have hVhi : f32Units (convV 255#8 0#8 0#8) = 255 * 2 ^ 148 := by decide
  have hVlo : convV 0#8 255#8 255#8 = 0xC2FEFFFF#32 := by decide
  have lo := zero_le_sample
  have hi := sample_le_255
  refine ⟨fun r g b => ⟨⟨?_, ?_⟩, ⟨?_, ?_⟩, ⟨?_, ?_⟩, ?_⟩, hYlo, hYhi, hUhi, hUlo, hVhi, hVlo⟩
  · exact hYlo.ge.trans (convY_mono (lo r) (lo g) (lo b))
  · exact (convY_mono (hi r) (hi g) (hi b)).trans hYhi.le
  · exact hUlo.ge.trans (convU_mono (hi r) (hi g) (lo b))
  · exact (convU_mono (lo r) (lo g) (hi b)).trans hUhi.le
  · exact hVlo ▸ convV_mono (lo r) (hi g) (hi b)
  · exact (convV_mono (hi r) (lo g) (lo b)).trans hVhi.le
  · rw [grayConversionIsExact g]
    have hg := g.isLt
    omega

end Sys2Proof.Machine
end

section
/-! The pixel block converter (R85 to R89): the checks in their order, and the bytes that a conversion leaves, as a
function of the clamped samples. -/

namespace Sys2Proof.Machine

section
variable {s : State} {srcs dsts : List Word}

/-! ### The checks -/

/-- The first two checks of `CvCheck` are those of the side and of the valid rows and columns (R87). -/
theorem cvParamOk_iff :
    CvParamOk s ↔ ¬ (cvSide s < 1 ∨ Config.nMax < cvSide s) ∧ ¬ (s.cvH = 0#32 ∨ s.cvW = 0#32) := by
  rw [not_or, not_or, not_lt, not_lt, and_assoc]
  rfl

theorem cvCheck_of_not_paramOk (h : ¬ CvParamOk s) : cvCheck s srcs dsts = some .cvParam := by
  rw [cvParamOk_iff, not_and_or, not_not, not_not] at h
  unfold cvCheck
  rcases h with hside | hrows
  · rw [if_pos hside]
  · rw [if_pos hrows, ite_self]

theorem cvCheck_of_not_alignOk (hparam : CvParamOk s) (h : ¬ CvAlignOk dsts) :
    cvCheck s srcs dsts = some .cvAlign := by
  obtain ⟨hside, hrows⟩ := cvParamOk_iff.1 hparam
  rw [cvCheck, if_neg hside, if_neg hrows, if_pos (by simpa using h)]

theorem cvCheck_of_not_addrOk (hparam : CvParamOk s) (halign : CvAlignOk dsts) (h : ¬ CvAddrOk s srcs dsts) :
    cvCheck s srcs dsts = some .cvAddr := by
  obtain ⟨hside, hrows⟩ := cvParamOk_iff.1 hparam
  rw [cvCheck, if_neg hside, if_neg hrows, if_neg (by simpa using halign)]
  simp only [CvAddrOk, not_and_or, not_forall, not_le] at h
  rcases h with ⟨a, ha, hlast⟩ | ⟨d, hd, hlast⟩
  · rw [if_pos (List.any_eq_true.2 ⟨a, ha, decide_eq_true hlast⟩)]
  · rw [if_pos (c := dsts.any _ = true) (List.any_eq_true.2 ⟨d, hd, decide_eq_true hlast⟩), ite_self]

/-- A check that fails raises its cause on the state as it was (R87, R99). -/
theorem convert_of_cvCheck {c : Cause} (i : Instr) (m : Memory) (h : cvCheck s srcs dsts = some c) :
    convert i s srcs dsts m = .next (faulted s (causeCode c) i) := by
  rw [convert, h]
  rfl

/-- A conversion whose accesses are all allowed changes data memory alone (R49). -/
theorem convert_of_allowed (i : Instr) (m : Memory) (hlegal : CvLegal s srcs dsts) (hread : ReadsAllowed s srcs)
    (hwrite : WritesAllowed s dsts) : convert i s srcs dsts m = .next (s.withMem m) := by
  rw [convert_of_cvLegal i m hlegal, if_pos (readsOk_iff_readsAllowed.2 hread),
    if_pos (writesOk_iff_writesAllowed.2 hwrite)]

end

/-- Settles O51: both conversions are `convert` with their own planes and blocks. -/
theorem conversionChecks : Obligations.ConversionChecks := fun s =>
  ⟨fun hparam => ⟨convert_of_cvCheck .cvtc (cvtcMem s) (cvCheck_of_not_paramOk hparam),
      convert_of_cvCheck .cvtg (cvtgMem s) (cvCheck_of_not_paramOk hparam)⟩,
    fun hparam halign => convert_of_cvCheck .cvtc (cvtcMem s) (cvCheck_of_not_alignOk hparam halign),
    fun hparam halign => convert_of_cvCheck .cvtg (cvtgMem s) (cvCheck_of_not_alignOk hparam halign),
    fun hparam halign haddr => convert_of_cvCheck .cvtc (cvtcMem s) (cvCheck_of_not_addrOk hparam halign haddr),
    fun hparam halign haddr => convert_of_cvCheck .cvtg (cvtgMem s) (cvCheck_of_not_addrOk hparam halign haddr)⟩

/-! ### Memory after a conversion that completes -/

/-- Writing a block sets its own bytes alone (R86). -/
theorem read_writeBlock_blockByte {m : Memory} (hm : m.wf) (s : State) (dst : Word) (f : Nat → Nat → F32)
    (a : Nat) :
    (writeBlock m dst (cvSide s) f).read a = if InBlock s dst a then blockByte s dst f a else m.read a := by
  rw [read_writeBlock hm]
  simp only [InBlock, Nat.mul_assoc]
  rfl

/-- Every byte after `CVTC`: the V block is written last, so it is what stands where blocks overlap (R49, R88). -/
theorem read_cvtcMem {s : State} (hm : s.mem.wf) (a : Nat) :
    (cvtcMem s).read a =
      if InBlock s s.cvDstV a then blockByte s s.cvDstV (rgbElem s convV) a
      else if InBlock s s.cvDstU a then blockByte s s.cvDstU (rgbElem s convU) a
      else if InBlock s s.cvDstY a then blockByte s s.cvDstY (rgbElem s convY) a
      else s.mem.read a := by
  have hY := writeBlock_wf hm s.cvDstY (cvSide s) (rgbElem s convY)
  have hU := writeBlock_wf hY s.cvDstU (cvSide s) (rgbElem s convU)
  rw [cvtcMem, read_writeBlock_blockByte hU, read_writeBlock_blockByte hY, read_writeBlock_blockByte hm]

/-- Every byte after `CVTG` (R89). -/
theorem read_cvtgMem {s : State} (hm : s.mem.wf) (a : Nat) :
    (cvtgMem s).read a =
      if InBlock s s.cvDstY a then blockByte s s.cvDstY (fun i j => convG (sample s s.cvSrcG i j)) a
      else s.mem.read a :=
  read_writeBlock_blockByte hm s _ _ a

/-- Settles O49, by the three blocks written one after the other. -/
theorem cvtcCompletes : Obligations.CvtcCompletes := fun s hm hlegal hread hwrite =>
  ⟨cvtcMem s, convert_of_allowed .cvtc (cvtcMem s) hlegal hread hwrite,
    writeBlock_wf (writeBlock_wf (writeBlock_wf hm _ _ _) _ _ _) _ _ _, read_cvtcMem hm⟩

/-- Settles O50, by the one block written. -/
theorem cvtgCompletes : Obligations.CvtgCompletes := fun s hm hlegal hread hwrite =>
  ⟨cvtgMem s, convert_of_allowed .cvtg (cvtgMem s) hlegal hread hwrite, writeBlock_wf hm _ _ _, read_cvtgMem hm⟩

/-! ### What a conversion depends on -/

/-- A byte of a block is a byte of one of the block's elements. -/
theorem blockByte_congr {s : State} {dst : Word} {f f' : Nat → Nat → Word} {a : Nat} (ha : InBlock s dst a)
    (h : ∀ i < s.cvN.toNat, ∀ j < s.cvN.toNat, f i j = f' i j) : blockByte s dst f a = blockByte s dst f' a := by
  obtain ⟨hlo, hhi⟩ := ha
  rw [Nat.mul_assoc] at hhi
  have hpos : 0 < s.cvN.toNat := Nat.pos_of_ne_zero fun hzero => by
    rw [hzero] at hhi
    omega
  have hrow : (a - dst.toNat) / 4 / s.cvN.toNat < s.cvN.toNat := (Nat.div_lt_iff_lt_mul hpos).2 (by omega)
  unfold blockByte
  rw [h _ hrow _ (Nat.mod_lt _ hpos)]

@[simp] theorem inBlock_withMem (s : State) (m : Memory) (dst : Word) (a : Nat) :
    InBlock (s.withMem m) dst a ↔ InBlock s dst a := Iff.rfl

section
variable {s : State} {m' : Memory} (hm : s.mem.wf) (hm' : m'.wf)
include hm hm'

theorem read_cvtcMem_congr
    (hsame : ∀ src ∈ [s.cvSrcR, s.cvSrcG, s.cvSrcB], ∀ i < s.cvN.toNat, ∀ j < s.cvN.toNat,
      sample s src i j = sample (s.withMem m') src i j) {a : Nat}
    (ha : InBlock s s.cvDstY a ∨ InBlock s s.cvDstU a ∨ InBlock s s.cvDstV a) :
    (cvtcMem s).read a = (cvtcMem (s.withMem m')).read a := by
  have hR := hsame s.cvSrcR (by simp)
  have hG := hsame s.cvSrcG (by simp)
  have hB := hsame s.cvSrcB (by simp)
  have hblock {dst : Word} (hin : InBlock s dst a) (f : Byte → Byte → Byte → F32) :
      blockByte s dst (rgbElem s f) a = blockByte (s.withMem m') dst (rgbElem (s.withMem m') f) a :=
    blockByte_congr hin fun i hi j hj => by
      rw [rgbElem, hR i hi j hj, hG i hi j hj, hB i hi j hj]
      rfl
  rw [read_cvtcMem hm, read_cvtcMem (s := s.withMem m') hm']
  simp only [inBlock_withMem, State.withMem_cvDstY, State.withMem_cvDstU, State.withMem_cvDstV]
  split_ifs with hV hU hY
  · exact hblock hV convV
  · exact hblock hU convU
  · exact hblock hY convY
  · exact absurd ha (by simp only [hV, hU, hY, or_self, not_false_eq_true])

theorem read_cvtgMem_congr
    (hsame : ∀ i < s.cvN.toNat, ∀ j < s.cvN.toNat,
      sample s s.cvSrcG i j = sample (s.withMem m') s.cvSrcG i j) {a : Nat} (ha : InBlock s s.cvDstY a) :
    (cvtgMem s).read a = (cvtgMem (s.withMem m')).read a := by
  rw [read_cvtgMem hm, read_cvtgMem (s := s.withMem m') hm']
  simp only [inBlock_withMem, State.withMem_cvDstY, if_pos ha]
  exact blockByte_congr ha fun i hi j hj => congrArg convG (hsame i hi j hj)

end

/-- Settles O54: each run ends in the memory the conversion writes, whose block bytes come from the samples. -/
theorem conversionDependsOnItsSamples : Obligations.ConversionDependsOnItsSamples := by
  intro s m' hm hm'
  refine ⟨fun t u hlegal hread hwrite hsame ht hu a ha => ?_, fun t u hlegal hread hwrite hsame ht hu a ha => ?_⟩
  · cases (convert_of_allowed .cvtc (cvtcMem s) hlegal hread hwrite).symm.trans ht
    cases (convert_of_allowed (s := s.withMem m') .cvtc (cvtcMem (s.withMem m')) hlegal hread hwrite).symm.trans hu
    exact read_cvtcMem_congr hm hm' hsame ha
  · cases (convert_of_allowed .cvtg (cvtgMem s) hlegal hread hwrite).symm.trans ht
    cases (convert_of_allowed (s := s.withMem m') .cvtg (cvtgMem (s.withMem m')) hlegal hread hwrite).symm.trans hu
    exact read_cvtgMem_congr hm hm' hsame ha

end Sys2Proof.Machine
end

section
/-! The contents of the code tables (R90 to R96): which symbols each Huffman table populates, the printed codes,
no code begins another, and the zigzag table. -/

namespace Sys2Proof.Machine

/-! ### Populated symbols -/

/-- A DC table populates the symbols 0 to 11 (R92, R93). -/
theorem huffTable_dc_isSome_iff {t : Table} (ht : t = .ldc ∨ t = .cdc) {s : Nat} :
    (huffTable t s).isSome ↔ s ≤ 11 := by
  refine ⟨fun h => symbol_le_of_populated_dc ht (Option.some_get h).symm, ?_⟩
  revert s
  rcases ht with rfl | rfl <;> decide

/-- An AC table populates 0x00, 0xF0 and the 160 symbols of a run and a category 1 to 10 (R94, R95). -/
theorem huffTable_ac_isSome_iff {t : Table} (ht : t = .lac ∨ t = .cac) {s : Nat} (hs : s < 256) :
    (huffTable t s).isSome ↔ s = 0x00 ∨ s = 0xF0 ∨ (1 ≤ s % 16 ∧ s % 16 ≤ 10) := by
  refine ⟨fun h => symbol_of_populated_ac ht (Option.some_get h).symm, ?_⟩
  revert s
  rcases ht with rfl | rfl <;> decide +kernel

theorem huffTable_ac_count {t : Table} (ht : t = .lac ∨ t = .cac) :
    ((List.range 256).filter fun s => (huffTable t s).isSome).length = 162 := by
  have hsym : ∀ s ∈ List.range 256,
      (huffTable t s).isSome = decide (s = 0x00 ∨ s = 0xF0 ∨ (1 ≤ s % 16 ∧ s % 16 ≤ 10)) := fun s hs =>
    Bool.eq_iff_iff.2 ((huffTable_ac_isSome_iff ht (List.mem_range.1 hs)).trans decide_eq_true_iff.symm)
  rw [List.filter_congr hsym]
  decide +kernel

/-- Settles O39, by the populated symbols of the DC tables and of the AC tables. -/
theorem populatedSymbols : Obligations.PopulatedSymbols :=
  ⟨fun _ _ => ⟨huffTable_dc_isSome_iff (.inl rfl), huffTable_dc_isSome_iff (.inr rfl)⟩,
    fun _ hs => ⟨huffTable_ac_isSome_iff (.inl rfl) hs, huffTable_ac_isSome_iff (.inr rfl) hs⟩,
    huffTable_ac_count (.inl rfl), huffTable_ac_count (.inr rfl),
    fun s p _ _ h => exec_huff_of_unpopulated h p s⟩

/-! ### The printed codes -/

theorem huffTable_dc_eq_none {t : Table} (ht : t = .ldc ∨ t = .cdc) {s : Nat} (h : 12 ≤ s) :
    huffTable t s = none := by
  rw [← Option.not_isSome_iff_eq_none, huffTable_dc_isSome_iff ht]
  omega

theorem huffTable_ac_eq_none {t : Table} (ht : t = .lac ∨ t = .cac) {s : Nat} (hs : s < 256) (hEob : s ≠ 0x00)
    (hZrl : s ≠ 0xF0) (hcat : s % 16 = 0 ∨ 10 < s % 16) : huffTable t s = none := by
  rw [← Option.not_isSome_iff_eq_none, huffTable_ac_isSome_iff ht hs]
  omega

/-- Settles O41: the printed entries are computed, and the other symbols are those without an entry. -/
theorem lumaTables : Obligations.LumaTables := by
  refine ⟨rfl, rfl, ?dcCodes, fun s _ h => huffTable_dc_eq_none (.inl rfl) h, rfl, rfl, ?grid, ?eob, ?zrl,
    fun s hs hEob hZrl hcat => huffTable_ac_eq_none (.inl rfl) hs hEob hZrl hcat⟩
  case dcCodes | grid | eob | zrl => decide +kernel

/-- Settles O42: the printed entries are computed, and the other symbols are those without an entry. -/
theorem chromaTables : Obligations.ChromaTables := by
  refine ⟨rfl, rfl, ?dcCodes, fun s _ h => huffTable_dc_eq_none (.inr rfl) h, rfl, rfl, ?grid,
    huffTable_cac_zero, ?zrl, fun s hs hEob hZrl hcat => huffTable_ac_eq_none (.inr rfl) hs hEob hZrl hcat⟩
  case dcCodes | grid | zrl => decide +kernel

/-! ### No code begins another

A code of length `len` claims the `2 ^ (16 - len)` 16-bit words that begin with it. The canonical assignment (R90)
claims them in increasing order, and the words of a code that begins with another lie among the other's. -/

/-- Every 16-bit word that begins with `g` is below every one that begins with `h`. -/
def CodeBefore (g h : Group) : Prop :=
  (g.value.toNat + 1) * 2 ^ (16 - g.len.toNat) ≤ h.value.toNat * 2 ^ (16 - h.len.toNat)

theorem CodeBefore.trans {a b c : Group} (hab : CodeBefore a b) (hbc : CodeBefore b c) : CodeBefore a c :=
  Nat.le_trans hab ((Nat.mul_le_mul_right _ (Nat.le_succ _)).trans hbc)

/-- Neighbours in a table are in order (R90). -/
theorem tableEntries_isChain (t : Table) : (tableEntries t).IsChain fun e e' => CodeBefore e.2 e'.2 := by
  unfold CodeBefore
  cases t <;> decide +kernel

theorem tableEntries_pairwise (t : Table) : (tableEntries t).Pairwise fun e e' => CodeBefore e.2 e'.2 := by
  have : IsTrans (Nat × Group) fun e e' => CodeBefore e.2 e'.2 := ⟨fun _ _ _ => CodeBefore.trans⟩
  exact List.isChain_iff_pairwise.1 (tableEntries_isChain t)

theorem codeBefore_or_codeBefore {t : Table} {a b : Nat} {g h : Group} (hg : huffTable t a = some g)
    (hh : huffTable t b = some h) (hne : a ≠ b) : CodeBefore g h ∨ CodeBefore h g := by
  have : Std.Symm fun e e' : Nat × Group => CodeBefore e.2 e'.2 ∨ CodeBefore e'.2 e.2 := ⟨fun _ _ => Or.symm⟩
  have hpairs : (tableEntries t).Pairwise fun e e' => CodeBefore e.2 e'.2 ∨ CodeBefore e'.2 e.2 :=
    (tableEntries_pairwise t).imp .inl
  exact hpairs.forall (findEntry_mem hg) (findEntry_mem hh) fun heq => hne (congrArg Prod.fst heq)

/-- A group that begins another is what remains of the other when its last bits are shifted out. -/
theorem value_eq_div_of_prefix {g h : Group} (hg : g.canonical) (hh : h.canonical)
    (hpre : groupBits g <+: groupBits h) :
    g.value.toNat = h.value.toNat / 2 ^ (h.len.toNat - g.len.toNat) := by
  have hlen : g.len.toNat ≤ h.len.toNat := by simpa using hpre.length_le
  refine Nat.eq_of_testBit_eq fun k => ?_
  rw [Nat.testBit_div_two_pow]
  rcases lt_or_ge k g.len.toNat with hk | hk
  · obtain ⟨rest, hrest⟩ := hpre
    have hbit : (groupBits g)[g.len.toNat - 1 - k]? = (groupBits h)[g.len.toNat - 1 - k]? := by
      rw [← hrest, List.getElem?_append_left (by rw [groupBits_length]; omega)]
    rw [groupBits_getElem? (by omega), groupBits_getElem? (by omega), Option.some_inj] at hbit
    rwa [Nat.sub_sub_self (by omega), show h.len.toNat - 1 - (g.len.toNat - 1 - k) =
      k + (h.len.toNat - g.len.toNat) by omega] at hbit
  · rw [Nat.testBit_lt_two_pow (hg.2.trans_le (Nat.pow_le_pow_right (by decide) hk)),
      Nat.testBit_lt_two_pow (hh.2.trans_le (Nat.pow_le_pow_right (by decide) (by omega)))]

theorem not_codeBefore_of_prefix {g h : Group} (hg : g.canonical) (hh : h.canonical)
    (hpre : groupBits g <+: groupBits h) : ¬ CodeBefore g h ∧ ¬ CodeBefore h g := by
  have hlen : g.len.toNat ≤ h.len.toNat := by simpa using hpre.length_le
  have hval := value_eq_div_of_prefix hg hh hpre
  have hpow : 2 ^ (16 - g.len.toNat) = 2 ^ (h.len.toNat - g.len.toNat) * 2 ^ (16 - h.len.toNat) := by
    have hle := hh.1
    rw [← pow_add]
    congr 1
    omega
  simp only [CodeBefore, hpow, ← mul_assoc, Nat.mul_le_mul_right_iff (Nat.two_pow_pos _)]
  constructor
  · rw [← Nat.le_div_iff_mul_le (Nat.two_pow_pos _), ← hval]
    exact Nat.not_succ_le_self _
  · rw [hval]
    exact Nat.not_le_of_lt (Nat.lt_succ_of_le (Nat.div_mul_le_self _ _))

/-- Every code of the four tables has a bit (R90). -/
theorem tableEntries_len_pos (t : Table) : ∀ e ∈ tableEntries t, 1 ≤ e.2.len.toNat := by
  cases t <;> decide +kernel

/-- Settles O40: of two codes one stands before the other, and so neither begins the other. -/
theorem codesAreCanonicalAndPrefixFree : Obligations.CodesAreCanonicalAndPrefixFree := by
  intro t a b g h hg hh
  have hgc := huffTable_canonical hg
  refine ⟨hgc, tableEntries_len_pos t _ (findEntry_mem hg), fun hne hpre => ?_⟩
  obtain ⟨hgh, hhg⟩ := not_codeBefore_of_prefix hgc (huffTable_canonical hh) hpre
  exact (codeBefore_or_codeBefore hg hh hne).elim hgh hhg

/-! ### The zigzag table -/

/-- Settles O43: the table and its printed inverse are computed, each at its 64 positions. -/
theorem zigzagTableAndInverse : Obligations.ZigzagTableAndInverse := by
  refine ⟨?gridEntries, ?atInverse, ?inverseAt⟩
  case gridEntries | atInverse | inverseAt => decide

end Sys2Proof.Machine
end

section
/-! Faults and the halted block (R97 to R101, R110): how a command ends, with the fault codes it may raise, what
HOST's operations do while `HALT = 1`, and the idle step. -/

namespace Sys2Proof.Machine

/-! ### The end of a command -/

/-- The fault registers of `t` are those of `s` (R27 to R29). -/
def SameFault (s t : State) : Prop := t.halt = s.halt ∧ t.fcause = s.fcause ∧ t.fcmd = s.fcmd

/-- `t` is `s` with a fault that `i` may raise; only a `BUS_ERR` has changed data memory or drawn a value (R48, R99). -/
def PreciseFault (i : Instr) (s t : State) : Prop :=
  ∃ (code : BitVec 4) (m : Memory) (k : Nat), code ∈ faultCodes i ∧
    t = { faulted s code i with mem := m, draws := k } ∧ (code ≠ 8#4 → m = s.mem ∧ k = s.draws)

/-- The command answers a next state, with the fault registers kept or with one precise fault (R97, R99). -/
def EndsPrecisely (i : Instr) (s : State) (o : Host.Outcome State Fault Refusal) : Prop :=
  ∃ t : State, o = .next t ∧ (SameFault s t ∨ PreciseFault i s t)

/-- A result to be finished: it keeps the fault registers, or its cause is one that `i` may raise. -/
def FinishesPrecisely (i : Instr) (s : State) : Except Cause State → Prop
  | .ok t => SameFault s t
  | .error c => causeCode c ∈ faultCodes i

section
variable {i : Instr} {s : State}

theorem EndsPrecisely.of_sameFault {t : State} (h : SameFault s t) : EndsPrecisely i s (.next t) :=
  ⟨t, rfl, .inl h⟩

theorem EndsPrecisely.of_raise {c : Cause} (h : causeCode c ∈ faultCodes i) :
    EndsPrecisely i s (.next (raise s c (encode i))) :=
  ⟨_, rfl, .inr ⟨causeCode c, s.mem, s.draws, h, rfl, fun _ => ⟨rfl, rfl⟩⟩⟩

/-- The fault of a failed write: the destination blocks are spoilt (R48). -/
theorem EndsPrecisely.of_raise_spoilBlocks (dsts : List Word) (h : 8#4 ∈ faultCodes i) :
    EndsPrecisely i s (.next (raise (spoilBlocks s dsts) .busErr (encode i))) := by
  obtain ⟨m, k, hspoil⟩ := spoilBlocks_eq s dsts
  rw [hspoil]
  exact ⟨_, rfl, .inr ⟨8#4, m, k, h, rfl, fun hne => absurd rfl hne⟩⟩

theorem FinishesPrecisely.finish {r : Except Cause State} (h : FinishesPrecisely i s r) :
    EndsPrecisely i s (finish i s r) := by
  cases r with
  | ok t => exact .of_sameFault h
  | error c => exact .of_raise h

theorem finishesPrecisely_pushAll (gs : List Group) (h : 2#4 ∈ faultCodes i) :
    FinishesPrecisely i s (pushAll s gs) := by
  rcases pushAll_cases s gs with ⟨hpush, _⟩ | ⟨hpush, _⟩ <;> rw [hpush]
  · exact ⟨rfl, rfl, rfl⟩
  · exact h

theorem finishesPrecisely_pushIf (p : Bool) (gs : List Group) (h : p = true → 2#4 ∈ faultCodes i) :
    FinishesPrecisely i s (pushIf p s gs) := by
  cases p with
  | false => exact ⟨rfl, rfl, rfl⟩
  | true => exact finishesPrecisely_pushAll gs (h rfl)

theorem FinishesPrecisely.map_withRes {r : Except Cause State} (h : FinishesPrecisely i s r) (g : Group) :
    FinishesPrecisely i s (r.map (·.withRes g)) := by
  cases r with
  | ok t => exact h
  | error c => exact h

/-! ### Conversions -/

/-- `CvCheck` fails with one of three causes (R87). -/
theorem cvCheck_cause {srcs dsts : List Word} {c : Cause} (h : cvCheck s srcs dsts = some c) :
    c = .cvParam ∨ c = .cvAlign ∨ c = .cvAddr := by
  unfold cvCheck at h
  split_ifs at h <;> cases h <;> simp

/-- A conversion ends in a failed check, a failed access or its writes (R48, R87). -/
theorem endsPrecisely_convert {srcs dsts : List Word} {m : Memory} (h : faultCodes i = [5#4, 7#4, 6#4, 8#4]) :
    EndsPrecisely i s (convert i s srcs dsts m) := by
  have hbus : 8#4 ∈ faultCodes i := by simp [h]
  rcases convert_cases i s srcs dsts m with ⟨c, hcheck, hc⟩ | ⟨_, _, hc⟩ | ⟨_, _, _, hc⟩ | ⟨_, _, _, hc⟩ <;> rw [hc]
  · refine .of_raise ?_
    rcases cvCheck_cause hcheck with rfl | rfl | rfl <;> simp [h, causeCode]
  · exact .of_raise hbus
  · exact .of_raise_spoilBlocks dsts hbus
  · exact .of_sameFault ⟨rfl, rfl, rfl⟩

end

/-! ### Every command -/

theorem magAccepts_of_not_magRejects {s : State} {v : Int} (h : ¬ MagRejects s v) : MagAccepts s v :=
  magOutOfRange_eq_false_iff.1 (Bool.eq_false_of_not_eq_true (mt magOutOfRange_eq_true_iff.1 h))

theorem endsPrecisely_mag (s : State) (p : Bool) (imm : BitVec 16) :
    EndsPrecisely (.mag p imm) s (exec (.mag p imm) s) := by
  by_cases hrej : MagRejects s (immValue imm)
  · rw [exec_mag_of_rejects hrej]
    exact .of_raise (by cases p <;> simp [faultCodes, causeCode])
  · rw [exec_mag_of_accepts (magAccepts_of_not_magRejects hrej)]
    exact ((finishesPrecisely_pushIf p _ (fun hp => by simp [faultCodes, hp])).map_withRes _).finish

theorem endsPrecisely_huff (s : State) (p : Bool) (t : Table) (sym : BitVec 8) :
    EndsPrecisely (.huff p t sym) s (exec (.huff p t sym) s) := by
  cases hsym : huffTable t sym.toNat with
  | none =>
    rw [exec_huff_of_unpopulated hsym]
    exact .of_raise (by cases p <;> simp [faultCodes, causeCode])
  | some g =>
    rw [exec_huff_of_populated hsym]
    exact ((finishesPrecisely_pushIf p _ (fun hp => by simp [faultCodes, hp])).map_withRes _).finish

theorem endsPrecisely_enc (s : State) (t : Table) (run : BitVec 4) (imm : BitVec 16) :
    EndsPrecisely (.enc t run imm) s (exec (.enc t run imm) s) := by
  by_cases hrej : MagRejects s (immValue imm)
  · rw [exec_enc_of_rejects hrej]
    exact .of_raise (by simp [faultCodes, causeCode])
  · have hmag := magAccepts_of_not_magRejects hrej
    by_cases hsym : 15 < category (immValue imm) ∨ huffTable t (run.toNat * 16 + category (immValue imm)) = none
    · rw [exec_enc_of_unpopulated hmag hsym]
      exact .of_raise (by simp [faultCodes, causeCode])
    · obtain ⟨hcat, hcode⟩ := not_or.1 hsym
      obtain ⟨code, hcode⟩ := Option.ne_none_iff_exists'.1 hcode
      rw [exec_enc_of_encodable hmag (not_lt.1 hcat) hcode]
      exact ((finishesPrecisely_pushAll _ (by simp [faultCodes])).map_withRes _).finish

/-- Settles O55, one command at a time: each ends in its checks, in a push, in a conversion or in a write of a
result. -/
theorem faultsArePrecise : Obligations.FaultsArePrecise := by
  intro i s
  show EndsPrecisely i s (exec i s)
  cases i with
  | nop | clear | zz idx => exact .of_sameFault ⟨rfl, rfl, rfl⟩
  | pushi len val => exact (finishesPrecisely_pushAll [⟨val, len⟩] (by simp [faultCodes])).finish
  | pushr => exact (finishesPrecisely_pushAll [s.res] (by decide)).finish
  | graych => exact (finishesPrecisely_pushAll grayGroups (by decide)).finish
  | mag p imm => exact endsPrecisely_mag s p imm
  | huff p t sym => exact endsPrecisely_huff s p t sym
  | enc t run imm => exact endsPrecisely_enc s t run imm
  | cvtc | cvtg => exact endsPrecisely_convert rfl

/-! ### The halted block -/

/-- The state with this `HALT` bit. -/
def State.withHalt (s : State) (b : Bool) : State := { s with halt := b }

theorem issue_of_halted {s : State} (h : s.halt = true) (w : Word) : issue w s = .next s := if_pos h

/-- An aligned offset is that of the register found there (R23). -/
theorem regOffset_of_regAt {b : Build} {offset : Nat} {r : Reg} (ha : offset % 4 = 0) (h : regAt b offset = some r) :
    regOffset r = offset := by
  unfold regAt at h
  split_ifs at h with hdata
  · cases h
    show 0x1000 + 4 * ((offset - 0x1000) / 4) = offset
    omega
  · simpa using List.find?_some h

@[simp] theorem readReg_halt (s : State) (r : Option Reg) : (readReg s r).halt = s.halt := by
  obtain ⟨v, k, hread⟩ := readReg_eq s r
  rw [hread]
  rfl

/-- No read but that of `STATUS` looks at `HALT`. -/
theorem readReg_withHalt {r : Option Reg} (hr : r ≠ some .status) (s : State) (b : Bool) :
    readReg (s.withHalt b) r = (readReg s r).withHalt b := by
  cases r with
  | none => rfl
  | some r =>
    cases r with
    | status => exact absurd rfl hr
    | sbData i =>
      exact (apply_ite (·.withHalt b) (i < s.size.toNat) (s.withReply (regValue s (.sbData i))) (readStale s)).symm
    | cmd | fcause | fcmd | sbSize | sbCap | sbRsv | res | zres | magCfg | srst | cvSrcR | cvSrcG
    | cvSrcB | cvStride | cvH | cvW | cvN | cvDstY | cvDstU | cvDstV => rfl

/-- A read that answers a next state is an aligned one of the window (R24). -/
theorem step_rd_next {s t : State} {offset : Nat} {rest : List HostOp}
    (hp : s.pending = .rd (.reg offset) 4 :: rest) (h : step s = .next t) : offset < 0x2000 ∧ offset % 4 = 0 := by
  rw [step_of_pending hp] at h
  by_cases ho : offset < 0x2000
  · rw [hostOp_rd (windowOffset_reg ho)] at h
    split_ifs at h with hdef
    exact ⟨ho, (accessDefined_iff.1 hdef).2⟩
  · simp [hostOp, windowOffset, ho] at h

theorem statusWord_getLsbD_one (s : State) : (statusWord s).getLsbD 1 = s.halt := by
  simp [statusWord]

/-- In the halted block only `SRST` writes `HALT` (R100, R101). -/
theorem writeReg_of_halted {s t : State} {r : Option Reg} {w : Word} (hhalt : s.halt = true)
    (h : writeReg s r w = .next t) :
    t.halt = true ∨ (r = some .srst ∧ w.getLsbD 0 = true ∧ t = resetBlock s) := by
  rcases writeReg_cases s r w with ⟨_, hw⟩ | ⟨hr, hbit, hw⟩ | ⟨_, _, _, _, _, _, _, _, _, _, _, _, hw⟩ <;> rw [hw] at h
  · rw [issue_of_halted hhalt] at h
    cases h
    exact .inl hhalt
  · cases h
    exact .inr ⟨hr, hbit, rfl⟩
  · cases h
    exact .inl hhalt

/-- In the halted block an operation keeps `HALT`, or it is a reset (R101). -/
theorem hostOp_of_halted {s t : State} {op : HostOp} (hhalt : s.halt = true) (h : hostOp op s = .next t) :
    t.halt = true ∨ t = resetBlock s ∧ (op = .resetInput ∨
      ∃ target w, op = .wr target 4 w ∧ windowOffset s.build target = some 0x028 ∧ w.getLsbD 0 = true) := by
  cases op with
  | wr target width w =>
    cases hwin : windowOffset s.build target with
    | none => simp [hostOp, hwin] at h
    | some offset =>
      rw [hostOp_wr hwin] at h
      split_ifs at h with hdef
      obtain ⟨rfl, ha⟩ := accessDefined_iff.1 hdef
      refine (writeReg_of_halted hhalt h).imp_right fun ⟨hr, hbit, ht⟩ => ⟨ht, .inr ⟨target, w, rfl, ?_, hbit⟩⟩
      rw [hwin, ← regOffset_of_regAt ha hr]
      rfl
  | rd target width =>
    cases hwin : windowOffset s.build target with
    | none => simp [hostOp, hwin] at h
    | some offset =>
      rw [hostOp_rd hwin] at h
      split_ifs at h
      cases h
      exact .inl ((readReg_halt s _).trans hhalt)
  | memWr address data =>
    rw [hostOp_memWr] at h
    split_ifs at h
    cases h
    exact .inl hhalt
  | memRd address =>
    rw [hostOp_memRd] at h
    split_ifs at h
    cases h
    exact .inl hhalt
  | resetInput =>
    cases h
    exact .inr ⟨rfl, .inl rfl⟩

/-- A read of a register other than `STATUS` acts as with `HALT = 0` (R100). -/
theorem step_rd_withHalt {s t : State} {offset : Nat} {rest : List HostOp}
    (hp : s.pending = .rd (.reg offset) 4 :: rest) (hne : offset ≠ 0x004) (h : step s = .next t) (b : Bool) :
    t.halt = s.halt ∧ step (s.withHalt b) = .next (t.withHalt b) := by
  obtain ⟨ho, ha⟩ := step_rd_next hp h
  have hreg : regAt s.build offset ≠ some .status := fun hr => hne (regOffset_of_regAt ha hr).symm
  rw [step_rd hp ho ha] at h
  cases h
  refine ⟨readReg_halt _ _, ?_⟩
  rw [← readReg_withHalt hreg]
  exact step_rd (s := s.withHalt b) hp ho ha

/-- A step that ends the halted state is a reset (R101). -/
theorem step_clears_halt {s t : State} (hhalt : s.halt = true) (h : step s = .next t) (ht : t.halt = false) :
    ResetNext s ∧ HasResetValues t := by
  rcases step_cases h with ⟨_, rfl⟩ | ⟨op, ops, hp, hop⟩
  · rw [hhalt] at ht
    cases ht
  · rcases hostOp_of_halted (s := s.withPending ops) hhalt hop with hkept | ⟨rfl, hreset⟩
    · rw [ht] at hkept
      cases hkept
    · exact ⟨⟨op, ops, hp, hreset⟩, resetBlock_hasResetValues _⟩

/-- Settles O6: a command is discarded, reads other than of `STATUS` commute with `HALT`, writes are those of the
running block, and of HOST's operations only a reset clears `HALT`. -/
theorem haltedBlock : Obligations.HaltedBlock := by
  refine ⟨fun s w rest hhalt hp => ?_, fun s t offset rest hhalt hp hne h => ?_, fun s rest hhalt hp => ?_,
    fun s w rest p _ hmem hp => registerWrites s w rest p hmem hp, fun s t hhalt h ht => step_clears_halt hhalt h ht⟩
  · rw [step_wr_fixed (r := .cmd) (by decide) hp]
    exact issue_of_halted (s := s.withPending rest) hhalt w
  · obtain ⟨hkept, hstep⟩ := step_rd_withHalt hp hne h false
    exact ⟨hkept.trans hhalt, hstep⟩
  · exact ⟨statusWord s, step_rd_fixed (r := .status) (by decide) hp, (statusWord_getLsbD_one s).trans hhalt,
      statusWord_getLsbD_zero s⟩

/-! ### The idle block -/

/-- Settles O7, by the step's own case of an empty list. -/
theorem idleBlockKeepsItsState : Obligations.IdleBlockKeepsItsState := by
  intro s hp
  simp only [step, hostStep, hp]

end Sys2Proof.Machine
end

section
/-! The reserve (R64, R113): a command takes at most `mostGroups` slots of the buffer, so commands that fit in all
never raise SB_OVF. -/

namespace Sys2Proof.Machine

/-- `n` more groups fit, and no `SB_OVF` is recorded (R65, R97). -/
def HasRoom (n : Nat) (s : State) : Prop := s.fcause ≠ 2#4 ∧ s.size.toNat + n ≤ s.build.cap.toNat

/-- The outcome is a next state in which `n` more groups fit. -/
def EndsWithRoom (n : Nat) (o : Host.Outcome State Fault Refusal) : Prop := ∃ t : State, o = .next t ∧ HasRoom n t

/-- A result to be finished: it leaves room for `n` groups, or its cause is not `SB_OVF`. -/
def LeavesRoom (n : Nat) : Except Cause State → Prop
  | .ok t => HasRoom n t
  | .error c => c ≠ .sbOvf

section
variable {n : Nat} {i : Instr} {s : State}

theorem HasRoom.mono {m : Nat} (h : HasRoom n s) (hle : m ≤ n) : HasRoom m s :=
  ⟨h.1, (Nat.add_le_add_left hle _).trans h.2⟩

theorem HasRoom.raise (h : HasRoom n s) {c : Cause} (hc : c ≠ .sbOvf) (w : Word) : HasRoom n (raise s c w) :=
  ⟨fun hcode => hc (causeCode_injective (d := .sbOvf) hcode), h.2⟩

/-- A push that fits uses up as many slots as it has groups. -/
theorem HasRoom.withPushed {gs : List Group} (h : HasRoom (gs.length + n) s) : HasRoom n (s.withPushed gs) := by
  obtain ⟨hcause, hroom⟩ := h
  refine ⟨hcause, ?_⟩
  rw [withPushed_size_toNat (by omega)]
  exact (Nat.add_assoc ..).trans_le hroom

theorem HasRoom.endsWithRoom (h : HasRoom n s) : EndsWithRoom n (.next s) := ⟨s, rfl, h⟩

theorem LeavesRoom.finish {r : Except Cause State} (hr : LeavesRoom n r) (hs : HasRoom n s) :
    EndsWithRoom n (finish i s r) := by
  cases r with
  | ok t => exact HasRoom.endsWithRoom hr
  | error c => exact (hs.raise hr _).endsWithRoom

/-- The room does not depend on `RES`. -/
theorem LeavesRoom.map_withRes {r : Except Cause State} (h : LeavesRoom n r) (g : Group) :
    LeavesRoom n (r.map (·.withRes g)) := by
  cases r with
  | ok t => exact h
  | error c => exact h

theorem leavesRoom_pushAll {gs : List Group} (h : HasRoom (gs.length + n) s) : LeavesRoom n (pushAll s gs) := by
  rw [pushAll_fits (by have := h.2; omega)]
  exact h.withPushed

theorem leavesRoom_pushIf (p : Bool) {gs : List Group} (h : HasRoom ((if p then gs.length else 0) + n) s) :
    LeavesRoom n (pushIf p s gs) := by
  cases p with
  | false => exact h.mono (Nat.le_add_left ..)
  | true => exact leavesRoom_pushAll h

theorem encGroups_length_le (code suffix : Group) : (encGroups code suffix).length ≤ 2 := by
  rw [encGroups]
  split_ifs <;> simp

/-- A conversion pushes nothing, and none of its faults is `SB_OVF` (R48, R87). -/
theorem endsWithRoom_convert (h : HasRoom n s) (srcs dsts : List Word) (m : Memory) :
    EndsWithRoom n (convert i s srcs dsts m) := by
  rcases convert_cases i s srcs dsts m with ⟨c, hcheck, hc⟩ | ⟨_, _, hc⟩ | ⟨_, _, _, hc⟩ | ⟨_, _, _, hc⟩ <;> rw [hc]
  · refine (h.raise ?_ _).endsWithRoom
    rcases cvCheck_cause hcheck with rfl | rfl | rfl <;> simp
  · exact (h.raise (by simp) _).endsWithRoom
  · obtain ⟨m', k, hspoil⟩ := spoilBlocks_eq s dsts
    rw [hspoil]
    exact (HasRoom.raise (s := (s.withMem m').withDraws k) h (by simp) _).endsWithRoom
  · exact HasRoom.endsWithRoom (s := s.withMem m) h

/-- A command takes at most `mostGroups` slots of the room, and does not raise `SB_OVF` if there were as many. -/
theorem exec_endsWithRoom (h : HasRoom (mostGroups i + n) s) : EndsWithRoom n (exec i s) := by
  have hn : HasRoom n s := h.mono (Nat.le_add_left ..)
  cases i with
  | nop | zz idx => exact HasRoom.endsWithRoom hn
  | clear => exact HasRoom.endsWithRoom (s := s.withSize 0#11) ⟨hn.1, by have := hn.2; simp; omega⟩
  | pushi len val => exact (leavesRoom_pushAll (gs := [⟨val, len⟩]) h).finish hn
  | pushr => exact (leavesRoom_pushAll (gs := [s.res]) h).finish hn
  | graych => exact (leavesRoom_pushAll (gs := grayGroups) h).finish hn
  | mag p imm =>
    by_cases hrej : MagRejects s (immValue imm)
    · rw [exec_mag_of_rejects hrej]
      exact (hn.raise (by simp) _).endsWithRoom
    · rw [exec_mag_of_accepts (magAccepts_of_not_magRejects hrej)]
      exact ((leavesRoom_pushIf p h).map_withRes _).finish hn
  | huff p t sym =>
    cases hsym : huffTable t sym.toNat with
    | none =>
      rw [exec_huff_of_unpopulated hsym]
      exact (hn.raise (by simp) _).endsWithRoom
    | some g =>
      rw [exec_huff_of_populated hsym]
      exact ((leavesRoom_pushIf p h).map_withRes _).finish hn
  | enc t run imm =>
    by_cases hrej : MagRejects s (immValue imm)
    · rw [exec_enc_of_rejects hrej]
      exact (hn.raise (by simp) _).endsWithRoom
    · have hmag := magAccepts_of_not_magRejects hrej
      by_cases hsym : 15 < category (immValue imm) ∨ huffTable t (run.toNat * 16 + category (immValue imm)) = none
      · rw [exec_enc_of_unpopulated hmag hsym]
        exact (hn.raise (by simp) _).endsWithRoom
      · obtain ⟨hcat, hcode⟩ := not_or.1 hsym
        obtain ⟨code, hcode⟩ := Option.ne_none_iff_exists'.1 hcode
        rw [exec_enc_of_encodable hmag (not_lt.1 hcat) hcode]
        have hroom := h.mono (Nat.add_le_add_right (encGroups_length_le code (magEncode (immValue imm))) n)
        exact ((leavesRoom_pushAll hroom).map_withRes _).finish hn
  | cvtc | cvtg => exact endsWithRoom_convert hn _ _ _

/-- The same for the command's word written to `CMD`, which a halted block discards (R26, R100). -/
theorem issue_endsWithRoom (hwf : i.wellFormed) (h : HasRoom (mostGroups i + n) s) :
    EndsWithRoom n (issue (encode i) s) := by
  have hdec : decode (encode i) = .ok i := decodeOfEncode i hwf
  cases hhalt : s.halt with
  | true =>
    rw [issue_of_halted hhalt]
    exact (h.mono (Nat.le_add_left ..)).endsWithRoom
  | false =>
    have hexec : issue (encode i) s = exec i s := by simp [issue, hhalt, hdec]
    rw [hexec]
    exact exec_endsWithRoom h

end

/-- Commands whose group counts fit in all leave the rest of the room, and none of them raises `SB_OVF` (R113). -/
theorem issueAll_endsWithRoom {is : List Instr} {s : State} {n : Nat} (hwf : ∀ i ∈ is, i.wellFormed)
    (h : HasRoom ((is.map mostGroups).sum + n) s) : EndsWithRoom n (issueAll is s) := by
  induction is generalizing s with
  | nil => exact HasRoom.endsWithRoom (h.mono (Nat.le_add_left ..))
  | cons i is ih =>
    obtain ⟨hi, his⟩ := List.forall_mem_cons.1 hwf
    rw [List.map_cons, List.sum_cons, Nat.add_assoc] at h
    obtain ⟨t, ht, hroom⟩ := issue_endsWithRoom hi h
    simp only [issueAll, ht]
    exact ih his hroom

/-- `FULL = 0` leaves room for `RSV + 1` groups (R64, R113). -/
theorem hasRoom_of_not_full {s : State} (hfull : full s = false) (hcause : s.fcause ≠ 2#4) :
    HasRoom (s.rsv.toNat + 1) s := by
  have hlt : s.size.toNat + s.rsv.toNat < s.build.cap.toNat := not_le.1 (of_decide_eq_false hfull)
  exact ⟨hcause, hlt⟩

/-- Settles O27, by induction over the commands: the room that `FULL = 0` gives is not used up before the last. -/
theorem reserveBoundsPushes : Obligations.ReserveBoundsPushes := by
  intro is s t hwf _ hfull hcause hsum ht
  have hroom : HasRoom (is.map mostGroups).sum s := (hasRoom_of_not_full hfull hcause).mono hsum
  obtain ⟨u, hu, hcause', _⟩ := issueAll_endsWithRoom (n := 0) hwf hroom
  cases hu.symm.trans ht
  exact hcause'

end Sys2Proof.Machine
end
